-- ==== Sys2Proof/Word.lean ====
section
/-! DEFINITION. The word types of the block: 32-bit registers, 16-bit packed palette words, bytes. -/

namespace Sys2Proof

/-- A host register (R8 `REG_BITS` = 32). -/
abbrev Word := BitVec 32

/-- A packed palette word, a word of PALROM (R72, R115). -/
abbrev Half := BitVec 16

/-- A byte of PMEM or RBUF, a decoded symbol (R8 `SYM_BITS` = 8). -/
abbrev Byte := BitVec 8

end Sys2Proof
end

