-- ==== Sys2Proof/Config.lean ====
section
/-! DEFINITION. What the source fixes (R7), and the open parameters of the block with their defaults and
constraints (R8, R9, 92_eei_decisions.md "OPEN parameters", 93_implementation_defined.md U11 and U12). -/

namespace Sys2Proof

/-- U11: which five bits of a packed palette word hold red.
The default reading is general knowledge (K1), not the source's. PRESUMED (log 18), unsafe. -/
inductive PackedOrder where
  | rgbHigh
  | bgrHigh
  deriving DecidableEq, Repr

/-- U12: the opacity of entries 1..15 of a Huffman-coded palette.
The spec defines one value of the parameter and no alternative. -/
inductive HuffOpaque where
  | allOpaque
  deriving DecidableEq, Repr

/-- The open parameters (92_eei_decisions.md, last paragraph): arguments of the model.
State holds one value of this type, and no step changes it (log 3). -/
structure Config where
  pmemBytes : Nat
  palromWords : Nat
  rasterMax : Nat
  packedOrder : PackedOrder
  huffOpaque : HuffOpaque
  deriving DecidableEq, Repr

/-- The defaults of R8, U11 and U12. -/
def Config.default : Config :=
  { pmemBytes := 2 ^ 24, palromWords := 2 ^ 16, rasterMax := 65536,
    packedOrder := .rgbHigh, huffOpaque := .allOpaque }

/-- R9: the constraints on the parameters. -/
abbrev Config.wf (c : Config) : Prop :=
  (1 ≤ c.pmemBytes ∧ c.pmemBytes ≤ 2 ^ 28) ∧
  (1 ≤ c.palromWords ∧ c.palromWords ≤ 2 ^ 32) ∧
  (1 ≤ c.rasterMax ∧ c.rasterMax ≤ 2 ^ 32 - 1)

/-- R24: `ID` holds "PKS" and 7, and never changes. -/
def idValue : Word := 0x504B5307

end Sys2Proof
end

