-- ==== Sys2Proof/Syntax.lean ====
section
/-! DEFINITION. The names of the block: stream roles (R14), the register map's registers (R21), the formats (R100),
and the instructions, one constructor per row of spec/opcode_table.json. -/

namespace Sys2Proof

/-- R14: the five stream roles; each names a cursor and the tree bound to it. -/
inductive Role where
  | dy | dx | run | val | col
  deriving DecidableEq, Repr

/-- R25 `CTRL.LAYOUT`. The values 2 and 3 are reserved and cannot be written (R22, R114). -/
inductive Layout where
  | quad | delta
  deriving DecidableEq, Repr

/-- R25 `CTRL.PALMODE`. The value 3 is reserved and cannot be written (R22). -/
inductive PalMode where
  | huff | raw15 | raw16
  deriving DecidableEq, Repr

/-- R27 `TREE_CFG.DOMAIN`. -/
inductive Domain where
  | nibble | byte
  deriving DecidableEq, Repr

/-- R21: the host's registers, indexed ones by their role. -/
inductive Reg where
  | id | ctrl | status | fault | faddr | cmd | result | width | height | bufpos | npix
  | lasttok | lastoff | rbufAddr | rbufData | pixel | lutIdx | lutOut | lutRaw
  | palBase0 | palBase1 | palEnd0 | palEnd1
  | curBase (c : Role) | curLen (c : Role) | curOff (c : Role) | curEnd (c : Role)
  | hdrShapeBase (t : Role) | hdrShapeBits (t : Role) | hdrPermBase (t : Role)
  | hdrPermCount (t : Role) | treeCfg (t : Role) | treeNodes (t : Role)
  deriving DecidableEq, Repr

/-- R100: the formats of encoded things, by where the bits are found. -/
inductive Format where
  | cmd | shape | path | tokenQuad | tokenDelta | palword | colour
  deriving DecidableEq, Repr

/-- The instructions: the nine host commands (R102), the one-bit operations of headers and streams (R105, R107),
the raster tokens of both layouts (R110, R111, R113), the packed palette word (R115) and the colour triple (R116). -/
inductive Instr where
  | nop
  | build (sel : BitVec 4)
  | decode (sel : BitVec 4)
  | rdbit (sel : BitVec 4)
  | rstart
  | rstep
  | rrun
  | paldec
  | sreset
  | node
  | leaf
  | left
  | right
  | litDelta (value : Byte)
  | fillDelta (runlen value : Byte)
  | copyDelta (delta runlen value : Byte)
  | litQuad (dy dx value : Byte)
  | fillQuad (dy dx runlen value : Byte)
  | copyQuad (dy dx runlen value : Byte)
  | palword (opaq : Bool) (r g b : BitVec 5)
  | colourTriple (r g b : Byte)
  deriving DecidableEq, Repr

/-- The format an instruction is encoded in. -/
def Instr.format : Instr → Format
  | .nop => .cmd
  | .build _ => .cmd
  | .decode _ => .cmd
  | .rdbit _ => .cmd
  | .rstart => .cmd
  | .rstep => .cmd
  | .rrun => .cmd
  | .paldec => .cmd
  | .sreset => .cmd
  | .node => .shape
  | .leaf => .shape
  | .left => .path
  | .right => .path
  | .litDelta _ => .tokenDelta
  | .fillDelta _ _ => .tokenDelta
  | .copyDelta _ _ _ => .tokenDelta
  | .litQuad _ _ _ => .tokenQuad
  | .fillQuad _ _ _ _ => .tokenQuad
  | .copyQuad _ _ _ _ => .tokenQuad
  | .palword _ _ _ _ => .palword
  | .colourTriple _ _ _ => .colour

/-- The bits of a format's word (R100); a tuple word and the model's carrier of a colour triple have 32. -/
def Format.bits : Format → Nat
  | .cmd => 32
  | .shape => 1
  | .path => 1
  | .tokenQuad => 32
  | .tokenDelta => 32
  | .palword => 16
  | .colour => 32

end Sys2Proof
end

