-- ==== Sys2Proof/WellFormed.lean ====
section
/-! DEFINITION. Which instruction terms the spec's encodings can stand for: the checks that need no state, and the
class condition of a QUAD token, which depends on WIDTH (R113). -/

namespace Sys2Proof

/-- A selector field names a stream (R102: `t` in 0..4). -/
def selectorOk (sel : BitVec 4) : Bool := sel.toNat ≤ 4

/-- A colour symbol fits the 5-bit value (R116, R242). -/
def colourSymbolOk (v : Byte) : Bool := v.toNat ≤ 31

/-- The checks on an instruction's own fields: selectors (R102), the class conditions on `runlen` and `delta`
(R113), colour symbols (R116). -/
def Instr.wellFormed : Instr → Bool
  | .nop => true
  | .build sel => selectorOk sel
  | .decode sel => selectorOk sel
  | .rdbit sel => selectorOk sel
  | .rstart => true
  | .rstep => true
  | .rrun => true
  | .paldec => true
  | .sreset => true
  | .node => true
  | .leaf => true
  | .left => true
  | .right => true
  | .litDelta _ => true
  | .fillDelta runlen _ => runlen != 0
  | .copyDelta delta _ _ => delta != 0
  | .litQuad _ _ _ => true
  | .fillQuad _ _ runlen _ => runlen != 0
  | .copyQuad _ _ _ _ => true
  | .palword _ _ _ _ => true
  | .colourTriple r g b => colourSymbolOk r && colourSymbolOk g && colourSymbolOk b

/-- R113 in QUAD layout: `offset == 0` means `WIDTH*dy + dx == 128`. -/
def quadOffsetZero (width : BitVec 16) (dy dx : Byte) : Bool :=
  width.toNat * dy.toNat + dx.toNat == 128

/-- R113: the class of a QUAD token, which depends on WIDTH, is the one the constructor says. -/
def Instr.classHolds (width : BitVec 16) : Instr → Bool
  | .nop => true
  | .build _ => true
  | .decode _ => true
  | .rdbit _ => true
  | .rstart => true
  | .rstep => true
  | .rrun => true
  | .paldec => true
  | .sreset => true
  | .node => true
  | .leaf => true
  | .left => true
  | .right => true
  | .litDelta _ => true
  | .fillDelta _ _ => true
  | .copyDelta _ _ _ => true
  | .litQuad dy dx _ => quadOffsetZero width dy dx
  | .fillQuad dy dx _ _ => quadOffsetZero width dy dx
  | .copyQuad dy dx _ _ => !quadOffsetZero width dy dx
  | .palword _ _ _ _ => true
  | .colourTriple _ _ _ => true

end Sys2Proof
end

