-- ==== Sys2Proof/Decode.lean ====
section
/-! DEFINITION. Decoding, total on any word of any format and rejecting by name; after it the encoder, written from
the same tables. Also the register index map (R21), where register numbers become constructors. -/

namespace Sys2Proof

/-- What decoding depends on besides the word: WIDTH decides a QUAD token's class (R113), PACKED_ORDER the
channels of a packed word (U11). -/
structure Ctx where
  width : BitVec 16
  order : PackedOrder
  deriving DecidableEq, Repr

/-- Why a word is no instruction of its format. -/
inductive Reject where
  /-- A command word with bits [31:12] set or an unknown OP (R103 step 1). -/
  | badOpcode
  /-- A command word with SEL set where it must be 0 (R103 step 2). -/
  | badSelector
  /-- A shape or path word that is not one bit (R105, R107). -/
  | notOneBit
  /-- A DELTA tuple word with bits [31:24] set (R111). -/
  | tupleUnusedBits
  /-- A packed palette word of more than 16 bits (R115). -/
  | notSixteenBits
  /-- A colour triple with bits [31:24] set, which the model's carrier does not use (log 9). -/
  | tripleUnusedBits
  /-- A colour symbol above 31 (R242). -/
  | colourRange
  deriving DecidableEq, Repr

/-- R14: the index of a role. -/
def Role.index : Role → Nat
  | .dy => 0
  | .dx => 1
  | .run => 2
  | .val => 3
  | .col => 4

/-- The role of an index (R14); 5 and above name none. -/
def roleOfIndex : Nat → Option Role
  | 0 => some .dy
  | 1 => some .dx
  | 2 => some .run
  | 3 => some .val
  | 4 => some .col
  | _ => none

/-- R101: a selector field as a role; 5..15 name none. -/
def Role.ofSel (sel : BitVec 4) : Option Role := roleOfIndex sel.toNat

/-- The selector field of a role. -/
def Role.sel (t : Role) : BitVec 4 := BitVec.ofNat 4 t.index

/-- A command without selector: SEL must be 0 (R101, R103 step 2). -/
def plainCommand (sel : BitVec 4) (i : Instr) : Except Reject Instr :=
  if sel = 0 then .ok i else .error .badSelector

/-- R101, R102, R103 steps 1 and 2. `BUILD`, `DECODE` and `RDBIT` keep their selector: the table's masks admit
every value of it, and a value above 4 is refused when the command is executed (R103 step 2). -/
def decodeCmd (w : Word) : Except Reject Instr :=
  let sel : BitVec 4 := w.extractLsb' 8 4
  if w.extractLsb' 12 20 ≠ 0 then .error .badOpcode
  else match (w.extractLsb' 0 8).toNat with
    | 0x00 => plainCommand sel .nop
    | 0x01 => .ok (.build sel)
    | 0x02 => .ok (.decode sel)
    | 0x03 => .ok (.rdbit sel)
    | 0x04 => plainCommand sel .rstart
    | 0x05 => plainCommand sel .rstep
    | 0x06 => plainCommand sel .rrun
    | 0x07 => plainCommand sel .paldec
    | 0x0F => plainCommand sel .sreset
    | _ => .error .badOpcode

/-- R105: `0` is `NODE`, `1` is `LEAF`. -/
def decodeShape (w : Word) : Except Reject Instr :=
  if w = 0 then .ok .node else if w = 1 then .ok .leaf else .error .notOneBit

/-- R107: `0` is `LEFT`, `1` is `RIGHT`. -/
def decodePath (w : Word) : Except Reject Instr :=
  if w = 0 then .ok .left else if w = 1 then .ok .right else .error .notOneBit

/-- R110, R112, R113: a QUAD tuple word, its class by `WIDTH*dy + dx` and `runlen`. -/
def decodeQuad (width : BitVec 16) (w : Word) : Except Reject Instr :=
  let dy : Byte := w.extractLsb' 24 8
  let dx : Byte := w.extractLsb' 16 8
  let runlen : Byte := w.extractLsb' 8 8
  let value : Byte := w.extractLsb' 0 8
  if quadOffsetZero width dy dx then
    if runlen = 0 then .ok (.litQuad dy dx value) else .ok (.fillQuad dy dx runlen value)
  else .ok (.copyQuad dy dx runlen value)

/-- R111, R113: a DELTA tuple word, its class by `delta` and `runlen`. -/
def decodeDelta (w : Word) : Except Reject Instr :=
  let delta : Byte := w.extractLsb' 16 8
  let runlen : Byte := w.extractLsb' 8 8
  let value : Byte := w.extractLsb' 0 8
  if w.extractLsb' 24 8 ≠ 0 then .error .tupleUnusedBits
  else if delta = 0 then
    if runlen = 0 then .ok (.litDelta value) else .ok (.fillDelta runlen value)
  else .ok (.copyDelta delta runlen value)

/-- R115, U11: a packed palette word; bit 15 is the opaque flag in both orders. -/
def decodePalword (order : PackedOrder) (w : Word) : Except Reject Instr :=
  let hi : BitVec 5 := w.extractLsb' 10 5
  let mid : BitVec 5 := w.extractLsb' 5 5
  let lo : BitVec 5 := w.extractLsb' 0 5
  if w.extractLsb' 16 16 ≠ 0 then .error .notSixteenBits
  else match order with
    | .rgbHigh => .ok (.palword (w.getLsbD 15) hi mid lo)
    | .bgrHigh => .ok (.palword (w.getLsbD 15) lo mid hi)

/-- R116: three colour symbols. They are three code words of one stream and have no word of their own; the
carrier red [23:16], green [15:8], blue [7:0] is the model's (log 9). -/
def decodeColour (w : Word) : Except Reject Instr :=
  let r : Byte := w.extractLsb' 16 8
  let g : Byte := w.extractLsb' 8 8
  let b : Byte := w.extractLsb' 0 8
  if w.extractLsb' 24 8 ≠ 0 then .error .tripleUnusedBits
  else if colourSymbolOk r && colourSymbolOk g && colourSymbolOk b then .ok (.colourTriple r g b)
  else .error .colourRange

/-- The decoder: a word read where its format is found (R100). -/
def decode (c : Ctx) : Format → Word → Except Reject Instr
  | .cmd, w => decodeCmd w
  | .shape, w => decodeShape w
  | .path, w => decodePath w
  | .tokenQuad, w => decodeQuad c.width w
  | .tokenDelta, w => decodeDelta w
  | .palword, w => decodePalword c.order w
  | .colour, w => decodeColour w

/-- A command word (R101): SEL in [11:8], OP in [7:0]. -/
def commandWord (op : Byte) (sel : BitVec 4) : Word := (0 : BitVec 20) ++ sel ++ op

/-- A tuple word (R110, R36): four bytes, `dy` highest. -/
def tupleWord (dy dx runlen value : Byte) : Word := dy ++ dx ++ runlen ++ value

/-- The encoder: the word of an instruction in its format. -/
def encode (c : Ctx) : Instr → Word
  | .nop => commandWord 0x00 0
  | .build sel => commandWord 0x01 sel
  | .decode sel => commandWord 0x02 sel
  | .rdbit sel => commandWord 0x03 sel
  | .rstart => commandWord 0x04 0
  | .rstep => commandWord 0x05 0
  | .rrun => commandWord 0x06 0
  | .paldec => commandWord 0x07 0
  | .sreset => commandWord 0x0F 0
  | .node => 0
  | .leaf => 1
  | .left => 0
  | .right => 1
  | .litDelta value => tupleWord 0 0 0 value
  | .fillDelta runlen value => tupleWord 0 0 runlen value
  | .copyDelta delta runlen value => tupleWord 0 delta runlen value
  | .litQuad dy dx value => tupleWord dy dx 0 value
  | .fillQuad dy dx runlen value => tupleWord dy dx runlen value
  | .copyQuad dy dx runlen value => tupleWord dy dx runlen value
  | .palword opaq r g b =>
    match c.order with
    | .rgbHigh => (0 : Half) ++ BitVec.ofBool opaq ++ r ++ g ++ b
    | .bgrHigh => (0 : Half) ++ BitVec.ofBool opaq ++ b ++ g ++ r
  | .colourTriple r g b => tupleWord 0 r g b

/-- The context of the default parameters with WIDTH at its reset value. -/
def Ctx.atReset : Ctx := { width := 0, order := .rgbHigh }

/-- A 32-bit word of the opcode table. The table's formats share one number space, so the format is chosen by a
fixed order (log 9): a command, else a QUAD token in the canonical literal form `dy = 0, dx = 128` of R113, else a
DELTA tuple, else a QUAD tuple. -/
def tableFormat32 (w : Word) : Format :=
  match decodeCmd w with
  | .ok _ => .cmd
  | .error _ =>
    if w.extractLsb' 16 16 = (0x0080 : BitVec 16) then .tokenQuad
    else if w.extractLsb' 24 8 = (0 : BitVec 8) then .tokenDelta
    else .tokenQuad

/-- The format the host's table gives a word of `nbits` bits: one byte holds a shape bit, two bytes a packed word,
three bytes the model's carrier of a colour triple, four bytes as `tableFormat32` says (log 9). -/
def tableFormat (nbits : Nat) (w : Word) : Option Format :=
  if nbits = 8 then some .shape
  else if nbits = 16 then some .palword
  else if nbits = 24 then some .colour
  else if nbits = 32 then some (tableFormat32 w)
  else none

/-- The instruction the decoder reads from a table word of `nbits` bits, in the default context. -/
def decodeTableWord (nbits w : Nat) : Option Instr :=
  match tableFormat nbits (BitVec.ofNat 32 w) with
  | none => none
  | some f => (decode .atReset f (BitVec.ofNat 32 w)).toOption

/-- A cursor register by its place in the group of four (R21). -/
def curReg (c : Role) : Nat → Option Reg
  | 0 => some (.curBase c)
  | 1 => some (.curLen c)
  | 2 => some (.curOff c)
  | 3 => some (.curEnd c)
  | _ => none

/-- A tree register by its place in the group of eight (R21); places 6 and 7 are unmapped. -/
def treeReg (t : Role) : Nat → Option Reg
  | 0 => some (.hdrShapeBase t)
  | 1 => some (.hdrShapeBits t)
  | 2 => some (.hdrPermBase t)
  | 3 => some (.hdrPermCount t)
  | 4 => some (.treeCfg t)
  | 5 => some (.treeNodes t)
  | _ => none

/-- The first 0x20 indices of the map (R21). -/
def plainReg : Nat → Option Reg
  | 0x00 => some .id
  | 0x01 => some .ctrl
  | 0x02 => some .status
  | 0x03 => some .fault
  | 0x04 => some .faddr
  | 0x05 => some .cmd
  | 0x06 => some .result
  | 0x07 => some .width
  | 0x08 => some .height
  | 0x09 => some .bufpos
  | 0x0A => some .npix
  | 0x0B => some .lasttok
  | 0x0C => some .lastoff
  | 0x0D => some .rbufAddr
  | 0x0E => some .rbufData
  | 0x0F => some .pixel
  | 0x10 => some .lutIdx
  | 0x11 => some .lutOut
  | 0x12 => some .lutRaw
  | 0x13 => some .palBase0
  | 0x14 => some .palBase1
  | 0x15 => some .palEnd0
  | 0x16 => some .palEnd1
  | _ => none

/-- R21: the register of an index; `none` is an unmapped index. -/
def Reg.ofIndex (i : BitVec 8) : Option Reg :=
  let n := i.toNat
  if n < 0x20 then plainReg n
  else if n < 0x40 then (roleOfIndex ((n - 0x20) / 4)).bind fun c => curReg c ((n - 0x20) % 4)
  else (roleOfIndex ((n - 0x40) / 8)).bind fun t => treeReg t ((n - 0x40) % 8)

/-- R21: the index of a register. -/
def Reg.index : Reg → BitVec 8
  | .id => 0x00
  | .ctrl => 0x01
  | .status => 0x02
  | .fault => 0x03
  | .faddr => 0x04
  | .cmd => 0x05
  | .result => 0x06
  | .width => 0x07
  | .height => 0x08
  | .bufpos => 0x09
  | .npix => 0x0A
  | .lasttok => 0x0B
  | .lastoff => 0x0C
  | .rbufAddr => 0x0D
  | .rbufData => 0x0E
  | .pixel => 0x0F
  | .lutIdx => 0x10
  | .lutOut => 0x11
  | .lutRaw => 0x12
  | .palBase0 => 0x13
  | .palBase1 => 0x14
  | .palEnd0 => 0x15
  | .palEnd1 => 0x16
  | .curBase c => BitVec.ofNat 8 (0x20 + 4 * c.index)
  | .curLen c => BitVec.ofNat 8 (0x20 + 4 * c.index + 1)
  | .curOff c => BitVec.ofNat 8 (0x20 + 4 * c.index + 2)
  | .curEnd c => BitVec.ofNat 8 (0x20 + 4 * c.index + 3)
  | .hdrShapeBase t => BitVec.ofNat 8 (0x40 + 8 * t.index)
  | .hdrShapeBits t => BitVec.ofNat 8 (0x40 + 8 * t.index + 1)
  | .hdrPermBase t => BitVec.ofNat 8 (0x40 + 8 * t.index + 2)
  | .hdrPermCount t => BitVec.ofNat 8 (0x40 + 8 * t.index + 3)
  | .treeCfg t => BitVec.ofNat 8 (0x40 + 8 * t.index + 4)
  | .treeNodes t => BitVec.ofNat 8 (0x40 + 8 * t.index + 5)

/-- R21: the access column of the map. -/
inductive AccessKind where
  | rw | ro | wo
  deriving DecidableEq, Repr

/-- R21: a register's access. -/
def Reg.access : Reg → AccessKind
  | .id => .ro
  | .ctrl => .rw
  | .status => .ro
  | .fault => .ro
  | .faddr => .ro
  | .cmd => .wo
  | .result => .ro
  | .width => .rw
  | .height => .rw
  | .bufpos => .ro
  | .npix => .ro
  | .lasttok => .ro
  | .lastoff => .ro
  | .rbufAddr => .rw
  | .rbufData => .ro
  | .pixel => .ro
  | .lutIdx => .rw
  | .lutOut => .ro
  | .lutRaw => .ro
  | .palBase0 => .rw
  | .palBase1 => .rw
  | .palEnd0 => .rw
  | .palEnd1 => .rw
  | .curBase _ => .rw
  | .curLen _ => .rw
  | .curOff _ => .rw
  | .curEnd _ => .rw
  | .hdrShapeBase _ => .rw
  | .hdrShapeBits _ => .rw
  | .hdrPermBase _ => .rw
  | .hdrPermCount _ => .rw
  | .treeCfg _ => .rw
  | .treeNodes _ => .ro

end Sys2Proof
end

