-- ==== Sys2Proof/Machine/State.lean ====
section
/-! DEFINITION. The state of the block (R20) as plain data, what the host has still to do to it, the reasons a step
can stop, and the state after reset (R48). -/

namespace Sys2Proof.Machine

/-- One value for each stream role (R14, R47). -/
structure PerRole (α : Type) where
  dy : α
  dx : α
  run : α
  val : α
  col : α
  deriving DecidableEq, Repr

/-- R30: a cursor's registers. `base` is a byte address, `len` counts bytes, `off` and `lim` (`CUR_END`) are bit offsets. -/
structure Cursor where
  base : Word
  len : Word
  off : Word
  lim : Word
  deriving DecidableEq, Repr

/-- R27: a header descriptor, with `TREE_CFG.DOMAIN`. -/
structure Header where
  shapeBase : Word
  shapeBits : Word
  permBase : Word
  permCount : Word
  domain : Domain
  deriving DecidableEq, Repr

/-- R26: a node of a tree memory. -/
inductive Node where
  | leaf (value : Byte)
  | inner (left right : Nat)
  deriving DecidableEq, Repr

/-- R26, R27: a tree memory (its nodes by index, rising, none listed twice), `TREE_NODES` and `TREE_VALID`. -/
structure TreeMem where
  nodes : List (Nat × Node)
  count : BitVec 10
  valid : Bool
  deriving DecidableEq, Repr

/-- R28 `RSTATE`; the code 3 never occurs. -/
inductive RState where
  | idle | run | done
  deriving DecidableEq, Repr

/-- R29: an entry of the palette table. -/
structure PalEntry where
  opaq : Bool
  r : BitVec 5
  g : BitVec 5
  b : BitVec 5
  deriving DecidableEq, Repr

/-- R25 `CTRL`. A write of a reserved value is refused whole (R22), so the fields hold legal values only. -/
structure Ctrl where
  layout : Layout
  palMode : PalMode
  palSel : Bool
  deriving DecidableEq, Repr

/-- R32 `FAULT`. -/
structure FaultReg where
  kind : BitVec 4
  sub : BitVec 4
  unit : BitVec 4
  deriving DecidableEq, Repr

/-- The causes of R291, by name; each has a kind and a sub-code (Machine/Flags.lean). -/
inductive Cause where
  | shapeExhausted | permExhausted | treeTooLarge | trailingHeader | singleLeaf | leafRange
  | streamExhausted | backrefBeforeStart | backrefNotBehind | runOverflow | valueRange | colorRange
  | allocationFailure
  | cursorPastBuffer | pmemAddress | palromAddress
  | badOpcode | badSelector | badState | badRegister | badValue | lockedRegister | readInvalid
  deriving DecidableEq, Repr

/-- R44: the working values of `build`: header bit offset, node counter, permutation pointer, the pending right
children (the nodes that owe one, innermost first), and whether the tree has closed. -/
structure BuildWork where
  hoff : Nat
  nodes : Nat
  used : Nat
  owed : List Nat
  closed : Bool
  deriving DecidableEq, Repr

/-- What the next step takes: a host access, or one data operation of a command (log 8). DESIGN CHOICE, safe. -/
inductive Phase where
  | idle | shape | path | token | palword | colour
  deriving DecidableEq, Repr

/-- R44: the working values of a command, held so that one data operation can be executed alone (log 8).
No command reads or changes them; R20 lets nothing else persist between commands. -/
structure Work where
  phase : Phase
  tree : Role
  build : BuildWork
  node : Nat
  sym : Option Byte
  dy : Byte
  dx : Byte
  runlen : Byte
  value : Byte
  entry : BitVec 4
  palNext : Nat
  red : Byte
  green : Byte
  blue : Byte
  deriving DecidableEq, Repr

/-- What the host does to the block (R5): register accesses (R272, R273), the reset input (R330), and writes to the
memories it owns (R82). -/
inductive Access where
  | read (i : BitVec 8)
  | write (i : BitVec 8) (v : Word)
  | rst
  | pokePmem (a : Nat) (v : Byte)
  | pokePalrom (a : Nat) (v : Half)
  deriving DecidableEq, Repr

/-- The state: the block's own (R20), the memories and parameters it reads (R49), the working values of R44, and
the host's side of the interface (log 1, log 2). -/
structure State where
  cfg : Config
  pmem : List Host.Cell
  palrom : List (Nat × Half)
  cur : PerRole Cursor
  hdr : PerRole Header
  tree : PerRole TreeMem
  rbuf : List Host.Cell
  width : BitVec 16
  height : BitVec 16
  bufpos : Word
  npix : Word
  rstate : RState
  lasttok : Word
  lastoff : Word
  pal : Vector PalEntry 16
  palValid : Bool
  palShiny : Bool
  palBase0 : Word
  palBase1 : Word
  palEnd0 : Word
  palEnd1 : Word
  ctrl : Ctrl
  fault : FaultReg
  faddr : Word
  result : Byte
  rbufAddr : Word
  lutIdx : BitVec 4
  work : Work
  pending : List Access
  returned : List Word
  deriving DecidableEq, Repr

/-- Why the model stops. None of these is a fault of the spec (those are recorded in `FAULT`, R293, and the machine
goes on); each stands where the spec gives no effect. -/
inductive Fault where
  /-- A traversal at a node that is not `Internal`. Raised by `LEFT`, `RIGHT` and by decode. R26 excludes it for a
  valid tree, so no run from reset meets it (log 13). Safe. -/
  | nodeNotInternal
  /-- A traversal, a build or a raster loop past its proved bound (R165, R167, R203). Raised by the loops of
  `DECODE`, `BUILD`, `RRUN`. No run from reset meets it (log 13). Safe. -/
  | loopPastBound
  /-- The host writes PMEM or PALROM while a session runs, which R82 and R336 forbid it. Raised by the host's poke
  (log 11). Safe. -/
  | pokeDuringSession
  /-- The host writes PMEM or PALROM at an address that does not exist (R79). Raised by the host's poke (log 11). Safe. -/
  | pokeOutsideMemory
  /-- A data operation's word is no instruction of its format. Raised by a step in a data phase whose working values
  hold a colour triple word that R242's check has not passed; no such word is fetched (log 8). Safe. -/
  | noSuchOperation
  deriving DecidableEq, Repr

/-- Why the model refuses. -/
inductive Refusal where
  /-- An instruction without a meaning, raised by exec's arm for it; no arm raises it. Safe. -/
  | notModelled (mnemonic : String)
  deriving DecidableEq, Repr

/-- The same value for every role. -/
def PerRole.all {α : Type} (x : α) : PerRole α :=
  { dy := x, dx := x, run := x, val := x, col := x }

/-- R48: a cursor after reset. -/
def Cursor.reset : Cursor := { base := 0, len := 0, off := 0, lim := 0 }

/-- R48: a header descriptor after reset; the domain is NIBBLE. -/
def Header.reset : Header :=
  { shapeBase := 0, shapeBits := 0, permBase := 0, permCount := 0, domain := .nibble }

/-- R48: a tree memory after reset: not valid, no node holds a value (log 6). DESIGN CHOICE, unsafe. -/
def TreeMem.reset : TreeMem := { nodes := [], count := 0, valid := false }

/-- A palette entry that is transparent and has no colour: entry 0 of every palette (R29), and every entry after
reset (log 7). DESIGN CHOICE, unsafe. -/
def PalEntry.clear : PalEntry := { opaq := false, r := 0, g := 0, b := 0 }

/-- The start of a build (R160): all counters 0. -/
def BuildWork.start : BuildWork := { hoff := 0, nodes := 0, used := 0, owed := [], closed := false }

/-- The working values outside every command (log 8). DESIGN CHOICE, unsafe. -/
def Work.idle : Work :=
  { phase := .idle, tree := .dy, build := .start, node := 0, sym := none, dy := 0, dx := 0, runlen := 0, value := 0,
    entry := 0, palNext := 0, red := 0, green := 0, blue := 0 }

/-- R48, R331: the machine after reset, with the default parameters (log 3), nothing listed in the memories (log 4,
log 5) and no host access pending (log 1). -/
def State.reset : State :=
  { cfg := .default
    pmem := []
    palrom := []
    cur := .all .reset
    hdr := .all .reset
    tree := .all .reset
    rbuf := []
    width := 0
    height := 0
    bufpos := 0
    npix := 0
    rstate := .idle
    lasttok := 0
    lastoff := 0
    pal := Vector.replicate 16 .clear
    palValid := false
    palShiny := false
    palBase0 := 0
    palBase1 := 0
    palEnd0 := 0
    palEnd1 := 0
    ctrl := { layout := .quad, palMode := .huff, palSel := false }
    fault := { kind := 0, sub := 0, unit := 15 }
    faddr := 0
    result := 0
    rbufAddr := 0
    lutIdx := 0
    work := .idle
    pending := []
    returned := [] }

end Sys2Proof.Machine
end

