-- ==== Sys2Proof/Machine/Flags.lean ====
section
/-! DEFINITION. Every flag of the block (R28): the STATUS word, the fault record and its codes (R290, R291, R32),
the packed CTRL word (R25) and the status outputs (R298). -/

namespace Sys2Proof.Machine

/-- R290, R291: the code in `FAULT.KIND`. -/
def Cause.kind : Cause → BitVec 4
  | .shapeExhausted => 1
  | .permExhausted => 1
  | .treeTooLarge => 1
  | .trailingHeader => 1
  | .singleLeaf => 1
  | .leafRange => 1
  | .streamExhausted => 1
  | .backrefBeforeStart => 1
  | .backrefNotBehind => 1
  | .runOverflow => 1
  | .valueRange => 1
  | .colorRange => 1
  | .allocationFailure => 2
  | .cursorPastBuffer => 4
  | .pmemAddress => 4
  | .palromAddress => 4
  | .badOpcode => 5
  | .badSelector => 5
  | .badState => 5
  | .badRegister => 5
  | .badValue => 5
  | .lockedRegister => 5
  | .readInvalid => 5

/-- R291: the code in `FAULT.SUB`. -/
def Cause.sub : Cause → BitVec 4
  | .shapeExhausted => 1
  | .permExhausted => 2
  | .treeTooLarge => 3
  | .trailingHeader => 4
  | .singleLeaf => 5
  | .leafRange => 6
  | .streamExhausted => 7
  | .backrefBeforeStart => 8
  | .backrefNotBehind => 9
  | .runOverflow => 10
  | .valueRange => 11
  | .colorRange => 12
  | .allocationFailure => 0
  | .cursorPastBuffer => 1
  | .pmemAddress => 2
  | .palromAddress => 3
  | .badOpcode => 1
  | .badSelector => 2
  | .badState => 3
  | .badRegister => 4
  | .badValue => 5
  | .lockedRegister => 6
  | .readInvalid => 7

/-- R32 `FAULT.UNIT` of a cursor or stream. -/
def streamUnit (c : Role) : BitVec 4 := BitVec.ofNat 4 c.index

/-- R32 `FAULT.UNIT` of the header of a tree: `8 + t`. -/
def headerUnit (t : Role) : BitVec 4 := BitVec.ofNat 4 (8 + t.index)

/-- R32 `FAULT.UNIT` where no unit is concerned. -/
def noUnit : BitVec 4 := 15

/-- R294: a fault is recorded. -/
def State.faulted (s : State) : Bool := s.fault.kind != 0

/-- R32: the `FAULT` word, `KIND` in [3:0], `SUB` in [7:4], `UNIT` in [11:8]. -/
def FaultReg.word (f : FaultReg) : Word := (0 : BitVec 20) ++ f.unit ++ f.sub ++ f.kind

/-- R28: the code of `RSTATE`. -/
def RState.code : RState → BitVec 2
  | .idle => 0
  | .run => 1
  | .done => 2

/-- R28: the `STATUS` word. -/
def State.statusWord (s : State) : Word :=
  (0 : BitVec 22) ++ BitVec.ofBool s.palShiny ++ BitVec.ofBool s.faulted ++ s.rstate.code ++
    BitVec.ofBool s.palValid ++ BitVec.ofBool s.tree.col.valid ++ BitVec.ofBool s.tree.val.valid ++
    BitVec.ofBool s.tree.run.valid ++ BitVec.ofBool s.tree.dx.valid ++ BitVec.ofBool s.tree.dy.valid

/-- R25: the code of `CTRL.LAYOUT`. -/
def layoutCode : Layout → BitVec 2
  | .quad => 0
  | .delta => 1

/-- R25: the layout a code names; 2 and 3 are reserved (R114). -/
def layoutOfCode (c : BitVec 2) : Option Layout :=
  match c.toNat with
  | 0 => some .quad
  | 1 => some .delta
  | _ => none

/-- R25: the code of `CTRL.PALMODE`. -/
def palModeCode : PalMode → BitVec 2
  | .huff => 0
  | .raw15 => 1
  | .raw16 => 2

/-- R25: the palette mode a code names; 3 is reserved. -/
def palModeOfCode (c : BitVec 2) : Option PalMode :=
  match c.toNat with
  | 0 => some .huff
  | 1 => some .raw15
  | 2 => some .raw16
  | _ => none

/-- R25: the `CTRL` word. -/
def Ctrl.word (c : Ctrl) : Word :=
  (0 : BitVec 27) ++ BitVec.ofBool c.palSel ++ palModeCode c.palMode ++ layoutCode c.layout

/-- R22, R25: the `CTRL` a written word sets; `none` where a reserved bit or a reserved value is written. -/
def ctrlOfWord (v : Word) : Option Ctrl :=
  if v.extractLsb' 5 27 ≠ 0 then none
  else match layoutOfCode (v.extractLsb' 0 2), palModeOfCode (v.extractLsb' 2 2) with
    | some l, some p => some { layout := l, palMode := p, palSel := v.getLsbD 4 }
    | _, _ => none

/-- R27: the bit of `TREE_CFG.DOMAIN`. -/
def domainWord : Domain → Word
  | .nibble => 0
  | .byte => 1

/-- R22, R27: the domain a written word sets; `none` where a reserved bit is written. -/
def domainOfWord (v : Word) : Option Domain :=
  if v = 0 then some .nibble else if v = 1 then some .byte else none

/-- R298: the output `fault_o`, a copy of `STATUS.FAULT`. -/
def State.faultOut (s : State) : Bool := s.faulted

/-- R298: the output `done_o`. -/
def State.doneOut (s : State) : Bool := s.rstate == .done

end Sys2Proof.Machine
end

