-- ==== Sys2Proof/Machine/Ops.lean ====
section
/-! DEFINITION. The named operations over memories and registers, the result of a command in progress, fault entry
(R293) and reset (R330), which is the only return from a fault (R296). -/

namespace Sys2Proof.Machine

/-! Cells: a sparse memory as a list of index and value, rising by index. -/

/-- The value listed at an index. -/
def cellsLookup {α : Type} : List (Nat × α) → Nat → Option α
  | [], _ => none
  | c :: m, a => if c.1 = a then some c.2 else cellsLookup m a

/-- Take an index out. -/
def cellsErase {α : Type} (m : List (Nat × α)) (a : Nat) : List (Nat × α) := m.filter fun c => c.1 != a

/-- Put an index in at its place. -/
def cellsInsert {α : Type} : List (Nat × α) → Nat → α → List (Nat × α)
  | [], a, v => [(a, v)]
  | c :: m, a, v => if a < c.1 then (a, v) :: c :: m else c :: cellsInsert m a v

/-- Set the value at an index. -/
def cellsPut {α : Type} (m : List (Nat × α)) (a : Nat) (v : α) : List (Nat × α) :=
  cellsInsert (cellsErase m a) a v

/-- What an address reads as that a memory does not list (log 4, log 5). DESIGN CHOICE, unsafe. -/
def unlisted {w : Nat} : BitVec w := 0

/-- A memory's value at an address. -/
def Memory.read {w : Nat} (m : List (Nat × BitVec w)) (a : Nat) : BitVec w := (cellsLookup m a).getD unlisted

/-- A memory with a value written at an address. -/
def Memory.write {w : Nat} (m : List (Nat × BitVec w)) (a : Nat) (v : BitVec w) : List (Nat × BitVec w) :=
  if v = unlisted then cellsErase m a else cellsPut m a v

/-- Indices strictly rising. -/
abbrev cellsSorted {α : Type} (m : List (Nat × α)) : Prop := m.Pairwise fun x y => x.1 < y.1

/-- The canonical form of a memory: addresses strictly rising, no entry equal to what an unlisted address reads as. -/
abbrev Memory.wf {w : Nat} (m : List (Nat × BitVec w)) : Prop := cellsSorted m ∧ ∀ c ∈ m, c.2 ≠ unlisted

/-! One value per role. -/

/-- The value of a role. -/
def PerRole.get {α : Type} (p : PerRole α) : Role → α
  | .dy => p.dy
  | .dx => p.dx
  | .run => p.run
  | .val => p.val
  | .col => p.col

/-- The value of one role set. -/
def PerRole.set {α : Type} (p : PerRole α) (t : Role) (x : α) : PerRole α :=
  match t with
  | .dy => { p with dy := x }
  | .dx => { p with dx := x }
  | .run => { p with run := x }
  | .val => { p with val := x }
  | .col => { p with col := x }

/-- Cursor `c` set. -/
def State.setCur (s : State) (c : Role) (x : Cursor) : State := { s with cur := s.cur.set c x }

/-- Header descriptor `t` set. -/
def State.setHdr (s : State) (t : Role) (x : Header) : State := { s with hdr := s.hdr.set t x }

/-- Tree memory `t` set, with its count and valid flag. -/
def State.setTree (s : State) (t : Role) (x : TreeMem) : State := { s with tree := s.tree.set t x }

/-- Palette entry `i` set (R29). -/
def State.setPal (s : State) (i : BitVec 4) (e : PalEntry) : State := { s with pal := s.pal.set i.toNat e (by omega) }

/-- Palette entry `i` (R29). -/
def State.palAt (s : State) (i : BitVec 4) : PalEntry := s.pal[i.toNat]'(by omega)

/-- R86: one raster byte written at `BUFPOS`, which advances by 1. -/
def State.putByte (s : State) (v : Byte) : State :=
  { s with rbuf := Memory.write s.rbuf s.bufpos.toNat v, bufpos := BitVec.ofNat 32 (s.bufpos.toNat + 1) }

/-! The result of a command in progress. -/

/-- A command in progress: it goes on with a value, or a fault of the spec has ended it (R13, R293), or the model
stops. -/
inductive Run (α : Type) where
  | ok (a : α) (s : State)
  | halt (s : State)
  | stop (f : Fault)
  deriving Repr

/-- What follows a step of a command. -/
def Run.bind {α β : Type} (r : Run α) (f : α → State → Run β) : Run β :=
  match r with
  | .ok a s => f a s
  | .halt s => .halt s
  | .stop e => .stop e

/-- The end of a command: both a normal end and a fault of the spec leave a next state (R293). -/
def Run.outcome {α : Type} (r : Run α) : Host.Outcome State Fault Refusal :=
  match r with
  | .ok _ s => .next s
  | .halt s => .next s
  | .stop f => .fault f

/-! Fault entry and reset. -/

/-- R293, fault entry: the first fault after reset is recorded, a later one changes nothing (R294). -/
def raise (c : Cause) (unit : BitVec 4) (addr : Nat) (s : State) : State :=
  if s.fault.kind = 0 then
    { s with fault := { kind := c.kind, sub := c.sub, unit := unit }, faddr := BitVec.ofNat 32 addr }
  else s

/-- R13: `raise` stops the command where it stands. -/
def Run.raise {α : Type} (c : Cause) (unit : BitVec 4) (addr : Nat) (s : State) : Run α :=
  .halt (Machine.raise c unit addr s)

/-- R330, R271: reset puts every piece of the block's state into its reset value (R48). The parameters, PMEM and
PALROM are not the block's (R332), the host's accesses and the values it has read are not either, and the working
values hold nothing between commands (R44). -/
def State.toReset (s : State) : State :=
  { State.reset with
    cfg := s.cfg, pmem := s.pmem, palrom := s.palrom,
    pending := s.pending, returned := s.returned }

/-! Commands. -/

/-- R103 steps 3 and 4, R275: with no fault recorded, a command that is not legal in the present state raises
`UsageError(BadState)` with the command word, and else it executes; with a fault recorded it is ignored (R295). -/
def issue (i : Instr) (legal : Bool) (body : State → Run Unit) (s : State) : Host.Outcome State Fault Refusal :=
  if s.faulted then .next s
  else if legal = false then .next (raise .badState noUnit (encode .atReset i).toNat s)
  else (body s).outcome

/-- R103 step 2 before those: a selector above 4 raises `UsageError(BadSelector)` with the command word. -/
def issueSel (i : Instr) (sel : BitVec 4) (legal : Role → Bool) (body : Role → State → Run Unit) (s : State) :
    Host.Outcome State Fault Refusal :=
  if s.faulted then .next s
  else match Role.ofSel sel with
    | none => .next (raise .badSelector noUnit (encode .atReset i).toNat s)
    | some t => issue i (legal t) (body t) s

/-- One data operation of a command (R170, R171, R195, R242, R245). The block does nothing with a fault recorded
(R295, log 16). -/
def dataOp (body : State → Run Unit) (s : State) : Host.Outcome State Fault Refusal :=
  if s.faulted then .next s else (body s).outcome

end Sys2Proof.Machine
end

