-- ==== Sys2Proof/Machine/Operands.lean ====
section
/-! DEFINITION. Every operand form of the block (R278): the stream bit, the shape bit, the permutation entry, the
packed palette word, the raster byte, and the one assembled operand, a token's offset (R112). -/

namespace Sys2Proof.Machine

/-- R75: bit offset `o` of a buffer at byte address `base` is bit `7 - (o & 7)` of the byte at `base + (o >> 3)`. -/
def pmemBit (pmem : List Host.Cell) (base o : Nat) : Bool :=
  (Memory.read pmem (base + o / 8)).getLsbD (7 - o % 8)

/-- R84 `MemRead`: the byte at `a`, or `OutOfBounds(PmemAddress)`. The address is an integer and is not wrapped. -/
def memRead (a : Nat) (unit : BitVec 4) (addr : Nat) (s : State) : Run Byte :=
  if s.cfg.pmemBytes ≤ a then Run.raise .pmemAddress unit addr s
  else .ok (Memory.read s.pmem a) s

/-- R85 `PalRead`: the word at word address `a`, or `OutOfBounds(PalromAddress)` with that address. -/
def palRead (a : Nat) (s : State) : Run Half :=
  if s.cfg.palromWords ≤ a then Run.raise .palromAddress noUnit a s
  else .ok (Memory.read s.palrom a) s

/-- R140: cursor `c` one bit further. -/
def State.advance (s : State) (c : Role) : State :=
  let k := s.cur.get c
  s.setCur c { k with off := BitVec.ofNat 32 (k.off.toNat + 1) }

/-- R140 `read_bit(c)`: the three checks of R141 in their order, then the bit and the advance by 1. -/
def readBit (c : Role) (s : State) : Run Bool :=
  let k := s.cur.get c
  let o := k.off.toNat
  if 8 * k.len.toNat ≤ o then Run.raise .cursorPastBuffer (streamUnit c) o s
  else if s.cfg.pmemBytes ≤ k.base.toNat + o / 8 then Run.raise .pmemAddress (streamUnit c) o s
  else if k.lim.toNat ≤ o then Run.raise .streamExhausted (streamUnit c) o s
  else .ok (pmemBit s.pmem k.base.toNat o) (s.advance c)

/-- R161 `hdr_bit(t)`: the next shape bit of header `t`; `hoff` advances by 1. -/
def hdrBit (t : Role) (b : BuildWork) (s : State) : Run (Bool × BuildWork) :=
  let h := s.hdr.get t
  if h.shapeBits.toNat ≤ b.hoff then Run.raise .shapeExhausted (headerUnit t) b.hoff s
  else (memRead (h.shapeBase.toNat + b.hoff / 8) (headerUnit t) b.hoff s).bind fun _ s =>
    .ok (pmemBit s.pmem h.shapeBase.toNat b.hoff, { b with hoff := b.hoff + 1 }) s

/-- R162 `perm_next(t)`: the next permutation entry of header `t`; in NIBBLE domain it must be below 16. -/
def permNext (t : Role) (b : BuildWork) (s : State) : Run (Byte × BuildWork) :=
  let h := s.hdr.get t
  if b.used = h.permCount.toNat then Run.raise .permExhausted (headerUnit t) b.hoff s
  else (memRead (h.permBase.toNat + b.used) (headerUnit t) b.hoff s).bind fun v s =>
    if h.domain = .nibble ∧ 16 ≤ v.toNat then Run.raise .leafRange (headerUnit t) b.hoff s
    else .ok (v, { b with used := b.used + 1 }) s

/-- R7 `NODE_MAX` of a domain (90_conflicts.md C1). -/
def nodeMax : Domain → Nat
  | .nibble => 31
  | .byte => 511

/-- R112, R194: the offset of a QUAD token, over the integers. -/
def offsetQuad (width : BitVec 16) (dy dx : Byte) : Int := width.toNat * dy.toNat + dx.toNat - 128

/-- R112, R194: the offset of a DELTA token is the unsigned symbol (90_conflicts.md C5). -/
def offsetDelta (delta : Byte) : Int := delta.toNat

/-- R194 `assemble`: the offset in the layout in force. -/
def State.assemble (s : State) (dy dx : Byte) : Int :=
  match s.ctrl.layout with
  | .quad => offsetQuad s.width dy dx
  | .delta => offsetDelta dx

/-- R198: the raster byte `offset` behind the write position. -/
def State.behind (s : State) (offset : Int) : Byte := Memory.read s.rbuf (s.bufpos.toNat - offset.toNat)

end Sys2Proof.Machine
end

