-- ==== Sys2Proof/Machine/Cursor.lean ====
section
/-! DEFINITION. The bitstream cursor's command RDBIT (40_bitstream_cursor.md). -/

namespace Sys2Proof.Machine

/-- R142: the bit goes to `RESULT[0]`; after a fault `RESULT` is as before. -/
def rdbitBody (c : Role) (s : State) : Run Unit :=
  (readBit c s).bind fun bit s => .ok () { s with result := (BitVec.ofBool bit).setWidth 8 }

/-- R142 `RDBIT c`, legal when `RSTATE != RUN` (R275). -/
def execRdbit (sel : BitVec 4) (s : State) : Host.Outcome State Fault Refusal :=
  issueSel (.rdbit sel) sel (fun _ => s.rstate != .run) rdbitBody s

end Sys2Proof.Machine
end

