-- ==== Sys2Proof/Machine/Huffman.lean ====
section
/-! DEFINITION. The Huffman engine (41_huffman.md): BUILD and its data operations NODE and LEAF, DECODE and its data
operations LEFT and RIGHT. -/

namespace Sys2Proof.Machine

/-! Build. -/

/-- R160: the tree is invalid from the start of a build; its nodes hold no value (log 6). DESIGN CHOICE, unsafe. -/
def clearTree (t : Role) (s : State) : State := s.setTree t { nodes := [], count := 0, valid := false }

/-- R26: node `i` of tree memory `t`. -/
def nodeAt (t : Role) (i : Nat) (s : State) : Option Node := cellsLookup (s.tree.get t).nodes i

/-- R160: `node[t][i] <- n`. -/
def putNode (t : Role) (i : Nat) (n : Node) (s : State) : State :=
  let m := s.tree.get t
  s.setTree t { m with nodes := cellsPut m.nodes i n }

/-- R160: the next node index, unless the tree already has `NODE_MAX` nodes. -/
def allocNode (t : Role) (b : BuildWork) (s : State) : Run (Nat × BuildWork) :=
  if b.nodes = nodeMax (s.hdr.get t).domain then Run.raise .treeTooLarge (headerUnit t) b.hoff s
  else .ok (b.nodes, { b with nodes := b.nodes + 1 }) s

/-- R160, the beginning of `build_node`: the index of the node, its shape bit, and the values after both. -/
def beginNode (t : Role) (b : BuildWork) (s : State) : Run (Nat × Bool × BuildWork) :=
  (allocNode t b s).bind fun x s => (hdrBit t x.2 s).bind fun y s => .ok (x.1, y.1, y.2) s

/-- R170 `NODE` once its bit is read: node `i` now owes a right child (R277); its left subtree comes next. -/
def openNode (i : Nat) (b : BuildWork) (s : State) : Run BuildWork := .ok { b with owed := i :: b.owed } s

/-- R170 `LEAF` once its bit is read: node `i` takes the next permutation entry. The nearest node that owes a right
child gets it at the next index (R277) and is linked (log 12); if none owes one, the tree has closed. -/
def closeLeaf (t : Role) (i : Nat) (b : BuildWork) (s : State) : Run BuildWork :=
  (permNext t b s).bind fun x s =>
    let s := putNode t i (.leaf x.1) s
    match x.2.owed with
    | [] => .ok { x.2 with closed := true } s
    | p :: rest => .ok { x.2 with owed := rest } (putNode t p (.inner (p + 1) x.2.nodes) s)

/-- R160: one iteration of `build_node`. -/
def buildStep (t : Role) (b : BuildWork) (s : State) : Run BuildWork :=
  (beginNode t b s).bind fun x s =>
    if x.2.1 then closeLeaf t x.1 x.2.2 s else openNode x.1 x.2.2 s

/-- R160: iterations until the tree closes. R167 bounds them by `NODE_MAX + 1`. -/
def buildLoop (t : Role) : Nat → BuildWork → State → Run BuildWork
  | 0, _, _ => .stop .loopPastBound
  | n + 1, b, s => (buildStep t b s).bind fun b s => if b.closed then .ok b s else buildLoop t n b s

/-- R160, the end of `build`: leftovers, a single leaf, else the tree is valid. -/
def finishBuild (t : Role) (b : BuildWork) (s : State) : Run Unit :=
  let h := s.hdr.get t
  if b.hoff ≠ h.shapeBits.toNat ∨ b.used ≠ h.permCount.toNat then Run.raise .trailingHeader (headerUnit t) b.hoff s
  else if b.nodes = 1 then Run.raise .singleLeaf (headerUnit t) b.hoff s
  else
    let m := s.tree.get t
    .ok () (s.setTree t { m with count := BitVec.ofNat 10 b.nodes, valid := true })

/-- R160 `build(t)`. -/
def buildTree (t : Role) (s : State) : Run Unit :=
  (buildLoop t (nodeMax (s.hdr.get t).domain + 1) .start (clearTree t s)).bind (finishBuild t)

/-- R164 `BUILD t`, legal when `RSTATE != RUN` (R275). -/
def execBuild (sel : BitVec 4) (s : State) : Host.Outcome State Fault Refusal :=
  issueSel (.build sel) sel (fun _ => s.rstate != .run) buildTree s

/-- The working values of a build kept for the next data operation (log 8). -/
def keepBuild (b : BuildWork) (s : State) : Run Unit := .ok () { s with work := { s.work with build := b } }

/-- R170 `NODE`: one iteration of `build_node` whose shape bit is 0. -/
def execNode (s : State) : Host.Outcome State Fault Refusal :=
  dataOp (fun s => (beginNode s.work.tree s.work.build s).bind fun x s =>
    (openNode x.1 x.2.2 s).bind keepBuild) s

/-- R170 `LEAF`: one iteration of `build_node` whose shape bit is 1. -/
def execLeaf (s : State) : Host.Outcome State Fault Refusal :=
  dataOp (fun s => (beginNode s.work.tree s.work.build s).bind fun x s =>
    (closeLeaf s.work.tree x.1 x.2.2 s).bind keepBuild) s

/-! Decode. -/

/-- R107: the child a path bit selects; nothing where the node is not `Internal`. -/
def childOf (n : Option Node) (p : Bool) : Option Nat :=
  match n with
  | some (.inner l r) => some (if p then r else l)
  | some (.leaf _) => none
  | none => none

/-- The value of a leaf. -/
def leafValue (n : Option Node) : Option Byte :=
  match n with
  | some (.leaf v) => some v
  | some (.inner _ _) => none
  | none => none

/-- R165, R171: from node `i` of tree `t` to the child that path bit `p` selects, and the symbol if it is a leaf. -/
def takeBranch (t : Role) (i : Nat) (p : Bool) (s : State) : Run (Nat × Option Byte) :=
  match childOf (nodeAt t i s) p with
  | none => .stop .nodeNotInternal
  | some j => .ok (j, leafValue (nodeAt t j s)) s

/-- R165: the loop of `decode(t)` from node `i`, within a bound on the bits of a code word. -/
def traverse (t : Role) : Nat → Nat → State → Run Byte
  | 0, _, _ => .stop .loopPastBound
  | n + 1, i, s => (readBit t s).bind fun p s => (takeBranch t i p s).bind fun x s =>
    match x.2 with
    | some v => .ok v s
    | none => traverse t n x.1 s

/-- R165 `decode(t)`: from the root; a valid tree has at most 511 nodes, so a code word fewer bits. -/
def decodeSymbol (t : Role) (s : State) : Run Byte := traverse t (nodeMax .byte) 0 s

/-- R166: the symbol goes to `RESULT`; after a fault `RESULT` is as before. -/
def decodeBody (t : Role) (s : State) : Run Unit :=
  (decodeSymbol t s).bind fun v s => .ok () { s with result := v }

/-- R166 `DECODE t`, legal when `RSTATE != RUN` and `TREE_VALID[t] = 1` (R275). -/
def execDecode (sel : BitVec 4) (s : State) : Host.Outcome State Fault Refusal :=
  issueSel (.decode sel) sel (fun t => s.rstate != .run && (s.tree.get t).valid) decodeBody s

/-- R171: one iteration of the loop of `decode` whose path bit is `p`: the cursor advances by 1 and the current node
becomes the child (log 8). -/
def pathOp (p : Bool) (s : State) : Run Unit :=
  (readBit s.work.tree s).bind fun _ s => (takeBranch s.work.tree s.work.node p s).bind fun x s =>
    .ok () { s with work := { s.work with node := x.1, sym := x.2 } }

/-- R171 `LEFT`: `i <- l`. -/
def execLeft (s : State) : Host.Outcome State Fault Refusal := dataOp (pathOp false) s

/-- R171 `RIGHT`: `i <- r`. -/
def execRight (s : State) : Host.Outcome State Fault Refusal := dataOp (pathOp true) s

end Sys2Proof.Machine
end

