-- ==== Sys2Proof/Machine/Palette.lean ====
section
/-! DEFINITION. The palette unit (43_palette.md): PALDEC and its data operations PALWORD and the colour triple;
demultiplexing, scaling and lookup. -/

namespace Sys2Proof.Machine

/-! Demultiplexer, scaling, lookup. -/

/-- R245 `demux(w)`, with the channels where PACKED_ORDER puts them (U11). -/
def demux (order : PackedOrder) (w : Half) : PalEntry :=
  match order with
  | .rgbHigh =>
    { opaq := w.getLsbD 15, r := w.extractLsb' 10 5, g := w.extractLsb' 5 5, b := w.extractLsb' 0 5 }
  | .bgrHigh =>
    { opaq := w.getLsbD 15, r := w.extractLsb' 0 5, g := w.extractLsb' 5 5, b := w.extractLsb' 10 5 }

/-- R246 `scale(v)`: `v*8*255/248`, left to right, one truncating division (90_conflicts.md C2). -/
def scale (v : BitVec 5) : Byte := BitVec.ofNat 8 (v.toNat * 8 * 255 / 248)

/-- R117, R247: an entry as `LUT_OUT` and `PIXEL` show it: `OPAQUE` in [24], then red, green, blue scaled. -/
def PalEntry.pixel (e : PalEntry) : Word :=
  (0 : BitVec 7) ++ BitVec.ofBool e.opaq ++ scale e.r ++ scale e.g ++ scale e.b

/-- R38, R248: an entry as `LUT_RAW` shows it, before scaling. -/
def PalEntry.raw (e : PalEntry) : Word :=
  (0 : BitVec 16) ++ BitVec.ofBool e.opaq ++ e.r ++ e.g ++ e.b

/-- R247 `lookup(i)`. -/
def State.lookup (s : State) (i : BitVec 4) : Word := (s.palAt i).pixel

/-! Decoding a palette. -/

/-- U12: the opacity of a Huffman-coded entry. -/
def huffOpacity : HuffOpaque → Bool
  | .allOpaque => true

/-- R29: one entry stored at index `i`; entry 0 is transparent and never coded, so a value for it is discarded. For
the word 0 of a 16-word palette R244 says so; for a colour triple it is the model's choice (log 19). DESIGN CHOICE,
unsafe. -/
def storeEntry (i : BitVec 4) (e : PalEntry) (s : State) : State := if i = 0 then s else s.setPal i e

/-- R242: one colour triple stored at index `i`, which R242 lets run over 1 to 15 only; index 0 is met only by a triple
executed alone, and `storeEntry` discards it (log 19). -/
def storeTriple (i : BitVec 4) (r g b : Byte) (s : State) : State :=
  storeEntry i { opaq := huffOpacity s.cfg.huffOpaque, r := r.setWidth 5, g := g.setWidth 5, b := b.setWidth 5 } s

/-- R242: a colour symbol must be at most 31; the offset recorded is the one after the symbol. -/
def checkColour (v : Byte) (s : State) : Run Byte :=
  if 31 < v.toNat then Run.raise .colorRange (streamUnit .col) (s.cur.get .col).off.toNat s else .ok v s

/-- R242 `color_symbol()`. -/
def colourSymbol (s : State) : Run Byte := (decodeSymbol .col s).bind checkColour

/-- R242: `n` entries from index `i` on. -/
def huffEntries : Nat → BitVec 4 → State → Run Unit
  | 0, _, s => .ok () s
  | n + 1, i, s =>
    (colourSymbol s).bind fun r s => (colourSymbol s).bind fun g s => (colourSymbol s).bind fun b s =>
      huffEntries n (i + 1) (storeTriple i r g b s)

/-- R243, R244: `n` entries from index `i` on, from the words at `a` on. -/
def rawEntries : Nat → BitVec 4 → Nat → State → Run Unit
  | 0, _, _, s => .ok () s
  | n + 1, i, a, s =>
    (palRead a s).bind fun w s => rawEntries n (i + 1) (a + 1) (storeEntry i (demux s.cfg.packedOrder w) s)

/-- R39, R250: the start of the selected palette. -/
def State.palBase (s : State) : Word := if s.ctrl.palSel then s.palBase1 else s.palBase0

/-- R39: the end of the selected palette, used in HUFF mode only. -/
def State.palEnd (s : State) : Word := if s.ctrl.palSel then s.palEnd1 else s.palEnd0

/-- R242: cursor 4 at the palette's start and end. -/
def loadColourCursor (s : State) : State :=
  s.setCur .col { s.cur.get .col with off := s.palBase, lim := s.palEnd }

/-- R241: the table invalid and entry 0 transparent, before the mode's own part. -/
def clearPalette (s : State) : State := { s.setPal 0 .clear with palValid := false }

/-- R242 to R244: the mode's own part. -/
def paldecMode (s : State) : Run Unit :=
  match s.ctrl.palMode with
  | .huff => huffEntries 15 1 (loadColourCursor s)
  | .raw15 => rawEntries 15 1 s.palBase.toNat s
  | .raw16 => rawEntries 16 0 s.palBase.toNat s

/-- R241. -/
def paldecBody (s : State) : Run Unit :=
  (paldecMode (clearPalette s)).bind fun _ s => .ok () { s with palValid := true, palShiny := s.ctrl.palSel }

/-- R275: HUFF mode needs tree 4. -/
def paletteTreeValid (s : State) : Bool :=
  match s.ctrl.palMode with
  | .huff => s.tree.col.valid
  | .raw15 => true
  | .raw16 => true

/-- R241 `PALDEC`. -/
def execPaldec (s : State) : Host.Outcome State Fault Refusal :=
  issue .paldec (s.rstate != .run && paletteTreeValid s) paldecBody s

/-- The entry counter of R44 one further. -/
def nextEntry (s : State) : State := { s with work := { s.work with entry := s.work.entry + 1 } }

/-- R243 to R245 `PALWORD`: the demultiplexed word goes to the entry the counter is at, and is discarded at entry 0, as
R244 says of word 0 (log 19 where the counter is 0 in another mode, or has wrapped). -/
def execPalword (opaq : Bool) (r g b : BitVec 5) (s : State) : Host.Outcome State Fault Refusal :=
  dataOp (fun s => .ok () (nextEntry (storeEntry s.work.entry { opaq := opaq, r := r, g := g, b := b } s))) s

/-- R242, the colour triple: three symbols, each at most 31, go to the entry the counter is at. R242 counts entries 1 to
15 only; executed alone with the counter at 0 (after reset, or wrapped past 15) the triple is checked and then
discarded, so that entry 0 stays as R29 says, and the counter advances (log 19). DESIGN CHOICE, unsafe. -/
def execColourTriple (r g b : Byte) (s : State) : Host.Outcome State Fault Refusal :=
  dataOp (fun s => (checkColour r s).bind fun r s => (checkColour g s).bind fun g s =>
    (checkColour b s).bind fun b s => .ok () (nextEntry (storeTriple s.work.entry r g b s))) s

end Sys2Proof.Machine
end

