-- ==== Sys2Proof/Machine/Raster.lean ====
section
/-! DEFINITION. The raster decompressor (42_raster.md): RSTART, RSTEP, RRUN and the tokens LIT, FILL, COPY of both
layouts. -/

namespace Sys2Proof.Machine

/-! The session. -/

/-- R275: the trees `RSTART` needs are valid; QUAD also needs tree 0. -/
def sessionTreesValid (s : State) : Bool :=
  s.tree.dx.valid && s.tree.run.valid && s.tree.val.valid &&
    (match s.ctrl.layout with | .quad => s.tree.dy.valid | .delta => true)

/-- R191: the session opened. The old raster is discarded: RBUF holds no value from `BUFPOS` on (R40, log 5). -/
def rstartBody (s : State) : Run Unit :=
  let n := s.width.toNat * s.height.toNat
  if s.cfg.rasterMax < n then Run.raise .allocationFailure noUnit n s
  else .ok () { s with
    rbuf := [], npix := BitVec.ofNat 32 n, bufpos := 0, lasttok := 0, lastoff := 0,
    rstate := if n = 0 then .done else .run }

/-- R191 `RSTART`. -/
def execRstart (s : State) : Host.Outcome State Fault Refusal :=
  issue .rstart (s.rstate != .run && sessionTreesValid s) rstartBody s

/-! The effects of a token. -/

/-- R196 `LIT`. -/
def applyLit (value : Byte) (s : State) : Run Unit := .ok () (s.putByte value)

/-- R197: `n` bytes of one value from index `a` on. -/
def fillCells (m : List Host.Cell) (a : Nat) (v : Byte) : Nat → List Host.Cell
  | 0 => m
  | n + 1 => fillCells (Memory.write m a v) (a + 1) v n

/-- R197 `FILL`. -/
def applyFill (runlen value : Byte) (s : State) : Run Unit :=
  if s.npix.toNat < s.bufpos.toNat + runlen.toNat then Run.raise .runOverflow (streamUnit .run) s.bufpos.toNat s
  else .ok () { s with
    rbuf := fillCells s.rbuf s.bufpos.toNat value runlen.toNat,
    bufpos := BitVec.ofNat 32 (s.bufpos.toNat + runlen.toNat) }

/-- R198, R83: `n` bytes copied one by one in increasing order, each written before the next is read. -/
def copyBytes (offset : Int) : Nat → State → State
  | 0, s => s
  | n + 1, s => copyBytes offset n (s.putByte (s.behind offset))

/-- R198, R199: the trailing value, dropped when the raster is full. -/
def putTrailing (value : Byte) (s : State) : State :=
  if s.bufpos.toNat < s.npix.toNat then s.putByte value else s

/-- R198 `COPY`. -/
def applyCopy (offset : Int) (runlen value : Byte) (s : State) : Run Unit :=
  if s.npix.toNat < s.bufpos.toNat + runlen.toNat then Run.raise .runOverflow (streamUnit .run) s.bufpos.toNat s
  else if 1 ≤ runlen.toNat ∧ offset < 0 then Run.raise .backrefNotBehind (streamUnit .dx) s.bufpos.toNat s
  else if 1 ≤ runlen.toNat ∧ (s.bufpos.toNat : Int) < offset then
    Run.raise .backrefBeforeStart (streamUnit .dx) s.bufpos.toNat s
  else .ok () (putTrailing value (copyBytes offset runlen.toNat s))

/-- R195: the token's symbols and offset latched in `LASTTOK` and `LASTOFF`, before any check. -/
def latchToken (dy dx runlen value : Byte) (offset : Int) (s : State) : State :=
  { s with lasttok := tupleWord dy dx runlen value, lastoff := BitVec.ofInt 32 offset }

/-- R195 from the latch on: the check of `value`, then the token's class (R113) and its effect. -/
def runToken (dy dx runlen value : Byte) (offset : Int) (s : State) : Run Unit :=
  let s := latchToken dy dx runlen value offset s
  if 16 ≤ value.toNat then Run.raise .valueRange (streamUnit .val) s.bufpos.toNat s
  else if offset = 0 ∧ runlen = 0 then applyLit value s
  else if offset = 0 then applyFill runlen value s
  else applyCopy offset runlen value s

/-! The tokens as instructions: R195 on the tuple they stand for (log 15). -/

/-- R196 `LIT`, DELTA layout: `delta = 0`, `runlen = 0`. -/
def execLitDelta (value : Byte) (s : State) : Host.Outcome State Fault Refusal :=
  dataOp (runToken 0 0 0 value (offsetDelta 0)) s

/-- R197 `FILL`, DELTA layout: `delta = 0`. -/
def execFillDelta (runlen value : Byte) (s : State) : Host.Outcome State Fault Refusal :=
  dataOp (runToken 0 0 runlen value (offsetDelta 0)) s

/-- R198 `COPY`, DELTA layout. -/
def execCopyDelta (delta runlen value : Byte) (s : State) : Host.Outcome State Fault Refusal :=
  dataOp (runToken 0 delta runlen value (offsetDelta delta)) s

/-- R196 `LIT`, QUAD layout: `runlen = 0`. -/
def execLitQuad (dy dx value : Byte) (s : State) : Host.Outcome State Fault Refusal :=
  dataOp (runToken dy dx 0 value (offsetQuad s.width dy dx)) s

/-- R197 `FILL`, QUAD layout. -/
def execFillQuad (dy dx runlen value : Byte) (s : State) : Host.Outcome State Fault Refusal :=
  dataOp (runToken dy dx runlen value (offsetQuad s.width dy dx)) s

/-- R198 `COPY`, QUAD layout. -/
def execCopyQuad (dy dx runlen value : Byte) (s : State) : Host.Outcome State Fault Refusal :=
  dataOp (runToken dy dx runlen value (offsetQuad s.width dy dx)) s

/-! Fetching and running tokens. -/

/-- R192, R193: the first symbol of a token; DELTA does not touch stream 0. -/
def fetchDy (s : State) : Run Byte :=
  match s.ctrl.layout with
  | .quad => decodeSymbol .dy s
  | .delta => .ok 0 s

/-- R195 `token()`: the symbols in their fixed order (R192, R193), then the token. -/
def token (s : State) : Run Unit :=
  (fetchDy s).bind fun dy s =>
  (decodeSymbol .dx s).bind fun dx s =>
  (decodeSymbol .run s).bind fun runlen s =>
  (decodeSymbol .val s).bind fun value s =>
    runToken dy dx runlen value (s.assemble dy dx) s

/-- R201: after a token, the session is DONE when the raster is full. -/
def rstepBody (s : State) : Run Unit :=
  (token s).bind fun _ s => .ok () (if s.bufpos = s.npix then { s with rstate := .done } else s)

/-- R201 `RSTEP`, legal when `RSTATE = RUN` (R275). -/
def execRstep (s : State) : Host.Outcome State Fault Refusal :=
  issue .rstep (s.rstate == .run) rstepBody s

/-- R202: tokens until `BUFPOS = NPIX`; R203 bounds them by the bytes still to write. -/
def rasterLoop : Nat → State → Run Unit
  | 0, s => if s.bufpos = s.npix then .ok () { s with rstate := .done } else .stop .loopPastBound
  | n + 1, s =>
    if s.bufpos = s.npix then .ok () { s with rstate := .done }
    else (token s).bind fun _ s => rasterLoop n s

/-- R202. -/
def rrunBody (s : State) : Run Unit := rasterLoop (s.npix.toNat - s.bufpos.toNat) s

/-- R202 `RRUN`, legal when `RSTATE = RUN` (R275). -/
def execRrun (s : State) : Host.Outcome State Fault Refusal :=
  issue .rrun (s.rstate == .run) rrunBody s

end Sys2Proof.Machine
end

