-- ==== Sys2Proof/Machine/System.lean ====
section
/-! DEFINITION. The commands tied to no unit: NOP and SRESET (44_system.md). -/

namespace Sys2Proof.Machine

/-- R270 `NOP`: it changes no state and raises nothing, with or without a fault recorded. -/
def execNop (s : State) : Host.Outcome State Fault Refusal := .next s

/-- R271 `SRESET`: legal in every state, with or without a fault recorded. -/
def execSreset (s : State) : Host.Outcome State Fault Refusal := .next s.toReset

end Sys2Proof.Machine
end

