-- ==== Sys2Proof/Machine/Dispatch.lean ====
section
/-! DEFINITION. The meaning of every instruction, one arm per constructor. -/

namespace Sys2Proof.Machine

def exec (i : Instr) (s : State) : Host.Outcome State Fault Refusal :=
  match i with
  | .nop => Sys2Proof.Machine.execNop s
  | .build sel => Sys2Proof.Machine.execBuild sel s
  | .decode sel => Sys2Proof.Machine.execDecode sel s
  | .rdbit sel => Sys2Proof.Machine.execRdbit sel s
  | .rstart => Sys2Proof.Machine.execRstart s
  | .rstep => Sys2Proof.Machine.execRstep s
  | .rrun => Sys2Proof.Machine.execRrun s
  | .paldec => Sys2Proof.Machine.execPaldec s
  | .sreset => Sys2Proof.Machine.execSreset s
  | .node => Sys2Proof.Machine.execNode s
  | .leaf => Sys2Proof.Machine.execLeaf s
  | .left => Sys2Proof.Machine.execLeft s
  | .right => Sys2Proof.Machine.execRight s
  | .litDelta value => Sys2Proof.Machine.execLitDelta value s
  | .fillDelta runlen value => Sys2Proof.Machine.execFillDelta runlen value s
  | .copyDelta delta runlen value => Sys2Proof.Machine.execCopyDelta delta runlen value s
  | .litQuad dy dx value => Sys2Proof.Machine.execLitQuad dy dx value s
  | .fillQuad dy dx runlen value => Sys2Proof.Machine.execFillQuad dy dx runlen value s
  | .copyQuad dy dx runlen value => Sys2Proof.Machine.execCopyQuad dy dx runlen value s
  | .palword opaq r g b => Sys2Proof.Machine.execPalword opaq r g b s
  | .colourTriple r g b => Sys2Proof.Machine.execColourTriple r g b s

end Sys2Proof.Machine
end

