-- ==== Sys2Proof/Machine/HostAccess.lean ====
section
/-! DEFINITION. The register interface (44_system.md): register reads and writes, commands written to CMD, the other
things the host does, and the fetch of one data operation. Step.lean calls these. -/

namespace Sys2Proof.Machine

/-- What decoding takes from the state: WIDTH (R113) and PACKED_ORDER (U11). -/
def State.ctx (s : State) : Ctx := { width := s.width, order := s.cfg.packedOrder }

/-! Register reads. -/

/-- R37: the raster can be read at `RBUF_ADDR`. -/
def State.rasterReadable (s : State) : Bool := s.rstate == .done && s.rbufAddr.toNat < s.npix.toNat

/-- The raster byte at `RBUF_ADDR` (R37). -/
def State.rasterByte (s : State) : Byte := Memory.read s.rbuf s.rbufAddr.toNat

/-- R37, R38: what a guarded read port records in `FADDR` when its condition fails; `none` where the read is good. -/
def readGuard (r : Reg) (s : State) : Option Nat :=
  match r with
  | .rbufData => if s.rasterReadable then none else some s.rbufAddr.toNat
  | .pixel => if s.palValid && s.rasterReadable then none else some s.rbufAddr.toNat
  | .lutOut => if s.palValid then none else some s.lutIdx.toNat
  | .lutRaw => if s.palValid then none else some s.lutIdx.toNat
  | _ => none

/-- R24 to R39: the value of a register. `CMD` reads 0 (R33). A raster byte is below 16 by R200, so `PIXEL` takes
its low four bits as the index (log 14). -/
def regValue (r : Reg) (s : State) : Word :=
  match r with
  | .id => idValue
  | .ctrl => s.ctrl.word
  | .status => s.statusWord
  | .fault => s.fault.word
  | .faddr => s.faddr
  | .cmd => 0
  | .result => s.result.setWidth 32
  | .width => s.width.setWidth 32
  | .height => s.height.setWidth 32
  | .bufpos => s.bufpos
  | .npix => s.npix
  | .lasttok => s.lasttok
  | .lastoff => s.lastoff
  | .rbufAddr => s.rbufAddr
  | .rbufData => s.rasterByte.setWidth 32
  | .pixel => s.lookup (s.rasterByte.setWidth 4)
  | .lutIdx => s.lutIdx.setWidth 32
  | .lutOut => s.lookup s.lutIdx
  | .lutRaw => (s.palAt s.lutIdx).raw
  | .palBase0 => s.palBase0
  | .palBase1 => s.palBase1
  | .palEnd0 => s.palEnd0
  | .palEnd1 => s.palEnd1
  | .curBase c => (s.cur.get c).base
  | .curLen c => (s.cur.get c).len
  | .curOff c => (s.cur.get c).off
  | .curEnd c => (s.cur.get c).lim
  | .hdrShapeBase t => (s.hdr.get t).shapeBase
  | .hdrShapeBits t => (s.hdr.get t).shapeBits
  | .hdrPermBase t => (s.hdr.get t).permBase
  | .hdrPermCount t => (s.hdr.get t).permCount
  | .treeCfg t => domainWord (s.hdr.get t).domain
  | .treeNodes t => (s.tree.get t).count.setWidth 32

/-- R272 `RegRead(i)`: the value returned and the state after. -/
def regRead (i : BitVec 8) (s : State) : Word × State :=
  match Reg.ofIndex i with
  | none => (0, raise .badRegister noUnit i.toNat s)
  | some r =>
    match readGuard r s with
    | some a => (0, raise .readInvalid noUnit a s)
    | none => (regValue r s, s)

/-! Register writes. -/

/-- R22: a 16-bit register takes a word whose bits [31:16] are 0. -/
def halfOfWord (v : Word) : Option (BitVec 16) :=
  if v.extractLsb' 16 16 = 0 then some (v.setWidth 16) else none

/-- R22, R38: `LUT_IDX` takes a word whose bits [31:4] are 0. -/
def nibbleOfWord (v : Word) : Option (BitVec 4) :=
  if v.extractLsb' 4 28 = 0 then some (v.setWidth 4) else none

/-- R273, last two lines: a legal value written to an RW register; `none` where the value is not legal (R22). -/
def setReg (r : Reg) (v : Word) (s : State) : Option State :=
  match r with
  | .ctrl => (ctrlOfWord v).map fun c => { s with ctrl := c }
  | .width => (halfOfWord v).map fun x => { s with width := x }
  | .height => (halfOfWord v).map fun x => { s with height := x }
  | .rbufAddr => some { s with rbufAddr := v }
  | .lutIdx => (nibbleOfWord v).map fun x => { s with lutIdx := x }
  | .palBase0 => some { s with palBase0 := v }
  | .palBase1 => some { s with palBase1 := v }
  | .palEnd0 => some { s with palEnd0 := v }
  | .palEnd1 => some { s with palEnd1 := v }
  | .curBase c => some (s.setCur c { s.cur.get c with base := v })
  | .curLen c => some (s.setCur c { s.cur.get c with len := v })
  | .curOff c => some (s.setCur c { s.cur.get c with off := v })
  | .curEnd c => some (s.setCur c { s.cur.get c with lim := v })
  | .hdrShapeBase t => some (s.setHdr t { s.hdr.get t with shapeBase := v })
  | .hdrShapeBits t => some (s.setHdr t { s.hdr.get t with shapeBits := v })
  | .hdrPermBase t => some (s.setHdr t { s.hdr.get t with permBase := v })
  | .hdrPermCount t => some (s.setHdr t { s.hdr.get t with permCount := v })
  | .treeCfg t => (domainOfWord v).map fun d => s.setHdr t { s.hdr.get t with domain := d }
  | .id => none
  | .status => none
  | .fault => none
  | .faddr => none
  | .cmd => none
  | .result => none
  | .bufpos => none
  | .npix => none
  | .lasttok => none
  | .lastoff => none
  | .rbufData => none
  | .pixel => none
  | .lutOut => none
  | .lutRaw => none
  | .treeNodes _ => none

/-- R23: the registers a session does not lock. -/
def unlockedInSession (r : Reg) : Bool := r == .rbufAddr || r == .lutIdx

/-- R103: a word written to `CMD` with no fault recorded. Steps 2 (selectors above 4) and 3 are the command's. -/
def commandWrite (v : Word) (s : State) : Host.Outcome State Fault Refusal :=
  match decode s.ctx .cmd v with
  | .ok i => exec i s
  | .error e =>
    match e with
    | .badSelector => .next (raise .badSelector noUnit v.toNat s)
    | _ => .next (raise .badOpcode noUnit v.toNat s)

/-- R273, R23: a write to a register the host may write, or may not. -/
def plainWrite (r : Reg) (i : BitVec 8) (v : Word) (s : State) : State :=
  if s.rstate = .run ∧ unlockedInSession r = false then raise .lockedRegister noUnit i.toNat s
  else match setReg r v s with
    | none => raise .badValue noUnit i.toNat s
    | some t => t

/-- R273 `RegWrite(i, v)`. -/
def regWrite (i : BitVec 8) (v : Word) (s : State) : Host.Outcome State Fault Refusal :=
  if s.faulted then
    if i = Reg.index .cmd ∧ v = encode s.ctx .sreset then exec .sreset s else .next s
  else match Reg.ofIndex i with
    | none => .next (raise .badRegister noUnit i.toNat s)
    | some r =>
      match r.access with
      | .ro => .next (raise .badRegister noUnit i.toNat s)
      | .wo => commandWrite v s
      | .rw => .next (plainWrite r i v s)

/-! The host's accesses. -/

/-- R82, R336: the host's write to one of its memories, outside a session and at an address that exists (log 11). -/
def poke (bound a : Nat) (t s : State) : Host.Outcome State Fault Refusal :=
  if s.rstate = .run then .fault .pokeDuringSession
  else if bound ≤ a then .fault .pokeOutsideMemory
  else .next t

/-- One thing the host does (R5): an atomic step (R274). -/
def access (a : Access) (s : State) : Host.Outcome State Fault Refusal :=
  match a with
  | .read i => .next { (regRead i s).2 with returned := (regRead i s).1 :: s.returned }
  | .write i v => regWrite i v s
  | .rst => .next s.toReset
  | .pokePmem a v => poke s.cfg.pmemBytes a { s with pmem := Memory.write s.pmem a v } s
  | .pokePalrom a v => poke s.cfg.palromWords a { s with palrom := Memory.write s.palrom a v } s

/-- The oldest pending access; with none the block waits (R333). -/
def hostStep (s : State) : Host.Outcome State Fault Refusal :=
  match s.pending with
  | [] => .next s
  | a :: rest => access a { s with pending := rest }

/-! One data operation of a command (log 8). -/

/-- The format the next data operation is found in (R100). -/
def phaseFormat (p : Phase) (s : State) : Format :=
  match p with
  | .idle => .cmd
  | .shape => .shape
  | .path => .path
  | .token => match s.ctrl.layout with | .quad => .tokenQuad | .delta => .tokenDelta
  | .palword => .palword
  | .colour => .colour

/-- One bit as a word. -/
def bitWord (b : Bool) : Word := if b then 1 else 0

/-- The word of the next data operation: the shape bit at `hoff` (R161), the path bit at the cursor (R140), the tuple
of the symbols fetched (R192, R193), the PALROM word (R243), or the colour symbols once checked (R242). A bit's own
checks are made when the operation executes. -/
def fetchData (p : Phase) (s : State) : Run Word :=
  match p with
  | .idle => .ok 0 s
  | .shape => .ok (bitWord (pmemBit s.pmem (s.hdr.get s.work.tree).shapeBase.toNat s.work.build.hoff)) s
  | .path => .ok (bitWord (pmemBit s.pmem (s.cur.get s.work.tree).base.toNat (s.cur.get s.work.tree).off.toNat)) s
  | .token =>
    match s.ctrl.layout with
    | .quad => .ok (tupleWord s.work.dy s.work.dx s.work.runlen s.work.value) s
    | .delta => .ok (tupleWord 0 s.work.dx s.work.runlen s.work.value) s
  | .palword => (palRead s.work.palNext s).bind fun w s =>
    .ok (w.setWidth 32) { s with work := { s.work with palNext := s.work.palNext + 1 } }
  | .colour => (checkColour s.work.red s).bind fun r s => (checkColour s.work.green s).bind fun g s =>
    (checkColour s.work.blue s).bind fun b s => .ok (tupleWord 0 r g b) s

/-- The fetched word decoded and executed. -/
def runFetched (f : Format) (r : Run Word) : Host.Outcome State Fault Refusal :=
  match r with
  | .halt s => .next s
  | .stop e => .fault e
  | .ok w s =>
    match decode s.ctx f w with
    | .ok i => exec i s
    | .error _ => .fault .noSuchOperation

/-- The state once a data operation is taken. -/
def State.leavePhase (s : State) : State := { s with work := { s.work with phase := .idle } }

/-- One data operation; the block does nothing with a fault recorded (R295, log 16). -/
def dataStep (s : State) : Host.Outcome State Fault Refusal :=
  if s.faulted then .next s.leavePhase
  else runFetched (phaseFormat s.work.phase s) (fetchData s.work.phase s.leavePhase)

/-- A step: a host access, or one data operation where the working values say a command stands before one. -/
def runStep (s : State) : Host.Outcome State Fault Refusal :=
  if s.work.phase = .idle then hostStep s else dataStep s

end Sys2Proof.Machine
end

