-- ==== Sys2Proof/Machine/Step.lean ====
section
/-! DEFINITION. The step, and the placing of one instruction where the step fetches its next one. -/

namespace Sys2Proof.Machine

/-- One step (R6): the host's oldest pending access, a whole command included. -/
def step (s : State) : Host.Outcome State Fault Refusal := runStep s

/-- A byte with bit `7 - o % 8` set to a value: the place of bit offset `o` (R75). -/
def withBit (x : Byte) (o : Nat) (bit : Bool) : Byte :=
  if bit then x ||| BitVec.ofNat 8 (2 ^ (7 - o % 8)) else x &&& ~~~(BitVec.ofNat 8 (2 ^ (7 - o % 8)))

/-- A memory with the bit at offset `o` of a buffer set to a value (R75). -/
def withPmemBit (m : List Host.Cell) (base o : Nat) (bit : Bool) : List Host.Cell :=
  Memory.write m (base + o / 8) (withBit (Memory.read m (base + o / 8)) o bit)

/-- An instruction word of a format placed where the next step takes it (log 10): a command in the host's next
access, a shape bit in PMEM at the header's next bit, a path bit in PMEM at the cursor, a token or colour triple in
the symbols fetched, a packed word in PALROM at the next word address. -/
def placeWord (s : State) (f : Format) (w : Word) : State :=
  match f with
  | .cmd => { s.leavePhase with pending := .write (Reg.index .cmd) w :: s.pending }
  | .shape =>
    let h := s.hdr.get s.work.tree
    let o := s.work.build.hoff
    { s.setHdr s.work.tree { h with shapeBits := BitVec.ofNat 32 (max h.shapeBits.toNat (o + 1)) } with
      pmem := withPmemBit s.pmem h.shapeBase.toNat o (w.getLsbD 0)
      work := { s.work with phase := .shape } }
  | .path =>
    let k := s.cur.get s.work.tree
    { s with
      pmem := withPmemBit s.pmem k.base.toNat k.off.toNat (w.getLsbD 0)
      work := { s.work with phase := .path } }
  | .tokenQuad =>
    { s with
      ctrl := { s.ctrl with layout := .quad }
      work := { s.work with
        phase := .token, dy := w.extractLsb' 24 8, dx := w.extractLsb' 16 8,
        runlen := w.extractLsb' 8 8, value := w.extractLsb' 0 8 } }
  | .tokenDelta =>
    { s with
      ctrl := { s.ctrl with layout := .delta }
      work := { s.work with
        phase := .token, dy := w.extractLsb' 24 8, dx := w.extractLsb' 16 8,
        runlen := w.extractLsb' 8 8, value := w.extractLsb' 0 8 } }
  | .palword =>
    { s with
      palrom := Memory.write s.palrom s.work.palNext (w.setWidth 16)
      work := { s.work with phase := .palword } }
  | .colour =>
    { s with
      work := { s.work with
        phase := .colour, red := w.extractLsb' 16 8, green := w.extractLsb' 8 8, blue := w.extractLsb' 0 8 } }

/-- `s` with a table word of `nbits` bits placed where the next step fetches, in the format that
`decodeTableWord` reads it in (log 9, log 10). -/
def State.withFetchWord (s : State) (nbits w : Nat) : State :=
  match tableFormat nbits (BitVec.ofNat 32 w) with
  | none => s
  | some f => placeWord s f (BitVec.ofNat 32 w)

end Sys2Proof.Machine
end

