-- ==== Sys2Proof/Safety.lean ====
section
/-! DEFINITION. The terms the statements are made in: code trees and how headers, tree memories and streams hold
them (R106 to R108, R26), the tuple a token instruction stands for (R110 to R112), which command is legal when
(R275), which value is legal for a register (R22, R273), and the invariant of a safe run. -/

namespace Sys2Proof.Machine

/-! Faults. -/

/-- A state with a fault recorded (R32): kind, sub-code, unit, and the number in `FADDR`. -/
def State.faultedWith (s : State) (kind sub unit : BitVec 4) (addr : Word) : State :=
  { s with fault := { kind := kind, sub := sub, unit := unit }, faddr := addr }

/-- R141: kind and sub-code of the first check that fails for bit offset `o` of cursor `c`; `none` where the bit can
be read. -/
def bitFault (s : State) (c : Role) (o : Nat) : Option (BitVec 4 × BitVec 4) :=
  if 8 * (s.cur.get c).len.toNat ≤ o then some (4, 1)
  else if s.cfg.pmemBytes ≤ (s.cur.get c).base.toNat + o / 8 then some (4, 2)
  else if (s.cur.get c).lim.toNat ≤ o then some (1, 7)
  else none

/-! Code trees. -/

/-- A binary tree in which every internal node has two children (R106), its leaves holding symbols. -/
inductive CodeTree where
  | leaf (v : Byte)
  | node (l r : CodeTree)
  deriving DecidableEq, Repr

/-- The number of nodes. -/
def CodeTree.size : CodeTree → Nat
  | .leaf _ => 1
  | .node l r => l.size + r.size + 1

/-- R105: the shape bits in preorder, `NODE` 0 and `LEAF` 1. -/
def CodeTree.shape : CodeTree → List Bool
  | .leaf _ => [true]
  | .node l r => false :: (l.shape ++ r.shape)

/-- R106: the leaf values in emission order. -/
def CodeTree.leaves : CodeTree → List Byte
  | .leaf v => [v]
  | .node l r => l.leaves ++ r.leaves

/-- R108: the leaf at the end of a path, `LEFT` 0 and `RIGHT` 1; a path is a code word if it ends at a leaf. -/
def CodeTree.follow : CodeTree → List Bool → Option Byte
  | .leaf v, [] => some v
  | .leaf _, _ :: _ => none
  | .node _ _, [] => none
  | .node l _, false :: p => l.follow p
  | .node _ r, true :: p => r.follow p

/-- R26, R160: a tree laid out in preorder from index `i` of a tree memory's nodes. -/
def CodeTree.laidAt : CodeTree → Nat → List (Nat × Node) → Prop
  | .leaf v, i, m => cellsLookup m i = some (.leaf v)
  | .node l r, i, m =>
    cellsLookup m i = some (.inner (i + 1) (i + 1 + l.size)) ∧
    l.laidAt (i + 1) m ∧ r.laidAt (i + 1 + l.size) m

/-- Tree memory `t` is valid and holds a code tree whose root is internal (R26). -/
def TreeHolds (s : State) (t : Role) (tr : CodeTree) : Prop :=
  (s.tree.get t).valid = true ∧ 1 < tr.size ∧ tr.size ≤ 511 ∧ tr.laidAt 0 (s.tree.get t).nodes

/-- The header of tree `t` describes a code tree (R163): its shape bits and its permutation are the tree's, both used
up exactly, every byte of both below `PMEM_BYTES`, at most `NODE_MAX` nodes, in NIBBLE domain every value below 16. -/
def HeaderHolds (s : State) (t : Role) (tr : CodeTree) : Prop :=
  (s.hdr.get t).shapeBits.toNat = tr.size ∧
  (s.hdr.get t).permCount.toNat = tr.leaves.length ∧
  (∀ k < tr.size, (s.hdr.get t).shapeBase.toNat + k / 8 < s.cfg.pmemBytes ∧
    tr.shape[k]? = some (pmemBit s.pmem (s.hdr.get t).shapeBase.toNat k)) ∧
  (∀ k < tr.leaves.length, (s.hdr.get t).permBase.toNat + k < s.cfg.pmemBytes ∧
    tr.leaves[k]? = some (Memory.read s.pmem ((s.hdr.get t).permBase.toNat + k))) ∧
  tr.size ≤ nodeMax (s.hdr.get t).domain ∧
  ((s.hdr.get t).domain = .nibble → ∀ v ∈ tr.leaves, v.toNat < 16)

/-- The header of tree `t` begins with a code tree: as `HeaderHolds`, but bits and entries may be left over. -/
def HeaderBegins (s : State) (t : Role) (tr : CodeTree) : Prop :=
  tr.size ≤ (s.hdr.get t).shapeBits.toNat ∧
  tr.leaves.length ≤ (s.hdr.get t).permCount.toNat ∧
  (∀ k < tr.size, (s.hdr.get t).shapeBase.toNat + k / 8 < s.cfg.pmemBytes ∧
    tr.shape[k]? = some (pmemBit s.pmem (s.hdr.get t).shapeBase.toNat k)) ∧
  (∀ k < tr.leaves.length, (s.hdr.get t).permBase.toNat + k < s.cfg.pmemBytes ∧
    tr.leaves[k]? = some (Memory.read s.pmem ((s.hdr.get t).permBase.toNat + k))) ∧
  tr.size ≤ nodeMax (s.hdr.get t).domain ∧
  ((s.hdr.get t).domain = .nibble → ∀ v ∈ tr.leaves, v.toNat < 16)

/-- The next bits at cursor `c` are `bits`, and each of them passes the three checks of R141. -/
def StreamHolds (s : State) (c : Role) (bits : List Bool) : Prop :=
  ∀ k < bits.length,
    (s.cur.get c).off.toNat + k < 8 * (s.cur.get c).len.toNat ∧
    (s.cur.get c).base.toNat + ((s.cur.get c).off.toNat + k) / 8 < s.cfg.pmemBytes ∧
    (s.cur.get c).off.toNat + k < (s.cur.get c).lim.toNat ∧
    bits[k]? = some (pmemBit s.pmem (s.cur.get c).base.toNat ((s.cur.get c).off.toNat + k))

/-- Cursor `c` moved on by `n` bits. -/
def State.skipBits (s : State) (c : Role) (n : Nat) : State :=
  s.setCur c { s.cur.get c with off := BitVec.ofNat 32 ((s.cur.get c).off.toNat + n) }

/-- The next code word of stream `t` stands for `v` and has `n` bits. -/
def NextSymbol (s : State) (t : Role) (v : Byte) (n : Nat) : Prop :=
  ∃ tr p, TreeHolds s t tr ∧ tr.follow p = some v ∧ p.length = n ∧ StreamHolds s t p

/-- A list of code words of a tree, each with the symbol it stands for. -/
def CodesOf (tr : CodeTree) (codes : List (List Bool × Byte)) : Prop :=
  ∀ x ∈ codes, tr.follow x.1 = some x.2

/-- The bits of a list of code words. -/
def codeBits (codes : List (List Bool × Byte)) : List Bool := (codes.map Prod.fst).flatten

/-- Repeated `DECODE t` commands from `s` to `u`, their results in order (R169). -/
def DecodesTo (t : Role) : State → List Byte → State → Prop
  | s, [], u => u = s
  | s, v :: vs, u => ∃ m, exec (.decode t.sel) s = .next m ∧ m.result = v ∧ DecodesTo t m vs u

/-! Tokens. -/

/-- The symbols of a token and its assembled offset (R110 to R112). -/
structure TokenView where
  dy : Byte
  dx : Byte
  runlen : Byte
  value : Byte
  offset : Int
  deriving DecidableEq, Repr

/-- The tuple a token instruction stands for, and its offset at a WIDTH. -/
def tokenView (width : BitVec 16) : Instr → Option TokenView
  | .nop => none
  | .build _ => none
  | .decode _ => none
  | .rdbit _ => none
  | .rstart => none
  | .rstep => none
  | .rrun => none
  | .paldec => none
  | .sreset => none
  | .node => none
  | .leaf => none
  | .left => none
  | .right => none
  | .litDelta v => some ⟨0, 0, 0, v, 0⟩
  | .fillDelta n v => some ⟨0, 0, n, v, 0⟩
  | .copyDelta d n v => some ⟨0, d, n, v, d.toNat⟩
  | .litQuad dy dx v => some ⟨dy, dx, 0, v, width.toNat * dy.toNat + dx.toNat - 128⟩
  | .fillQuad dy dx n v => some ⟨dy, dx, n, v, width.toNat * dy.toNat + dx.toNat - 128⟩
  | .copyQuad dy dx n v => some ⟨dy, dx, n, v, width.toNat * dy.toNat + dx.toNat - 128⟩
  | .palword _ _ _ _ => none
  | .colourTriple _ _ _ => none

/-- R195: the state once a token's symbols and offset are latched. -/
def State.latched (s : State) (k : TokenView) : State :=
  { s with lasttok := tupleWord k.dy k.dx k.runlen k.value, lastoff := BitVec.ofInt 32 k.offset }

/-- The next symbols of the streams a layout uses (R192, R193), and the state after them. -/
def TokenAt (s : State) (dy dx runlen value : Byte) (u : State) : Prop :=
  match s.ctrl.layout with
  | .quad => ∃ a b c d, NextSymbol s .dy dy a ∧ NextSymbol s .dx dx b ∧ NextSymbol s .run runlen c ∧
      NextSymbol s .val value d ∧
      u = (((s.skipBits .dy a).skipBits .dx b).skipBits .run c).skipBits .val d
  | .delta => dy = 0 ∧ ∃ b c d, NextSymbol s .dx dx b ∧ NextSymbol s .run runlen c ∧
      NextSymbol s .val value d ∧ u = ((s.skipBits .dx b).skipBits .run c).skipBits .val d

/-- The format of a token in the layout in force. -/
def State.tokenFormat (s : State) : Format :=
  match s.ctrl.layout with
  | .quad => .tokenQuad
  | .delta => .tokenDelta

/-- `k` commands `RSTEP` one after another, the session still running before each of them (R202). -/
def RstepTimes : Nat → State → State → Prop
  | 0, s, u => u = s
  | k + 1, s, u => s.rstate = .run ∧ s.fault.kind = 0 ∧ ∃ m, exec .rstep s = .next m ∧ RstepTimes k m u

/-- `k` shape bits of tree `t` taken one by one as `NODE` or `LEAF`, none after the tree has closed or a fault (R170). -/
def ShapeTimes (t : Role) : Nat → State → State → Prop
  | 0, s, u => u = s
  | k + 1, s, u => s.fault.kind = 0 ∧ s.work.build.closed = false ∧
    ∃ m, exec (if pmemBit s.pmem (s.hdr.get t).shapeBase.toNat s.work.build.hoff then .leaf else .node) s = .next m ∧
      ShapeTimes t k m u

/-- `k` path bits of stream `t` taken one by one as `LEFT` or `RIGHT`, none after a symbol or a fault (R171). -/
def PathTimes (t : Role) : Nat → State → State → Prop
  | 0, s, u => u = s
  | k + 1, s, u => s.fault.kind = 0 ∧ s.work.sym = none ∧
    ∃ m, exec (if pmemBit s.pmem (s.cur.get t).base.toNat (s.cur.get t).off.toNat then .right else .left) s = .next m ∧
      PathTimes t k m u

/-! Legality. -/

/-- R275: the condition of each command; the data operations are no commands. -/
def CommandLegal (s : State) : Instr → Prop
  | .nop => True
  | .sreset => True
  | .build _ => s.rstate ≠ .run
  | .decode sel => s.rstate ≠ .run ∧ ∃ t, Role.ofSel sel = some t ∧ (s.tree.get t).valid = true
  | .rdbit _ => s.rstate ≠ .run
  | .rstart => s.rstate ≠ .run ∧ s.tree.dx.valid = true ∧ s.tree.run.valid = true ∧ s.tree.val.valid = true ∧
      (s.ctrl.layout = .quad → s.tree.dy.valid = true)
  | .rstep => s.rstate = .run
  | .rrun => s.rstate = .run
  | .paldec => s.rstate ≠ .run ∧ (s.ctrl.palMode = .huff → s.tree.col.valid = true)
  | .node => False
  | .leaf => False
  | .left => False
  | .right => False
  | .litDelta _ => False
  | .fillDelta _ _ => False
  | .copyDelta _ _ _ => False
  | .litQuad _ _ _ => False
  | .fillQuad _ _ _ _ => False
  | .copyQuad _ _ _ _ => False
  | .palword _ _ _ _ => False
  | .colourTriple _ _ _ => False

/-- R22, R273: the values legal for a register the host may write. -/
def LegalValue (v : Word) : Reg → Prop
  | .ctrl => v.toNat < 2 ^ 5 ∧ v.toNat % 4 < 2 ∧ v.toNat / 4 % 4 < 3
  | .width => v.toNat < 2 ^ 16
  | .height => v.toNat < 2 ^ 16
  | .treeCfg _ => v.toNat < 2
  | .lutIdx => v.toNat < 16
  | _ => True

end Sys2Proof.Machine

/-- The registers whose reads are guarded (R37, R38). -/
def Sys2Proof.Reg.isPort : Sys2Proof.Reg → Bool
  | .rbufData => true
  | .pixel => true
  | .lutOut => true
  | .lutRaw => true
  | _ => false

namespace Sys2Proof.Machine

/-! The invariant. -/

/-- R27, R26: an invalid tree counts no nodes; a valid one holds a code tree with at least two leaves, of as many
nodes as `TREE_NODES` says, at most 511. -/
structure TreeOk (m : TreeMem) : Prop where
  sorted : cellsSorted m.nodes
  invalid : m.valid = false → m.count = 0
  valid : m.valid = true → ∃ l r, (CodeTree.node l r).size ≤ 511 ∧
    m.count.toNat = (CodeTree.node l r).size ∧ (CodeTree.node l r).laidAt 0 m.nodes

/-- R32: nothing recorded, or a cause of R291. -/
structure FaultOk (s : State) : Prop where
  none : s.fault.kind = 0 → s.fault = { kind := 0, sub := 0, unit := 15 } ∧ s.faddr = 0
  some : s.fault.kind ≠ 0 → ∃ c : Cause, s.fault.kind = c.kind ∧ s.fault.sub = c.sub

/-- What holds of the machine between host accesses: parameters within R9; memories in canonical form and within
their bounds; raster bytes only below `BUFPOS` and below 16 (R40, R200); `BUFPOS <= NPIX <= RASTER_MAX` and what
`RSTATE` says of them (R35); the session's trees while it runs (R190, R275); trees (R26); entry 0 of a valid palette (R29); the fault record (R32); no data operation
in progress (R44). -/
structure Inv (s : State) : Prop where
  cfg : s.cfg.wf
  pmem : Memory.wf s.pmem
  pmemBound : ∀ c ∈ s.pmem, c.1 < s.cfg.pmemBytes
  palrom : Memory.wf s.palrom
  palromBound : ∀ c ∈ s.palrom, c.1 < s.cfg.palromWords
  rbuf : Memory.wf s.rbuf
  rbufBound : ∀ c ∈ s.rbuf, c.1 < s.bufpos.toNat
  rbufValue : ∀ c ∈ s.rbuf, c.2.toNat < 16
  pos : s.bufpos.toNat ≤ s.npix.toNat
  capacity : s.npix.toNat ≤ s.cfg.rasterMax
  running : s.rstate = .run → s.bufpos.toNat < s.npix.toNat
  done : s.rstate = .done → s.bufpos = s.npix
  session : s.rstate = .run → s.tree.dx.valid = true ∧ s.tree.run.valid = true ∧ s.tree.val.valid = true ∧
    (s.ctrl.layout = .quad → s.tree.dy.valid = true)
  tree : ∀ t, TreeOk (s.tree.get t)
  entryZero : s.palValid = true → s.palAt 0 = .clear
  fault : FaultOk s
  work : s.work = .idle

/-- The host's next access is none that R82 forbids: no write to PMEM or PALROM in a session or outside them. -/
def HostObeys (s : State) : Prop :=
  match s.pending with
  | .pokePmem a _ :: _ => s.rstate ≠ .run ∧ a < s.cfg.pmemBytes
  | .pokePalrom a _ :: _ => s.rstate ≠ .run ∧ a < s.cfg.palromWords
  | _ => True

end Sys2Proof.Machine
end

