-- ==== Sys2Proof/Certificates/Slice0/Obligations.lean ====
section
/-! DEFINITION. The statements about the model, for the provers. -/

section

open Sys2Proof Sys2Proof.Machine

/-! Reset, the step, and the host's accesses. -/

/-- R331: after reset every register that can be read has the value of the map's reset column, the four read ports
fault, and flags, modes and outputs are as listed. -/
def Obligations.ResetLeavesRegisters : Prop :=
  (∀ r : Reg, r.isPort = false → regRead r.index State.reset =
    ((match r with
      | .id => 0x504B5307
      | .fault => 0x00000F00
      | _ => 0), State.reset)) ∧
  (∀ r : Reg, r.isPort = true → regRead r.index State.reset = (0, State.reset.faultedWith 5 7 15 0)) ∧
  (∀ t : Role, (State.reset.tree.get t).valid = false ∧ (State.reset.hdr.get t).domain = .nibble) ∧
  State.reset.palValid = false ∧ State.reset.rstate = .idle ∧ State.reset.fault.kind = 0 ∧
  State.reset.ctrl = { layout := .quad, palMode := .huff, palSel := false } ∧
  State.reset.faultOut = false ∧ State.reset.doneOut = false

/-- R330: the reset input and `SRESET` have the same effect, in every state: every register at its reset value, every
valid flag 0; PMEM, PALROM, the parameters and what the host still has to do are as before. -/
def Obligations.ResetEventsAgree : Prop :=
  ∀ s : State, ∃ t, exec .sreset s = .next t ∧ access .rst s = .next t ∧
    (∀ r : Reg, r.isPort = false → regRead r.index t = ((regRead r.index State.reset).1, t)) ∧
    (∀ c : Role, (t.tree.get c).valid = false) ∧ t.palValid = false ∧ t.rstate = .idle ∧
    t.pmem = s.pmem ∧ t.palrom = s.palrom ∧ t.cfg = s.cfg ∧ t.pending = s.pending ∧ t.returned = s.returned

/-- R270: `NOP` changes no state and raises nothing, with or without a fault recorded. -/
def Obligations.NopChangesNothing : Prop :=
  ∀ s : State, exec .nop s = .next s ∧ regWrite 0x05 0x00000000 s = .next s

/-- R333: with nothing to do for the host, the block does nothing; so it waits after reset. -/
def Obligations.WaitsForHost : Prop :=
  step State.reset = .next State.reset ∧
  ∀ s : State, s.work.phase = .idle → s.pending = [] → step s = .next s

/-- A step takes the host's oldest access (logs 1, 2, 11: the model's queue, R5, R272, R273, R330, R82): a register
write, among them a command that decodes, a read, reset, and a write to PMEM or PALROM, which the model stops on by
name where R82 forbids it. -/
def Obligations.StepTakesHostAccess : Prop :=
  ∀ (s : State) (rest : List Access), s.work.phase = .idle →
    (∀ i v, s.pending = .write i v :: rest → step s = regWrite i v { s with pending := rest }) ∧
    (∀ w i, s.pending = .write 0x05 w :: rest → s.fault.kind = 0 → decode s.ctx .cmd w = .ok i →
      step s = exec i { s with pending := rest }) ∧
    (∀ i, s.pending = .read i :: rest →
      step s = .next { (regRead i { s with pending := rest }).2 with
        returned := (regRead i { s with pending := rest }).1 :: s.returned }) ∧
    (s.pending = .rst :: rest → step s = exec .sreset { s with pending := rest }) ∧
    (∀ a v, s.pending = .pokePmem a v :: rest → s.rstate ≠ .run → a < s.cfg.pmemBytes →
      step s = .next { s with pending := rest, pmem := Memory.write s.pmem a v }) ∧
    (∀ a v, s.pending = .pokePalrom a v :: rest → s.rstate ≠ .run → a < s.cfg.palromWords →
      step s = .next { s with pending := rest, palrom := Memory.write s.palrom a v }) ∧
    (∀ a v, s.pending = .pokePmem a v :: rest → s.rstate = .run → step s = .fault .pokeDuringSession) ∧
    (∀ a v, s.pending = .pokePalrom a v :: rest → s.rstate = .run → step s = .fault .pokeDuringSession) ∧
    (∀ a v, s.pending = .pokePmem a v :: rest → s.rstate ≠ .run → s.cfg.pmemBytes ≤ a →
      step s = .fault .pokeOutsideMemory) ∧
    (∀ a v, s.pending = .pokePalrom a v :: rest → s.rstate ≠ .run → s.cfg.palromWords ≤ a →
      step s = .fault .pokeOutsideMemory)

/-- A step before a data operation runs the operation its data decode to (log 8: the model's single data operation;
R105, R107, R110, R111, R115, R116 for where the data lie). -/
def Obligations.StepRunsDataOperation : Prop :=
  ∀ s : State, s.fault.kind = 0 →
    (s.work.phase = .shape →
      step s = exec (if pmemBit s.pmem (s.hdr.get s.work.tree).shapeBase.toNat s.work.build.hoff then .leaf else .node)
        s.leavePhase) ∧
    (s.work.phase = .path →
      step s = exec (if pmemBit s.pmem (s.cur.get s.work.tree).base.toNat (s.cur.get s.work.tree).off.toNat
        then .right else .left) s.leavePhase) ∧
    (∀ i, s.work.phase = .token → s.ctrl.layout = .quad →
      decode s.ctx .tokenQuad (tupleWord s.work.dy s.work.dx s.work.runlen s.work.value) = .ok i →
      step s = exec i s.leavePhase) ∧
    (∀ i, s.work.phase = .token → s.ctrl.layout = .delta →
      decode s.ctx .tokenDelta (tupleWord 0 s.work.dx s.work.runlen s.work.value) = .ok i →
      step s = exec i s.leavePhase) ∧
    (∀ i, s.work.phase = .palword → s.work.palNext < s.cfg.palromWords →
      decode s.ctx .palword ((Memory.read s.palrom s.work.palNext).setWidth 32) = .ok i →
      step s = exec i { s with work := { s.work with phase := .idle, palNext := s.work.palNext + 1 } }) ∧
    (s.work.phase = .colour → s.work.red.toNat ≤ 31 → s.work.green.toNat ≤ 31 → s.work.blue.toNat ≤ 31 →
      step s = exec (.colourTriple s.work.red s.work.green s.work.blue) s.leavePhase)

/-! Commands. -/

/-- R102: the match and mask of each command word. -/
def Obligations.CommandWords : Prop :=
  ∀ (w : Word) (sel : BitVec 4),
    (decodeCmd w = .ok .nop ↔ w &&& 0xFFFFFFFF = 0x00000000) ∧
    (decodeCmd w = .ok (.build sel) ↔ w &&& 0xFFFFF0FF = 0x00000001 ∧ w.extractLsb' 8 4 = sel) ∧
    (decodeCmd w = .ok (.decode sel) ↔ w &&& 0xFFFFF0FF = 0x00000002 ∧ w.extractLsb' 8 4 = sel) ∧
    (decodeCmd w = .ok (.rdbit sel) ↔ w &&& 0xFFFFF0FF = 0x00000003 ∧ w.extractLsb' 8 4 = sel) ∧
    (decodeCmd w = .ok .rstart ↔ w &&& 0xFFFFFFFF = 0x00000004) ∧
    (decodeCmd w = .ok .rstep ↔ w &&& 0xFFFFFFFF = 0x00000005) ∧
    (decodeCmd w = .ok .rrun ↔ w &&& 0xFFFFFFFF = 0x00000006) ∧
    (decodeCmd w = .ok .paldec ↔ w &&& 0xFFFFFFFF = 0x00000007) ∧
    (decodeCmd w = .ok .sreset ↔ w &&& 0xFFFFFFFF = 0x0000000F)

/-- R103: the order of the checks on a word written to `CMD`, and what happens with a fault recorded. -/
def Obligations.CommandDecodeOrder : Prop :=
  ∀ (s : State) (w : Word),
    (s.fault.kind = 0 →
      (w.extractLsb' 12 20 ≠ 0 ∨ (7 < (w.extractLsb' 0 8).toNat ∧ (w.extractLsb' 0 8).toNat ≠ 0x0F) →
        regWrite 0x05 w s = .next (s.faultedWith 5 1 15 w)) ∧
      (w.extractLsb' 12 20 = 0 → 1 ≤ (w.extractLsb' 0 8).toNat → (w.extractLsb' 0 8).toNat ≤ 3 →
        4 < (w.extractLsb' 8 4).toNat → regWrite 0x05 w s = .next (s.faultedWith 5 2 15 w)) ∧
      (w.extractLsb' 12 20 = 0 →
        ((w.extractLsb' 0 8).toNat = 0 ∨ (4 ≤ (w.extractLsb' 0 8).toNat ∧ (w.extractLsb' 0 8).toNat ≤ 7) ∨
          (w.extractLsb' 0 8).toNat = 0x0F) →
        w.extractLsb' 8 4 ≠ 0 → regWrite 0x05 w s = .next (s.faultedWith 5 2 15 w)) ∧
      (∀ i, i.format = .cmd → i.wellFormed = true → w = encode s.ctx i → ¬ CommandLegal s i →
        regWrite 0x05 w s = .next (s.faultedWith 5 3 15 w)) ∧
      (∀ i, i.format = .cmd → i.wellFormed = true → w = encode s.ctx i → CommandLegal s i →
        regWrite 0x05 w s = exec i s)) ∧
    (s.fault.kind ≠ 0 → w = 0x0000000F → regWrite 0x05 w s = exec .sreset s) ∧
    (s.fault.kind ≠ 0 → w ≠ 0x0000000F → regWrite 0x05 w s = .next s)

/-- R275: a command whose condition fails raises BadState and changes nothing else; during a session the only writes
the host can make without a fault are those listed, and no other ends it than `SRESET` and the last token. -/
def Obligations.CommandLegality : Prop :=
  (∀ (s : State) (i : Instr), s.fault.kind = 0 → i.format = .cmd → i.wellFormed = true → ¬ CommandLegal s i →
    exec i s = .next (s.faultedWith 5 3 15 (encode s.ctx i))) ∧
  (∀ (s t : State) (i : BitVec 8) (v : Word), s.fault.kind = 0 → s.rstate = .run → regWrite i v s = .next t →
    t.fault.kind = 0 →
    (i = 0x05 ∧ (v = 0x00000000 ∨ v = 0x00000005 ∨ v = 0x00000006 ∨ v = 0x0000000F)) ∨ i = 0x0D ∨ i = 0x10) ∧
  (∀ (s t : State) (i : BitVec 8) (v : Word), s.rstate = .run → regWrite i v s = .next t → t.rstate ≠ .run →
    i = 0x05 ∧ (v = 0x0000000F ∨ ((v = 0x00000005 ∨ v = 0x00000006) ∧ t.rstate = .done ∧ t.bufpos = t.npix)))

/-- R295: with a fault recorded every register write but `SRESET` is ignored, and a read changes nothing. That every
instruction but `SRESET` then changes nothing, the data operations alone among them, is the model's reading of R295 and
R293 (log 16, DEDUCED, with log 8). -/
def Obligations.FaultedBlockFrozen : Prop :=
  ∀ s : State, s.fault.kind ≠ 0 →
    (∀ i v, ¬ (i = 0x05 ∧ v = 0x0000000F) → regWrite i v s = .next s) ∧
    regWrite 0x05 0x0000000F s = exec .sreset s ∧
    (∀ i, (regRead i s).2 = s) ∧
    (∀ r : Reg, readGuard r s = none → (regRead r.index s).1 = regValue r s) ∧
    (∀ (r : Reg) (a : Nat), readGuard r s = some a → (regRead r.index s).1 = 0) ∧
    (∀ i, Reg.ofIndex i = none → (regRead i s).1 = 0) ∧
    (s.rstate ≠ .done → regRead 0x0E s = (0, s) ∧ regRead 0x0F s = (0, s)) ∧
    (∀ i : Instr, i ≠ .sreset → exec i s = .next s)

/-- R294: once a fault is recorded no step changes it, except a reset, which clears it. -/
def Obligations.FirstFaultStays : Prop :=
  ∀ s t : State, s.fault.kind ≠ 0 → step s = .next t →
    (t.fault = s.fault ∧ t.faddr = s.faddr) ∨
    ((s.pending.head? = some .rst ∨ s.pending.head? = some (.write 0x05 0x0000000F)) ∧ t.fault.kind = 0)

/-- R293 and the codes of R290 and R291: what `raise` records, as the host reads it; a second fault records nothing. -/
def Obligations.FaultEntry : Prop :=
  (∀ (c : Cause) (unit : BitVec 4) (addr : Nat) (s : State),
    (s.fault.kind = 0 → raise c unit addr s = s.faultedWith c.kind c.sub unit (BitVec.ofNat 32 addr) ∧
      (regRead 0x03 (raise c unit addr s)).1.toNat = 256 * unit.toNat + 16 * c.sub.toNat + c.kind.toNat ∧
      (regRead 0x04 (raise c unit addr s)).1.toNat = addr % 2 ^ 32 ∧
      (regRead 0x02 (raise c unit addr s)).1.getLsbD 8 = true) ∧
    (s.fault.kind ≠ 0 → raise c unit addr s = s)) ∧
  [Cause.shapeExhausted, .permExhausted, .treeTooLarge, .trailingHeader, .singleLeaf, .leafRange, .streamExhausted,
    .backrefBeforeStart, .backrefNotBehind, .runOverflow, .valueRange, .colorRange].map
      (fun c => (c.kind.toNat, c.sub.toNat)) =
    [(1, 1), (1, 2), (1, 3), (1, 4), (1, 5), (1, 6), (1, 7), (1, 8), (1, 9), (1, 10), (1, 11), (1, 12)] ∧
  [Cause.allocationFailure, .cursorPastBuffer, .pmemAddress, .palromAddress].map
      (fun c => (c.kind.toNat, c.sub.toNat)) = [(2, 0), (4, 1), (4, 2), (4, 3)] ∧
  [Cause.badOpcode, .badSelector, .badState, .badRegister, .badValue, .lockedRegister, .readInvalid].map
      (fun c => (c.kind.toNat, c.sub.toNat)) = [(5, 1), (5, 2), (5, 3), (5, 4), (5, 5), (5, 6), (5, 7)]

/-! Registers. -/

/-- R21: every register has its index, and the unmapped indices are those listed. -/
def Obligations.RegisterMap : Prop :=
  (∀ r : Reg, Reg.ofIndex r.index = some r) ∧
  ([0x00, 0x01, 0x02, 0x03, 0x04, 0x05, 0x06, 0x07, 0x08, 0x09, 0x0A, 0x0B] : List (BitVec 8)).map Reg.ofIndex =
    [some .id, some .ctrl, some .status, some .fault, some .faddr, some .cmd, some .result, some .width, some .height,
      some .bufpos, some .npix, some .lasttok] ∧
  ([0x0C, 0x0D, 0x0E, 0x0F, 0x10, 0x11, 0x12, 0x13, 0x14, 0x15, 0x16] : List (BitVec 8)).map Reg.ofIndex =
    [some .lastoff, some .rbufAddr, some .rbufData, some .pixel, some .lutIdx, some .lutOut, some .lutRaw,
      some .palBase0, some .palBase1, some .palEnd0, some .palEnd1] ∧
  (∀ i : BitVec 8, Reg.ofIndex i = none ↔
    (0x17 ≤ i.toNat ∧ i.toNat ≤ 0x1F) ∨ (0x34 ≤ i.toNat ∧ i.toNat ≤ 0x3F) ∨ i = 0x46 ∨ i = 0x47 ∨ i = 0x4E ∨
      i = 0x4F ∨ i = 0x56 ∨ i = 0x57 ∨ i = 0x5E ∨ i = 0x5F ∨ 0x66 ≤ i.toNat) ∧
  (∀ c : Role, Reg.ofIndex (BitVec.ofNat 8 (0x20 + 4 * c.index)) = some (.curBase c) ∧
    Reg.ofIndex (BitVec.ofNat 8 (0x20 + 4 * c.index + 1)) = some (.curLen c) ∧
    Reg.ofIndex (BitVec.ofNat 8 (0x20 + 4 * c.index + 2)) = some (.curOff c) ∧
    Reg.ofIndex (BitVec.ofNat 8 (0x20 + 4 * c.index + 3)) = some (.curEnd c) ∧
    Reg.ofIndex (BitVec.ofNat 8 (0x40 + 8 * c.index)) = some (.hdrShapeBase c) ∧
    Reg.ofIndex (BitVec.ofNat 8 (0x40 + 8 * c.index + 1)) = some (.hdrShapeBits c) ∧
    Reg.ofIndex (BitVec.ofNat 8 (0x40 + 8 * c.index + 2)) = some (.hdrPermBase c) ∧
    Reg.ofIndex (BitVec.ofNat 8 (0x40 + 8 * c.index + 3)) = some (.hdrPermCount c) ∧
    Reg.ofIndex (BitVec.ofNat 8 (0x40 + 8 * c.index + 4)) = some (.treeCfg c) ∧
    Reg.ofIndex (BitVec.ofNat 8 (0x40 + 8 * c.index + 5)) = some (.treeNodes c))

/-- R23: accesses that the map forbids, and the registers a session locks. -/
def Obligations.ForbiddenAccesses : Prop :=
  ∀ s : State, s.fault.kind = 0 →
    (∀ i, Reg.ofIndex i = none → regRead i s = (0, s.faultedWith 5 4 15 (i.setWidth 32))) ∧
    (∀ i v, Reg.ofIndex i = none → regWrite i v s = .next (s.faultedWith 5 4 15 (i.setWidth 32))) ∧
    (∀ r : Reg, ∀ v, r.access = .ro → regWrite r.index v s = .next (s.faultedWith 5 4 15 (r.index.setWidth 32))) ∧
    regRead 0x05 s = (0, s) ∧
    (∀ r : Reg, ∀ v, r.access = .rw → s.rstate = .run → r ≠ .rbufAddr → r ≠ .lutIdx →
      regWrite r.index v s = .next (s.faultedWith 5 6 15 (r.index.setWidth 32)))

/-- R22: reserved bits read as 0; a value that is not legal is refused whole; a legal one is taken whole, reads back, and
changes no other register and no memory. -/
def Obligations.RegisterWrites : Prop :=
  (∀ s : State, (regValue .ctrl s).toNat < 2 ^ 5 ∧ (regValue .status s).toNat < 2 ^ 10 ∧
    (regValue .fault s).toNat < 2 ^ 12 ∧ (regValue .result s).toNat < 2 ^ 8 ∧ (regValue .width s).toNat < 2 ^ 16 ∧
    (regValue .height s).toNat < 2 ^ 16 ∧ (regValue .lutIdx s).toNat < 2 ^ 4 ∧ (regValue .lutRaw s).toNat < 2 ^ 16 ∧
    (regValue .lutOut s).toNat < 2 ^ 25 ∧ (regValue .pixel s).toNat < 2 ^ 25 ∧
    ∀ t : Role, (regValue (.treeCfg t) s).toNat < 2 ∧ (regValue (.treeNodes t) s).toNat < 2 ^ 10) ∧
  ∀ (s : State) (r : Reg) (v : Word), s.fault.kind = 0 → r.access = .rw →
    (s.rstate = .run → r = .rbufAddr ∨ r = .lutIdx) →
    (¬ LegalValue v r → regWrite r.index v s = .next (s.faultedWith 5 5 15 (r.index.setWidth 32))) ∧
    (LegalValue v r → ∃ t, regWrite r.index v s = .next t ∧ regRead r.index t = (v, t) ∧
      (∀ q : Reg, q ≠ r → q.isPort = false → regValue q t = regValue q s) ∧
      t.cfg = s.cfg ∧ t.pmem = s.pmem ∧ t.palrom = s.palrom ∧ t.rbuf = s.rbuf ∧ t.tree = s.tree ∧ t.pal = s.pal ∧
      t.work = s.work ∧ t.pending = s.pending ∧ t.returned = s.returned)

/-- R37: the raster read port, which is read-only, and its index register, which takes any value and is 0 after reset. -/
def Obligations.RasterReadPort : Prop :=
  State.reset.rbufAddr = 0 ∧
  ∀ s : State, regRead 0x0D s = (s.rbufAddr, s) ∧
    (∀ v, s.fault.kind = 0 → regWrite 0x0E v s = .next (s.faultedWith 5 4 15 0x0E)) ∧
    (s.rstate = .done → s.rbufAddr.toNat < s.npix.toNat →
      regRead 0x0E s = ((Memory.read s.rbuf s.rbufAddr.toNat).setWidth 32, s)) ∧
    (s.fault.kind = 0 → ¬ (s.rstate = .done ∧ s.rbufAddr.toNat < s.npix.toNat) →
      regRead 0x0E s = (0, s.faultedWith 5 7 15 s.rbufAddr)) ∧
    (s.fault.kind ≠ 0 → ¬ (s.rstate = .done ∧ s.rbufAddr.toNat < s.npix.toNat) → regRead 0x0E s = (0, s)) ∧
    (∀ v, s.fault.kind = 0 → regWrite 0x0D v s = .next { s with rbufAddr := v })

/-- R249: the pixel read port. -/
def Obligations.PixelReadPort : Prop :=
  ∀ s : State,
    (∀ i : BitVec 4, s.palValid = true → s.rstate = .done → s.rbufAddr.toNat < s.npix.toNat →
      (Memory.read s.rbuf s.rbufAddr.toNat).toNat = i.toNat → regRead 0x0F s = (s.lookup i, s)) ∧
    (s.fault.kind = 0 → ¬ (s.palValid = true ∧ s.rstate = .done ∧ s.rbufAddr.toNat < s.npix.toNat) →
      regRead 0x0F s = (0, s.faultedWith 5 7 15 s.rbufAddr)) ∧
    (s.fault.kind ≠ 0 → ¬ (s.palValid = true ∧ s.rstate = .done ∧ s.rbufAddr.toNat < s.npix.toNat) →
      regRead 0x0F s = (0, s))

/-- R248: the palette read ports. -/
def Obligations.PaletteReadPorts : Prop :=
  ∀ s : State,
    (s.palValid = true → regRead 0x11 s = (s.lookup s.lutIdx, s)) ∧
    (s.palValid = true → (regRead 0x12 s).2 = s ∧ (regRead 0x12 s).1.toNat =
      2 ^ 15 * (s.palAt s.lutIdx).opaq.toNat + 2 ^ 10 * (s.palAt s.lutIdx).r.toNat +
        2 ^ 5 * (s.palAt s.lutIdx).g.toNat + (s.palAt s.lutIdx).b.toNat) ∧
    (s.palValid = false → s.fault.kind = 0 →
      regRead 0x11 s = (0, s.faultedWith 5 7 15 (s.lutIdx.setWidth 32)) ∧
      regRead 0x12 s = (0, s.faultedWith 5 7 15 (s.lutIdx.setWidth 32))) ∧
    (s.palValid = false → s.fault.kind ≠ 0 → regRead 0x11 s = (0, s) ∧ regRead 0x12 s = (0, s))

/-- R246 and R247: the scaled channels and the pixel format; `lookup(0)` is 0 where the palette is valid. -/
def Obligations.LookupScales : Prop :=
  (∀ v : BitVec 5, (scale v).toNat = v.toNat * 8 * 255 / 248 ∧ (scale v).toNat = v.toNat * 255 / 31) ∧
  ([0, 1, 2, 3, 4, 5, 6, 7, 8, 9, 10, 11, 12, 13, 14, 15] : List (BitVec 5)).map (fun v => (scale v).toNat) =
    [0, 8, 16, 24, 32, 41, 49, 57, 65, 74, 82, 90, 98, 106, 115, 123] ∧
  ([16, 17, 18, 19, 20, 21, 22, 23, 24, 25, 26, 27, 28, 29, 30, 31] : List (BitVec 5)).map
      (fun v => (scale v).toNat) =
    [131, 139, 148, 156, 164, 172, 180, 189, 197, 205, 213, 222, 230, 238, 246, 255] ∧
  (∀ (s : State) (i : BitVec 4), (s.lookup i).toNat =
    2 ^ 24 * (s.palAt i).opaq.toNat + 2 ^ 16 * (scale (s.palAt i).r).toNat + 2 ^ 8 * (scale (s.palAt i).g).toNat +
      (scale (s.palAt i).b).toNat) ∧
  (∀ s : State, Inv s → s.palValid = true → s.lookup 0 = 0)

/-- R28 and the outputs of R298: every field of `STATUS` is a copy of a state bit, and reading has no side effect. -/
def Obligations.StatusAndOutputs : Prop :=
  ∀ s : State, ∃ w : Word, regRead 0x02 s = (w, s) ∧
    (∀ t : Role, w.getLsbD t.index = (s.tree.get t).valid) ∧
    w.getLsbD 5 = s.palValid ∧
    (w.extractLsb' 6 2).toNat = (match s.rstate with | .idle => 0 | .run => 1 | .done => 2) ∧
    (w.getLsbD 8 = true ↔ s.fault.kind ≠ 0) ∧
    w.getLsbD 9 = s.palShiny ∧
    w.extractLsb' 10 22 = 0 ∧
    s.faultOut = w.getLsbD 8 ∧
    (s.doneOut = true ↔ s.rstate = .done)

/-! The bitstream cursor. -/

/-- R140, R141, R142: `RDBIT c` makes the three checks in their order; the bit goes to `RESULT` and the cursor
advances by 1; nothing else changes. -/
def Obligations.RdbitReadsOneBit : Prop :=
  ∀ (s : State) (c : Role), s.fault.kind = 0 → s.rstate ≠ .run →
    (∀ k u, bitFault s c (s.cur.get c).off.toNat = some (k, u) →
      exec (.rdbit c.sel) s = .next (s.faultedWith k u (BitVec.ofNat 4 c.index) (s.cur.get c).off)) ∧
    (bitFault s c (s.cur.get c).off.toNat = none →
      (s.cur.get c).off.toNat + 1 < 2 ^ 32 ∧
      exec (.rdbit c.sel) s = .next
        { s with
          cur := s.cur.set c { s.cur.get c with off := (s.cur.get c).off + 1 }
          result := BitVec.ofNat 8
            ((Memory.read s.pmem ((s.cur.get c).base.toNat + (s.cur.get c).off.toNat / 8)).toNat /
              2 ^ (7 - (s.cur.get c).off.toNat % 8) % 2) })

/-- R143: a read through one cursor neither sees nor changes another, whatever that one is set to. -/
def Obligations.CursorsIndependent : Prop :=
  ∀ (s t : State) (c d : Role) (x : Cursor), c ≠ d → s.fault.kind = 0 →
    exec (.rdbit c.sel) s = .next t →
    exec (.rdbit c.sel) (s.setCur d x) = .next (t.setCur d x) ∧ t.cur.get d = s.cur.get d

/-- R31, R144: in a session a step that is no reset moves no cursor back and changes none of its other registers. -/
def Obligations.CursorsMonotone : Prop :=
  ∀ s t : State, Inv s → s.rstate = .run → step s = .next t →
    s.pending.head? ≠ some .rst → s.pending.head? ≠ some (.write 0x05 0x0000000F) →
    ∀ c : Role, t.cur.get c = { s.cur.get c with off := (t.cur.get c).off } ∧
      (s.cur.get c).off.toNat ≤ (t.cur.get c).off.toNat

/-! The Huffman engine. -/

/-- R160, R163, R164: `BUILD t` on a header that describes a tree of at least two leaves stores that tree in preorder,
counts its nodes and marks it valid; nothing else changes. -/
def Obligations.BuildStoresHeaderTree : Prop :=
  ∀ (s : State) (t : Role) (tr : CodeTree), s.fault.kind = 0 → s.rstate ≠ .run → HeaderHolds s t tr → 1 < tr.size →
    ∃ m : TreeMem, exec (.build t.sel) s = .next { s with tree := s.tree.set t m } ∧
      m.valid = true ∧ m.count.toNat = tr.size ∧ tr.laidAt 0 m.nodes

/-- R163: `BUILD t` always ends; it ends without a fault exactly on the header of a tree of at least two leaves, and
else with a fault of the header (R292), tree `t` not valid and of no nodes, and nothing but tree `t` changed. -/
def Obligations.BuildAcceptsExactly : Prop :=
  ∀ (s : State) (t : Role), s.fault.kind = 0 → s.rstate ≠ .run →
    ∃ u, exec (.build t.sel) s = .next u ∧
      (u.fault.kind = 0 ↔ ∃ tr, HeaderHolds s t tr ∧ 1 < tr.size) ∧
      (u.fault.kind ≠ 0 → (u.tree.get t).valid = false ∧ (u.tree.get t).count = 0 ∧
        u.fault.unit = BitVec.ofNat 4 (8 + t.index) ∧
        ((u.fault.kind = 1 ∧ 1 ≤ u.fault.sub.toNat ∧ u.fault.sub.toNat ≤ 6) ∨
          (u.fault.kind = 4 ∧ u.fault.sub = 2)) ∧
        u = { s with tree := s.tree.set t (u.tree.get t), fault := u.fault, faddr := u.faddr })

/-- The corner cases of R163: no shape bit, leftovers, and a tree of one leaf, each with its fault. -/
def Obligations.BuildCornerFaults : Prop :=
  ∀ (s : State) (t : Role), s.fault.kind = 0 → s.rstate ≠ .run →
    ((s.hdr.get t).shapeBits = 0 → ∃ m : TreeMem, m.valid = false ∧ m.count = 0 ∧
      exec (.build t.sel) s = .next
        ({ s with tree := s.tree.set t m }.faultedWith 1 1 (BitVec.ofNat 4 (8 + t.index)) 0)) ∧
    (∀ tr, HeaderBegins s t tr →
      (tr.size < (s.hdr.get t).shapeBits.toNat ∨ tr.leaves.length < (s.hdr.get t).permCount.toNat) →
      ∃ m : TreeMem, m.valid = false ∧ m.count = 0 ∧
        exec (.build t.sel) s = .next
          ({ s with tree := s.tree.set t m }.faultedWith 1 4 (BitVec.ofNat 4 (8 + t.index)) (BitVec.ofNat 32 tr.size))) ∧
    (∀ v, HeaderHolds s t (.leaf v) → ∃ m : TreeMem, m.valid = false ∧ m.count = 0 ∧
      exec (.build t.sel) s = .next
        ({ s with tree := s.tree.set t m }.faultedWith 1 5 (BitVec.ofNat 4 (8 + t.index)) 1))

/-- R160 to R163 with R170: `BUILD t` is its shape bits taken one by one as `NODE` or `LEAF` from an empty tree `t`, until
one raises or the tree closes; then the checks of R160's end, in their order. So the first failing check in the order of
the pseudocode decides the fault (with log 8 and log 12 for how the operations stand alone). -/
def Obligations.BuildIsRepeatedShapes : Prop :=
  ∀ (s u : State) (t : Role) (k : Nat), s.fault.kind = 0 → s.rstate ≠ .run →
    ShapeTimes t k { s with
      tree := s.tree.set t { nodes := [], count := 0, valid := false }
      work := { s.work with tree := t, build := .start } } u →
    (u.fault.kind ≠ 0 → exec (.build t.sel) s = .next { u with work := s.work }) ∧
    (u.fault.kind = 0 → u.work.build.closed = true →
      exec (.build t.sel) s = .next
        (if u.work.build.hoff ≠ (s.hdr.get t).shapeBits.toNat ∨ u.work.build.used ≠ (s.hdr.get t).permCount.toNat then
          { u with work := s.work }.faultedWith 1 4 (BitVec.ofNat 4 (8 + t.index)) (BitVec.ofNat 32 u.work.build.hoff)
        else if u.work.build.nodes = 1 then
          { u with work := s.work }.faultedWith 1 5 (BitVec.ofNat 4 (8 + t.index)) (BitVec.ofNat 32 u.work.build.hoff)
        else { u with
          work := s.work
          tree := u.tree.set t { nodes := (u.tree.get t).nodes, count := BitVec.ofNat 10 u.work.build.nodes, valid := true } }))

/-- R170 (with log 12, DEDUCED, for when a link is written): `NODE` (`node`) gives out the next index, which now owes a
right child; `LEAF` (`leaf`) gives out the next index and stores the next permutation entry there, and links the node
that owes a right child most recently, or closes the tree. -/
def Obligations.ShapeOperations : Prop :=
  ∀ (s : State) (t : Role) (b : BuildWork), s.fault.kind = 0 → s.work.tree = t → s.work.build = b →
    b.nodes ≠ nodeMax (s.hdr.get t).domain → b.hoff < (s.hdr.get t).shapeBits.toNat →
    (s.hdr.get t).shapeBase.toNat + b.hoff / 8 < s.cfg.pmemBytes →
    exec .node s = .next { s with
      work := { s.work with
        build := { b with hoff := b.hoff + 1, nodes := b.nodes + 1, owed := b.nodes :: b.owed } } } ∧
    (∀ v : Byte, b.used ≠ (s.hdr.get t).permCount.toNat →
      (s.hdr.get t).permBase.toNat + b.used < s.cfg.pmemBytes →
      Memory.read s.pmem ((s.hdr.get t).permBase.toNat + b.used) = v →
      ((s.hdr.get t).domain = .nibble → v.toNat < 16) →
      (b.owed = [] → exec .leaf s = .next { s with
        tree := s.tree.set t { s.tree.get t with nodes := cellsPut (s.tree.get t).nodes b.nodes (.leaf v) }
        work := { s.work with
          build := { hoff := b.hoff + 1, nodes := b.nodes + 1, used := b.used + 1, owed := [], closed := true } } }) ∧
      (∀ p rest, b.owed = p :: rest → exec .leaf s = .next { s with
        tree := s.tree.set t { s.tree.get t with
          nodes := cellsPut (cellsPut (s.tree.get t).nodes b.nodes (.leaf v)) p (.inner (p + 1) (b.nodes + 1)) }
        work := { s.work with
          build := { b with hoff := b.hoff + 1, nodes := b.nodes + 1, used := b.used + 1, owed := rest } } }))

/-- The checks of R160 to R162 in their order, for one shape bit: node capacity, shape bits, memory bound; for a leaf
then permutation entries, memory bound, leaf range. Nothing but the fault record changes. -/
def Obligations.ShapeOperationFaults : Prop :=
  ∀ (s : State) (t : Role) (b : BuildWork) (i : Instr), s.fault.kind = 0 → s.work.tree = t → s.work.build = b →
    i = .node ∨ i = .leaf →
    (b.nodes = nodeMax (s.hdr.get t).domain →
      exec i s = .next (s.faultedWith 1 3 (BitVec.ofNat 4 (8 + t.index)) (BitVec.ofNat 32 b.hoff))) ∧
    (b.nodes ≠ nodeMax (s.hdr.get t).domain →
      ((s.hdr.get t).shapeBits.toNat ≤ b.hoff →
        exec i s = .next (s.faultedWith 1 1 (BitVec.ofNat 4 (8 + t.index)) (BitVec.ofNat 32 b.hoff))) ∧
      (b.hoff < (s.hdr.get t).shapeBits.toNat →
        (s.cfg.pmemBytes ≤ (s.hdr.get t).shapeBase.toNat + b.hoff / 8 →
          exec i s = .next (s.faultedWith 4 2 (BitVec.ofNat 4 (8 + t.index)) (BitVec.ofNat 32 b.hoff))) ∧
        ((s.hdr.get t).shapeBase.toNat + b.hoff / 8 < s.cfg.pmemBytes → i = .leaf →
          (b.used = (s.hdr.get t).permCount.toNat →
            exec i s = .next (s.faultedWith 1 2 (BitVec.ofNat 4 (8 + t.index)) (BitVec.ofNat 32 (b.hoff + 1)))) ∧
          (b.used ≠ (s.hdr.get t).permCount.toNat →
            (s.cfg.pmemBytes ≤ (s.hdr.get t).permBase.toNat + b.used →
              exec i s = .next (s.faultedWith 4 2 (BitVec.ofNat 4 (8 + t.index)) (BitVec.ofNat 32 (b.hoff + 1)))) ∧
            ((s.hdr.get t).permBase.toNat + b.used < s.cfg.pmemBytes → (s.hdr.get t).domain = .nibble →
              16 ≤ (Memory.read s.pmem ((s.hdr.get t).permBase.toNat + b.used)).toNat →
              exec i s = .next (s.faultedWith 1 6 (BitVec.ofNat 4 (8 + t.index)) (BitVec.ofNat 32 (b.hoff + 1))))))))

/-- R171: `LEFT` (`left`) and `RIGHT` (`right`) advance the cursor by 1 and go to the child; at a leaf the symbol is complete. A bit that
cannot be read raises as R140 says; at a node that is not `Internal`, which R26 excludes, the model stops by name. -/
def Obligations.PathOperations : Prop :=
  ∀ (s : State) (t : Role), s.fault.kind = 0 → s.work.tree = t →
    (∀ k u, bitFault s t (s.cur.get t).off.toNat = some (k, u) →
      exec .left s = .next (s.faultedWith k u (BitVec.ofNat 4 t.index) (s.cur.get t).off) ∧
      exec .right s = .next (s.faultedWith k u (BitVec.ofNat 4 t.index) (s.cur.get t).off)) ∧
    (bitFault s t (s.cur.get t).off.toNat = none →
      (∀ l r, nodeAt t s.work.node s = some (.inner l r) →
        exec .left s = .next { s with
          cur := s.cur.set t { s.cur.get t with off := (s.cur.get t).off + 1 }
          work := { s.work with node := l, sym := leafValue (nodeAt t l s) } } ∧
        exec .right s = .next { s with
          cur := s.cur.set t { s.cur.get t with off := (s.cur.get t).off + 1 }
          work := { s.work with node := r, sym := leafValue (nodeAt t r s) } }) ∧
      ((∀ l r, nodeAt t s.work.node s ≠ some (.inner l r)) →
        exec .left s = .fault .nodeNotInternal ∧ exec .right s = .fault .nodeNotInternal))

/-- R165, R166 with R171: `DECODE t` is its path bits taken one by one as `LEFT` or `RIGHT` from the root, until one
raises or a leaf is reached, whose value goes to `RESULT` (with log 8 for how the operations stand alone). -/
def Obligations.DecodeIsRepeatedPaths : Prop :=
  ∀ (s u : State) (t : Role) (k : Nat), s.fault.kind = 0 → s.rstate ≠ .run → (s.tree.get t).valid = true →
    TreeOk (s.tree.get t) → PathTimes t k { s with work := { s.work with tree := t, node := 0, sym := none } } u →
    (u.fault.kind ≠ 0 → exec (.decode t.sel) s = .next { u with work := s.work }) ∧
    (∀ v, u.fault.kind = 0 → u.work.sym = some v → exec (.decode t.sel) s = .next { u with work := s.work, result := v })

/-- R165, R166, R108: where the stream's next bits are a code word of tree `t`, `DECODE t` returns its symbol and
consumes its bits; nothing else changes. -/
def Obligations.DecodeReturnsSymbol : Prop :=
  ∀ (s : State) (t : Role) (tr : CodeTree) (p : List Bool) (v : Byte), s.fault.kind = 0 → s.rstate ≠ .run →
    TreeHolds s t tr → tr.follow p = some v → StreamHolds s t p →
    exec (.decode t.sel) s = .next { s with
      cur := s.cur.set t { s.cur.get t with off := BitVec.ofNat 32 ((s.cur.get t).off.toNat + p.length) }
      result := v }

/-- R165, R166: where a code word breaks off at a bit that cannot be read, that bit's fault is recorded, the bits
before it stay consumed, and `RESULT` is as before. -/
def Obligations.DecodeBreaksOff : Prop :=
  ∀ (s : State) (t : Role) (tr : CodeTree) (p q : List Bool) (v : Byte) (k u : BitVec 4), s.fault.kind = 0 →
    s.rstate ≠ .run → TreeHolds s t tr → tr.follow (p ++ q) = some v → q ≠ [] → StreamHolds s t p →
    bitFault s t ((s.cur.get t).off.toNat + p.length) = some (k, u) →
    exec (.decode t.sel) s = .next
      ((s.setCur t { s.cur.get t with
          off := BitVec.ofNat 32 ((s.cur.get t).off.toNat + p.length) }).faultedWith k u
        (BitVec.ofNat 4 t.index) (BitVec.ofNat 32 ((s.cur.get t).off.toNat + p.length)))

/-- R168: a symbol of a tree of `n` nodes reads at most `(n - 1) / 2` bits, so at most 255, or 15 in NIBBLE domain. -/
def Obligations.DecodeBound : Prop :=
  ∀ (s u : State) (t : Role), TreeOk (s.tree.get t) → exec (.decode t.sel) s = .next u →
    (u.cur.get t).off.toNat ≤ (s.cur.get t).off.toNat + ((s.tree.get t).count.toNat - 1) / 2 ∧
    (u.cur.get t).off.toNat ≤ (s.cur.get t).off.toNat + 255

/-- R169: `BUILD t` on a header, then one `DECODE t` for each code word of the stream, returns the symbols in order and
consumes exactly the sum of the code lengths. -/
def Obligations.RoundTrip : Prop :=
  ∀ (s : State) (t : Role) (tr : CodeTree) (codes : List (List Bool × Byte)), s.fault.kind = 0 → s.rstate ≠ .run →
    HeaderHolds s t tr → 1 < tr.size → CodesOf tr codes → StreamHolds s t (codeBits codes) →
    ∃ m u, exec (.build t.sel) s = .next m ∧ DecodesTo t m (codes.map Prod.snd) u ∧
      (u.cur.get t).off.toNat = (s.cur.get t).off.toNat + (codes.map fun x => x.1.length).sum ∧ u.fault.kind = 0

/-! The raster decompressor. -/

/-- R191: `RSTART` opens a session; with more bytes than the raster holds it raises AllocationFailure, and `RSTATE`,
`NPIX` and `BUFPOS` are unchanged. -/
def Obligations.RstartOpensSession : Prop :=
  ∀ s : State, s.fault.kind = 0 →
    (CommandLegal s .rstart → s.width.toNat * s.height.toNat ≤ s.cfg.rasterMax →
      ∃ m, exec .rstart s = .next { s with
        rbuf := m
        npix := BitVec.ofNat 32 (s.width.toNat * s.height.toNat)
        bufpos := 0
        lasttok := 0
        lastoff := 0
        rstate := if s.width.toNat * s.height.toNat = 0 then .done else .run }) ∧
    (CommandLegal s .rstart → s.cfg.rasterMax < s.width.toNat * s.height.toNat →
      exec .rstart s = .next (s.faultedWith 2 0 15 (BitVec.ofNat 32 (s.width.toNat * s.height.toNat)))) ∧
    (¬ CommandLegal s .rstart → exec .rstart s = .next (s.faultedWith 5 3 15 0x00000004))

/-- R196, `LIT` of both layouts (`litDelta`, `litQuad`, and a token of any other constructor whose offset and run length
are 0): the instruction answers a next state; the token is latched, one byte is written at `BUFPOS`, every other byte
reads as before. A value above 15 is the only fault (R195), and nothing but the latches is then written. The token
as an operation of its own, outside a session too, is the model's (log 8, and log 15, DEDUCED). -/
def Obligations.LiteralToken : Prop :=
  ∀ (s : State) (i : Instr) (k : TokenView), s.fault.kind = 0 → tokenView s.width i = some k →
    k.offset = 0 → k.runlen = 0 →
    (k.value.toNat < 16 →
      ∃ m, exec i s = .next { s.latched k with rbuf := m, bufpos := s.bufpos + 1 } ∧
        Memory.read m s.bufpos.toNat = k.value ∧
        ∀ a, a ≠ s.bufpos.toNat → Memory.read m a = Memory.read s.rbuf a) ∧
    (16 ≤ k.value.toNat → exec i s = .next ((s.latched k).faultedWith 1 11 3 s.bufpos))

/-- R197, `FILL` of both layouts (`fillDelta`, `fillQuad`): the instruction answers a next state with `runlen` bytes of
`value` from `BUFPOS` on, every other byte as before; or its first check that fails raises (R195), and nothing but the
latches is written. The token as an operation of its own, outside a session too, is the model's (log 8, and log 15,
DEDUCED). -/
def Obligations.FillToken : Prop :=
  ∀ (s : State) (i : Instr) (k : TokenView), s.fault.kind = 0 → tokenView s.width i = some k →
    k.offset = 0 → k.runlen ≠ 0 →
    (k.value.toNat < 16 → s.bufpos.toNat + k.runlen.toNat ≤ s.npix.toNat →
      ∃ m, exec i s = .next
          { s.latched k with rbuf := m, bufpos := BitVec.ofNat 32 (s.bufpos.toNat + k.runlen.toNat) } ∧
        (∀ a, s.bufpos.toNat ≤ a → a < s.bufpos.toNat + k.runlen.toNat → Memory.read m a = k.value) ∧
        ∀ a, a < s.bufpos.toNat ∨ s.bufpos.toNat + k.runlen.toNat ≤ a → Memory.read m a = Memory.read s.rbuf a) ∧
    (16 ≤ k.value.toNat → exec i s = .next ((s.latched k).faultedWith 1 11 3 s.bufpos)) ∧
    (k.value.toNat < 16 → s.npix.toNat < s.bufpos.toNat + k.runlen.toNat →
      exec i s = .next ((s.latched k).faultedWith 1 10 2 s.bufpos))

/-- R198 with R199 and R83, `COPY` of both layouts (`copyDelta`, `copyQuad`): the instruction answers a next state in
which each copied byte is the byte `offset` behind it as the copy has left it, then one `value` byte unless the raster
is full, every other byte as before; or its first check that fails raises (R195), and nothing but the latches is
written. The token as an operation of its own, outside a session too, is the model's (log 8, and log 15, DEDUCED). -/
def Obligations.CopyToken : Prop :=
  ∀ (s : State) (i : Instr) (k : TokenView), s.fault.kind = 0 → tokenView s.width i = some k → k.offset ≠ 0 →
    (k.value.toNat < 16 → s.bufpos.toNat + k.runlen.toNat ≤ s.npix.toNat →
      (k.runlen ≠ 0 → 1 ≤ k.offset ∧ k.offset ≤ s.bufpos.toNat) →
      ∃ (m : List Host.Cell) (p e : Nat), p = s.bufpos.toNat + k.runlen.toNat ∧
        e = (if p < s.npix.toNat then p + 1 else p) ∧
        exec i s = .next { s.latched k with rbuf := m, bufpos := BitVec.ofNat 32 e } ∧
        (∀ a, s.bufpos.toNat ≤ a → a < p → Memory.read m a = Memory.read m (a - k.offset.toNat)) ∧
        (p < s.npix.toNat → Memory.read m p = k.value) ∧
        ∀ a, a < s.bufpos.toNat ∨ e ≤ a → Memory.read m a = Memory.read s.rbuf a) ∧
    (16 ≤ k.value.toNat → exec i s = .next ((s.latched k).faultedWith 1 11 3 s.bufpos)) ∧
    (k.value.toNat < 16 →
      (s.npix.toNat < s.bufpos.toNat + k.runlen.toNat →
        exec i s = .next ((s.latched k).faultedWith 1 10 2 s.bufpos)) ∧
      (s.bufpos.toNat + k.runlen.toNat ≤ s.npix.toNat → k.runlen ≠ 0 → k.offset < 0 →
        exec i s = .next ((s.latched k).faultedWith 1 9 1 s.bufpos)) ∧
      (s.bufpos.toNat + k.runlen.toNat ≤ s.npix.toNat → k.runlen ≠ 0 → (s.bufpos.toNat : Int) < k.offset →
        exec i s = .next ((s.latched k).faultedWith 1 8 1 s.bufpos)))

/-- R203, R204: a token that starts in a raster not yet full either faults, or raises `BUFPOS`, never past `NPIX`,
and changes no byte below where it started. The token as an operation of its own is the model's (log 8, and log 15,
DEDUCED). -/
def Obligations.TokenProgress : Prop :=
  ∀ (s : State) (i : Instr) (k : TokenView), s.fault.kind = 0 → tokenView s.width i = some k →
    s.bufpos.toNat < s.npix.toNat →
    ∃ t, exec i s = .next t ∧ (t.fault.kind ≠ 0 → t.rbuf = s.rbuf ∧ t.bufpos = s.bufpos) ∧
      (t.fault.kind = 0 → s.bufpos.toNat < t.bufpos.toNat ∧ t.bufpos.toNat ≤ t.npix.toNat ∧
        ∀ a < s.bufpos.toNat, Memory.read t.rbuf a = Memory.read s.rbuf a)

/-- R195, R201, R192, R193: `RSTEP` runs the token that the next symbols of the layout's streams make, from the state
after them; if the raster is then full the session is DONE. -/
def Obligations.RstepRunsToken : Prop :=
  ∀ (s u : State) (dy dx runlen value : Byte) (i : Instr), s.fault.kind = 0 → s.rstate = .run →
    TokenAt s dy dx runlen value u → decode s.ctx s.tokenFormat (tupleWord dy dx runlen value) = .ok i →
    ∃ t, exec i u = .next t ∧
      exec .rstep s = .next (if t.fault.kind = 0 ∧ t.bufpos = t.npix then { t with rstate := .done } else t)

/-- R201, R196: `RSTEP` on a literal, its whole effect. -/
def Obligations.RstepLiteral : Prop :=
  ∀ (s u : State) (dy dx value : Byte), s.fault.kind = 0 → s.rstate = .run →
    TokenAt s dy dx 0 value u → s.assemble dy dx = 0 → value.toNat < 16 →
    ∃ m, exec .rstep s = .next { u with
        lasttok := tupleWord dy dx 0 value
        lastoff := 0
        rbuf := m
        bufpos := s.bufpos + 1
        rstate := if s.bufpos + 1 = s.npix then .done else .run } ∧
      Memory.read m s.bufpos.toNat = value ∧
      ∀ a, a ≠ s.bufpos.toNat → Memory.read m a = Memory.read s.rbuf a

/-- R200, R201, R205: an `RSTEP` that faults writes nothing to `RBUF` or `BUFPOS` and leaves the session running; one
whose symbols could not be decoded leaves the latches as well (R192). -/
def Obligations.RstepFaultWritesNothing : Prop :=
  ∀ s t : State, Inv s → s.fault.kind = 0 → s.rstate = .run → exec .rstep s = .next t → t.fault.kind ≠ 0 →
    t.rbuf = s.rbuf ∧ t.bufpos = s.bufpos ∧ t.npix = s.npix ∧ t.rstate = .run ∧
    (t.fault.kind = 4 ∨ t.fault.sub = 7 → t.lasttok = s.lasttok ∧ t.lastoff = s.lastoff)

/-- R202: the effect of `RRUN` is that of issuing `RSTEP` until `RSTATE = DONE` or a fault; outside a session it raises
BadState. -/
def Obligations.RrunIsRepeatedRstep : Prop :=
  (∀ (s u : State) (k : Nat), s.fault.kind = 0 → s.rstate = .run → s.bufpos.toNat < s.npix.toNat →
    RstepTimes k s u → u.rstate = .done ∨ u.fault.kind ≠ 0 → exec .rrun s = .next u) ∧
  ∀ s : State, s.fault.kind = 0 → s.rstate ≠ .run → exec .rrun s = .next (s.faultedWith 5 3 15 0x00000006)

/-- R203, R204: in a running session `RRUN` always ends; without a fault the raster is full and DONE, and the bytes
written before are as they were; with one the session stays running and not full. -/
def Obligations.RrunFillsRaster : Prop :=
  ∀ s : State, Inv s → s.fault.kind = 0 → s.rstate = .run →
    ∃ u, exec .rrun s = .next u ∧ u.npix = s.npix ∧
      (∀ a < s.bufpos.toNat, Memory.read u.rbuf a = Memory.read s.rbuf a) ∧
      (u.fault.kind = 0 → u.rstate = .done ∧ u.bufpos = u.npix) ∧
      (u.fault.kind ≠ 0 → u.rstate = .run ∧ u.bufpos.toNat < u.npix.toNat)

/-- R202, R197: `RRUN` where one `FILL` is left that ends the raster exactly, its whole effect. -/
def Obligations.RrunFinalFill : Prop :=
  ∀ (s u : State) (dy dx runlen value : Byte), s.fault.kind = 0 → s.rstate = .run →
    TokenAt s dy dx runlen value u → s.assemble dy dx = 0 → runlen ≠ 0 → value.toNat < 16 →
    s.bufpos.toNat + runlen.toNat = s.npix.toNat →
    ∃ m, exec .rrun s = .next { u with
        lasttok := tupleWord dy dx runlen value
        lastoff := 0
        rbuf := m
        bufpos := s.npix
        rstate := .done } ∧
      (∀ a, s.bufpos.toNat ≤ a → a < s.npix.toNat → Memory.read m a = value) ∧
      ∀ a, a < s.bufpos.toNat ∨ s.npix.toNat ≤ a → Memory.read m a = Memory.read s.rbuf a

/-! The palette. -/

/-- R241, R243, R244: `PALDEC` in the packed modes: 15 or 16 words from the selected base, entry 0 transparent whatever
word 0 holds; nothing but the table and its two flags changes. -/
def Obligations.PaldecPacked : Prop :=
  ∀ (s : State) (base : Word), s.fault.kind = 0 → s.rstate ≠ .run →
    base = (if s.ctrl.palSel then s.palBase1 else s.palBase0) →
    (s.ctrl.palMode = .raw15 → base.toNat + 15 ≤ s.cfg.palromWords →
      ∃ q : Vector PalEntry 16, exec .paldec s = .next { s with
          pal := q, palValid := true, palShiny := s.ctrl.palSel } ∧
        q[0] = { opaq := false, r := 0, g := 0, b := 0 } ∧
        ∀ i : Fin 16, 1 ≤ i.val → q[i] = demux s.cfg.packedOrder (Memory.read s.palrom (base.toNat + (i.val - 1)))) ∧
    (s.ctrl.palMode = .raw16 → base.toNat + 16 ≤ s.cfg.palromWords →
      ∃ q : Vector PalEntry 16, exec .paldec s = .next { s with
          pal := q, palValid := true, palShiny := s.ctrl.palSel } ∧
        q[0] = { opaq := false, r := 0, g := 0, b := 0 } ∧
        ∀ i : Fin 16, 1 ≤ i.val → q[i] = demux s.cfg.packedOrder (Memory.read s.palrom (base.toNat + i.val)))

/-- R243, R244, R85: in the packed modes the first word whose address does not exist raises PalromAddress with that
address; the table is then not valid. -/
def Obligations.PaldecPackedFault : Prop :=
  ∀ (s : State) (base : Word) (k : Nat), s.fault.kind = 0 → s.rstate ≠ .run →
    base = (if s.ctrl.palSel then s.palBase1 else s.palBase0) →
    ((s.ctrl.palMode = .raw15 ∧ k < 15) ∨ (s.ctrl.palMode = .raw16 ∧ k < 16)) →
    (∀ j < k, base.toNat + j < s.cfg.palromWords) → s.cfg.palromWords ≤ base.toNat + k →
    ∃ q : Vector PalEntry 16, exec .paldec s = .next
      ({ s with pal := q, palValid := false }.faultedWith 4 3 15 (BitVec.ofNat 32 (base.toNat + k)))

/-- R241, R242: `PALDEC` in HUFF mode decodes exactly 45 symbols of at most 31 through tree 4 and cursor 4, set to the
palette's start and end, into entries 1 to 15, red, green, blue in turn, all opaque (HUFF_OPAQUE, U12). -/
def Obligations.PaldecHuffman : Prop :=
  ∀ (s : State) (tr : CodeTree) (codes : List (List Bool × Byte)), s.fault.kind = 0 → s.rstate ≠ .run →
    s.ctrl.palMode = .huff → TreeHolds s .col tr → CodesOf tr codes → codes.length = 45 →
    (∀ x ∈ codes, x.2.toNat ≤ 31) →
    StreamHolds (s.setCur .col { s.cur.get .col with
      off := if s.ctrl.palSel then s.palBase1 else s.palBase0
      lim := if s.ctrl.palSel then s.palEnd1 else s.palEnd0 }) .col (codeBits codes) →
    ∃ q : Vector PalEntry 16, exec .paldec s = .next { s with
        cur := s.cur.set .col { s.cur.get .col with
          off := BitVec.ofNat 32 ((if s.ctrl.palSel then s.palBase1 else s.palBase0).toNat + (codeBits codes).length)
          lim := if s.ctrl.palSel then s.palEnd1 else s.palEnd0 }
        pal := q
        palValid := true
        palShiny := s.ctrl.palSel } ∧
      q[0] = { opaq := false, r := 0, g := 0, b := 0 } ∧
      ∀ (i : Fin 16) (r g b : List Bool × Byte), 1 ≤ i.val → codes[3 * (i.val - 1)]? = some r →
        codes[3 * (i.val - 1) + 1]? = some g → codes[3 * (i.val - 1) + 2]? = some b →
        q[i] = { opaq := true, r := r.2.setWidth 5, g := g.2.setWidth 5, b := b.2.setWidth 5 }

/-- R242, R241: a colour symbol above 31 raises ColorRange right after it is decoded, with the bit offset after it; the
table is then not valid. -/
def Obligations.PaldecColourRange : Prop :=
  ∀ (s : State) (tr : CodeTree) (codes : List (List Bool × Byte)) (last : List Bool × Byte), s.fault.kind = 0 →
    s.rstate ≠ .run → s.ctrl.palMode = .huff → TreeHolds s .col tr → CodesOf tr (codes ++ [last]) →
    codes.length < 45 → (∀ x ∈ codes, x.2.toNat ≤ 31) → 31 < last.2.toNat →
    StreamHolds (s.setCur .col { s.cur.get .col with
      off := if s.ctrl.palSel then s.palBase1 else s.palBase0
      lim := if s.ctrl.palSel then s.palEnd1 else s.palEnd0 }) .col (codeBits (codes ++ [last])) →
    ∃ (q : Vector PalEntry 16) (e : Word),
      e = BitVec.ofNat 32 ((if s.ctrl.palSel then s.palBase1 else s.palBase0).toNat +
        (codeBits (codes ++ [last])).length) ∧
      exec .paldec s = .next
        ({ s with
          cur := s.cur.set .col { s.cur.get .col with
            off := e
            lim := if s.ctrl.palSel then s.palEnd1 else s.palEnd0 }
          pal := q
          palValid := false }.faultedWith 1 12 4 e)

/-- R243, R244, R245, `PALWORD`: the demultiplexed word goes to the entry the counter is at, entry 0 excepted; the
counter advances (log 8, and log 19 for entry 0 outside RAW16). -/
def Obligations.PalwordStores : Prop :=
  ∀ (s : State) (o : Bool) (r g b : BitVec 5), s.fault.kind = 0 →
    (s.work.entry = 0 → exec (.palword o r g b) s = .next { s with work := { s.work with entry := 1 } }) ∧
    (s.work.entry ≠ 0 → ∃ q : Vector PalEntry 16, exec (.palword o r g b) s = .next { s with
        pal := q, work := { s.work with entry := s.work.entry + 1 } } ∧
      ∀ j : Fin 16, q[j] = if j.val = s.work.entry.toNat then { opaq := o, r := r, g := g, b := b } else s.pal[j])

/-- R242, R116, R29, the colour triple: at an entry the spec codes, 1 to 15, three symbols of at most 31 are stored there,
opaque (U12), every other entry, entry 0 among them, as before; the first symbol above 31 raises ColorRange. The counter is the model's (log 8),
and so is what a triple executed alone does at entry 0: it is discarded (log 19). -/
def Obligations.ColourTripleStores : Prop :=
  ∀ (s : State) (r g b : Byte), s.fault.kind = 0 →
    (r.toNat ≤ 31 → g.toNat ≤ 31 → b.toNat ≤ 31 → s.work.entry ≠ 0 →
      ∃ q : Vector PalEntry 16, exec (.colourTriple r g b) s = .next { s with
          pal := q, work := { s.work with entry := s.work.entry + 1 } } ∧
        ∀ j : Fin 16, q[j] = if j.val = s.work.entry.toNat
          then { opaq := true, r := r.setWidth 5, g := g.setWidth 5, b := b.setWidth 5 } else s.pal[j]) ∧
    (r.toNat ≤ 31 → g.toNat ≤ 31 → b.toNat ≤ 31 → s.work.entry = 0 →
      exec (.colourTriple r g b) s = .next { s with work := { s.work with entry := 1 } }) ∧
    (31 < r.toNat ∨ 31 < g.toNat ∨ 31 < b.toNat →
      exec (.colourTriple r g b) s = .next (s.faultedWith 1 12 4 (s.cur.get .col).off))

/-- Where the channels of a packed word lie: R245 and R115 with the two values of PACKED_ORDER (U11). The positions of the
channels are not the source's: the default is general knowledge (K1, log 18, PRESUMED). The decoder reads them there
too. -/
def Obligations.DemuxChannels : Prop :=
  ∀ w : Half,
    (demux .rgbHigh w).r.toNat = w.toNat / 2 ^ 10 % 32 ∧ (demux .rgbHigh w).g.toNat = w.toNat / 2 ^ 5 % 32 ∧
    (demux .rgbHigh w).b.toNat = w.toNat % 32 ∧ ((demux .rgbHigh w).opaq = true ↔ 2 ^ 15 ≤ w.toNat) ∧
    (demux .bgrHigh w).b.toNat = w.toNat / 2 ^ 10 % 32 ∧ (demux .bgrHigh w).g.toNat = w.toNat / 2 ^ 5 % 32 ∧
    (demux .bgrHigh w).r.toNat = w.toNat % 32 ∧ ((demux .bgrHigh w).opaq = true ↔ 2 ^ 15 ≤ w.toNat) ∧
    ∀ c : Ctx, decode c .palword (w.setWidth 32) =
      .ok (.palword (demux c.order w).opaq (demux c.order w).r (demux c.order w).g (demux c.order w).b)

/-! The whole machine. -/

/-- The state after reset is one the invariant allows. -/
def Obligations.ResetInv : Prop := Inv State.reset

/-- R26, R27, R29, R32, R35, R40 and the memories' form: what holds between host accesses is kept by every step. -/
def Obligations.StepKeepsInv : Prop := ∀ s t : State, Inv s → step s = .next t → Inv t

/-- R338: every input the host can give has a result: a step answers a next state unless the host writes to PMEM or
PALROM where R82 forbids it (log 11). -/
def Obligations.StepNeverStops : Prop := ∀ s : State, Inv s → HostObeys s → ∃ t, step s = .next t

/-- Which instruction may change what (R20, R27, R28, R33, R35, R36, R70, R164, R190, R250): PMEM, PALROM, the
parameters and the host's side never; the registers the host writes, `SRESET` only; each other piece only the
instructions named. -/
def Obligations.ExecFrame : Prop :=
  ∀ (i : Instr) (s t : State), exec i s = .next t →
    (t.cfg = s.cfg ∧ t.pmem = s.pmem ∧ t.palrom = s.palrom ∧ t.pending = s.pending ∧ t.returned = s.returned) ∧
    (i ≠ .sreset →
      (t.hdr = s.hdr ∧ t.width = s.width ∧ t.height = s.height ∧ t.ctrl = s.ctrl ∧ t.rbufAddr = s.rbufAddr ∧
        t.lutIdx = s.lutIdx ∧ t.palBase0 = s.palBase0 ∧ t.palBase1 = s.palBase1 ∧ t.palEnd0 = s.palEnd0 ∧
        t.palEnd1 = s.palEnd1) ∧
      ((∀ c, i ≠ .rdbit c) → (∀ c, i ≠ .decode c) → t.result = s.result) ∧
      ((∀ c, i ≠ .build c) → i ≠ .node → i ≠ .leaf → t.tree = s.tree) ∧
      (i ≠ .rstart → i ≠ .rstep → i ≠ .rrun → t.npix = s.npix ∧ t.rstate = s.rstate) ∧
      (i ≠ .rstart → i ≠ .rstep → i ≠ .rrun → tokenView s.width i = none →
        t.rbuf = s.rbuf ∧ t.bufpos = s.bufpos ∧ t.lasttok = s.lasttok ∧ t.lastoff = s.lastoff) ∧
      (i ≠ .paldec → i.format ≠ .palword → i.format ≠ .colour → t.pal = s.pal) ∧
      (i ≠ .paldec → t.palValid = s.palValid ∧ t.palShiny = s.palShiny) ∧
      ((∀ c, i ≠ .rdbit c) → (∀ c, i ≠ .decode c) → i ≠ .left → i ≠ .right → i ≠ .rstep → i ≠ .rrun → i ≠ .paldec →
        t.cur = s.cur) ∧
      (i.format = .cmd ∨ tokenView s.width i ≠ none → t.work = s.work))

/-! Encoding. -/

/-- Decoding the encoded word of a well-formed instruction, in its format, gives the instruction back, with every
operand at every value its encoding admits; a QUAD token's class holds at the WIDTH (R113). -/
def Obligations.DecodeEncode : Prop :=
  ∀ (c : Ctx) (i : Instr), i.wellFormed = true → i.classHolds c.width = true →
    decode c i.format (encode c i) = .ok i

/-- A word that decodes is the word its instruction encodes to, so no word has two readings in one format; except for a
selector above 4, what is decoded is well-formed. -/
def Obligations.EncodeDecode : Prop :=
  ∀ (c : Ctx) (f : Format) (w : Word) (i : Instr), decode c f w = .ok i →
    encode c i = w ∧ i.format = f ∧ i.classHolds c.width = true ∧
    (i.wellFormed = true ∨ ∃ sel : BitVec 4, 4 < sel.toNat ∧ (i = .build sel ∨ i = .decode sel ∨ i = .rdbit sel))

/-- Words written out from the spec's encodings: R102, R105, R107, R111, R113, R115. -/
def Obligations.WrittenWordsDecode : Prop :=
  decodeTableWord 32 0x00000301 = some (.build 3) ∧
  decodeTableWord 32 0x00000402 = some (.decode 4) ∧
  decodeTableWord 32 0x0000000F = some .sreset ∧
  decodeTableWord 8 0b0 = some .node ∧ decodeTableWord 8 0b1 = some .leaf ∧
  decode .atReset .path 0b0 = .ok .left ∧ decode .atReset .path 0b1 = .ok .right ∧
  decode .atReset .tokenDelta 0x00000009 = .ok (.litDelta 9) ∧
  decode .atReset .tokenDelta 0x00000302 = .ok (.fillDelta 3 2) ∧
  decode .atReset .tokenDelta 0x00010507 = .ok (.copyDelta 1 5 7) ∧
  decode { width := 64, order := .rgbHigh } .tokenQuad 0x02000005 = .ok (.litQuad 2 0 5) ∧
  decode { width := 64, order := .rgbHigh } .tokenQuad 0x01400305 = .ok (.fillQuad 1 64 3 5) ∧
  decodeTableWord 16 0xFC00 = some (.palword true 31 0 0)

end
end

