-- ==== Sys2Proof/Laws/State.lean ====
section
/-! SUPPORT. One lemma per field per update of State, true by rfl, so that no proof unfolds an update; the laws of
one value per role. -/

namespace Sys2Proof.Machine

variable {α : Type}

@[simp] theorem PerRole.get_set_self (p : PerRole α) (t : Role) (x : α) : (p.set t x).get t = x := by
  cases t <;> rfl

theorem PerRole.get_set_ne (p : PerRole α) {t u : Role} (h : u ≠ t) (x : α) : (p.set t x).get u = p.get u := by
  cases t <;> cases u <;> first | rfl | exact absurd rfl h

theorem PerRole.get_set (p : PerRole α) (t u : Role) (x : α) :
    (p.set t x).get u = if u = t then x else p.get u := by
  cases t <;> cases u <;> rfl

@[simp] theorem PerRole.set_set (p : PerRole α) (t : Role) (x y : α) : (p.set t x).set t y = p.set t y := by
  cases t <;> rfl

@[simp] theorem PerRole.set_get (p : PerRole α) (t : Role) : p.set t (p.get t) = p := by
  cases t <;> rfl

theorem PerRole.set_comm (p : PerRole α) {t u : Role} (h : t ≠ u) (x y : α) :
    (p.set t x).set u y = (p.set u y).set t x := by
  cases t <;> cases u <;> first | rfl | exact absurd rfl h

@[simp] theorem PerRole.all_get (x : α) (t : Role) : (PerRole.all x).get t = x := by
  cases t <;> rfl

@[simp] theorem Role.ofSel_sel (t : Role) : Role.ofSel t.sel = some t := by
  cases t <;> rfl

@[simp] theorem State.setCur_cfg (s : State) (c : Role) (x : Cursor) : (s.setCur c x).cfg = s.cfg := rfl
@[simp] theorem State.setCur_pmem (s : State) (c : Role) (x : Cursor) : (s.setCur c x).pmem = s.pmem := rfl
@[simp] theorem State.setCur_palrom (s : State) (c : Role) (x : Cursor) : (s.setCur c x).palrom = s.palrom := rfl
@[simp] theorem State.setCur_cur (s : State) (c : Role) (x : Cursor) : (s.setCur c x).cur = s.cur.set c x := rfl
@[simp] theorem State.setCur_hdr (s : State) (c : Role) (x : Cursor) : (s.setCur c x).hdr = s.hdr := rfl
@[simp] theorem State.setCur_tree (s : State) (c : Role) (x : Cursor) : (s.setCur c x).tree = s.tree := rfl
@[simp] theorem State.setCur_rbuf (s : State) (c : Role) (x : Cursor) : (s.setCur c x).rbuf = s.rbuf := rfl
@[simp] theorem State.setCur_width (s : State) (c : Role) (x : Cursor) : (s.setCur c x).width = s.width := rfl
@[simp] theorem State.setCur_height (s : State) (c : Role) (x : Cursor) : (s.setCur c x).height = s.height := rfl
@[simp] theorem State.setCur_bufpos (s : State) (c : Role) (x : Cursor) : (s.setCur c x).bufpos = s.bufpos := rfl
@[simp] theorem State.setCur_npix (s : State) (c : Role) (x : Cursor) : (s.setCur c x).npix = s.npix := rfl
@[simp] theorem State.setCur_rstate (s : State) (c : Role) (x : Cursor) : (s.setCur c x).rstate = s.rstate := rfl
@[simp] theorem State.setCur_lasttok (s : State) (c : Role) (x : Cursor) : (s.setCur c x).lasttok = s.lasttok := rfl
@[simp] theorem State.setCur_lastoff (s : State) (c : Role) (x : Cursor) : (s.setCur c x).lastoff = s.lastoff := rfl
@[simp] theorem State.setCur_pal (s : State) (c : Role) (x : Cursor) : (s.setCur c x).pal = s.pal := rfl
@[simp] theorem State.setCur_palValid (s : State) (c : Role) (x : Cursor) : (s.setCur c x).palValid = s.palValid := rfl
@[simp] theorem State.setCur_palShiny (s : State) (c : Role) (x : Cursor) : (s.setCur c x).palShiny = s.palShiny := rfl
@[simp] theorem State.setCur_palBase0 (s : State) (c : Role) (x : Cursor) : (s.setCur c x).palBase0 = s.palBase0 := rfl
@[simp] theorem State.setCur_palBase1 (s : State) (c : Role) (x : Cursor) : (s.setCur c x).palBase1 = s.palBase1 := rfl
@[simp] theorem State.setCur_palEnd0 (s : State) (c : Role) (x : Cursor) : (s.setCur c x).palEnd0 = s.palEnd0 := rfl
@[simp] theorem State.setCur_palEnd1 (s : State) (c : Role) (x : Cursor) : (s.setCur c x).palEnd1 = s.palEnd1 := rfl
@[simp] theorem State.setCur_ctrl (s : State) (c : Role) (x : Cursor) : (s.setCur c x).ctrl = s.ctrl := rfl
@[simp] theorem State.setCur_fault (s : State) (c : Role) (x : Cursor) : (s.setCur c x).fault = s.fault := rfl
@[simp] theorem State.setCur_faddr (s : State) (c : Role) (x : Cursor) : (s.setCur c x).faddr = s.faddr := rfl
@[simp] theorem State.setCur_result (s : State) (c : Role) (x : Cursor) : (s.setCur c x).result = s.result := rfl
@[simp] theorem State.setCur_rbufAddr (s : State) (c : Role) (x : Cursor) : (s.setCur c x).rbufAddr = s.rbufAddr := rfl
@[simp] theorem State.setCur_lutIdx (s : State) (c : Role) (x : Cursor) : (s.setCur c x).lutIdx = s.lutIdx := rfl
@[simp] theorem State.setCur_work (s : State) (c : Role) (x : Cursor) : (s.setCur c x).work = s.work := rfl
@[simp] theorem State.setCur_pending (s : State) (c : Role) (x : Cursor) : (s.setCur c x).pending = s.pending := rfl
@[simp] theorem State.setCur_returned (s : State) (c : Role) (x : Cursor) : (s.setCur c x).returned = s.returned := rfl

@[simp] theorem State.setHdr_cfg (s : State) (t : Role) (x : Header) : (s.setHdr t x).cfg = s.cfg := rfl
@[simp] theorem State.setHdr_pmem (s : State) (t : Role) (x : Header) : (s.setHdr t x).pmem = s.pmem := rfl
@[simp] theorem State.setHdr_palrom (s : State) (t : Role) (x : Header) : (s.setHdr t x).palrom = s.palrom := rfl
@[simp] theorem State.setHdr_cur (s : State) (t : Role) (x : Header) : (s.setHdr t x).cur = s.cur := rfl
@[simp] theorem State.setHdr_hdr (s : State) (t : Role) (x : Header) : (s.setHdr t x).hdr = s.hdr.set t x := rfl
@[simp] theorem State.setHdr_tree (s : State) (t : Role) (x : Header) : (s.setHdr t x).tree = s.tree := rfl
@[simp] theorem State.setHdr_rbuf (s : State) (t : Role) (x : Header) : (s.setHdr t x).rbuf = s.rbuf := rfl
@[simp] theorem State.setHdr_width (s : State) (t : Role) (x : Header) : (s.setHdr t x).width = s.width := rfl
@[simp] theorem State.setHdr_height (s : State) (t : Role) (x : Header) : (s.setHdr t x).height = s.height := rfl
@[simp] theorem State.setHdr_bufpos (s : State) (t : Role) (x : Header) : (s.setHdr t x).bufpos = s.bufpos := rfl
@[simp] theorem State.setHdr_npix (s : State) (t : Role) (x : Header) : (s.setHdr t x).npix = s.npix := rfl
@[simp] theorem State.setHdr_rstate (s : State) (t : Role) (x : Header) : (s.setHdr t x).rstate = s.rstate := rfl
@[simp] theorem State.setHdr_lasttok (s : State) (t : Role) (x : Header) : (s.setHdr t x).lasttok = s.lasttok := rfl
@[simp] theorem State.setHdr_lastoff (s : State) (t : Role) (x : Header) : (s.setHdr t x).lastoff = s.lastoff := rfl
@[simp] theorem State.setHdr_pal (s : State) (t : Role) (x : Header) : (s.setHdr t x).pal = s.pal := rfl
@[simp] theorem State.setHdr_palValid (s : State) (t : Role) (x : Header) : (s.setHdr t x).palValid = s.palValid := rfl
@[simp] theorem State.setHdr_palShiny (s : State) (t : Role) (x : Header) : (s.setHdr t x).palShiny = s.palShiny := rfl
@[simp] theorem State.setHdr_palBase0 (s : State) (t : Role) (x : Header) : (s.setHdr t x).palBase0 = s.palBase0 := rfl
@[simp] theorem State.setHdr_palBase1 (s : State) (t : Role) (x : Header) : (s.setHdr t x).palBase1 = s.palBase1 := rfl
@[simp] theorem State.setHdr_palEnd0 (s : State) (t : Role) (x : Header) : (s.setHdr t x).palEnd0 = s.palEnd0 := rfl
@[simp] theorem State.setHdr_palEnd1 (s : State) (t : Role) (x : Header) : (s.setHdr t x).palEnd1 = s.palEnd1 := rfl
@[simp] theorem State.setHdr_ctrl (s : State) (t : Role) (x : Header) : (s.setHdr t x).ctrl = s.ctrl := rfl
@[simp] theorem State.setHdr_fault (s : State) (t : Role) (x : Header) : (s.setHdr t x).fault = s.fault := rfl
@[simp] theorem State.setHdr_faddr (s : State) (t : Role) (x : Header) : (s.setHdr t x).faddr = s.faddr := rfl
@[simp] theorem State.setHdr_result (s : State) (t : Role) (x : Header) : (s.setHdr t x).result = s.result := rfl
@[simp] theorem State.setHdr_rbufAddr (s : State) (t : Role) (x : Header) : (s.setHdr t x).rbufAddr = s.rbufAddr := rfl
@[simp] theorem State.setHdr_lutIdx (s : State) (t : Role) (x : Header) : (s.setHdr t x).lutIdx = s.lutIdx := rfl
@[simp] theorem State.setHdr_work (s : State) (t : Role) (x : Header) : (s.setHdr t x).work = s.work := rfl
@[simp] theorem State.setHdr_pending (s : State) (t : Role) (x : Header) : (s.setHdr t x).pending = s.pending := rfl
@[simp] theorem State.setHdr_returned (s : State) (t : Role) (x : Header) : (s.setHdr t x).returned = s.returned := rfl

@[simp] theorem State.setTree_cfg (s : State) (t : Role) (x : TreeMem) : (s.setTree t x).cfg = s.cfg := rfl
@[simp] theorem State.setTree_pmem (s : State) (t : Role) (x : TreeMem) : (s.setTree t x).pmem = s.pmem := rfl
@[simp] theorem State.setTree_palrom (s : State) (t : Role) (x : TreeMem) : (s.setTree t x).palrom = s.palrom := rfl
@[simp] theorem State.setTree_cur (s : State) (t : Role) (x : TreeMem) : (s.setTree t x).cur = s.cur := rfl
@[simp] theorem State.setTree_hdr (s : State) (t : Role) (x : TreeMem) : (s.setTree t x).hdr = s.hdr := rfl
@[simp] theorem State.setTree_tree (s : State) (t : Role) (x : TreeMem) : (s.setTree t x).tree = s.tree.set t x := rfl
@[simp] theorem State.setTree_rbuf (s : State) (t : Role) (x : TreeMem) : (s.setTree t x).rbuf = s.rbuf := rfl
@[simp] theorem State.setTree_width (s : State) (t : Role) (x : TreeMem) : (s.setTree t x).width = s.width := rfl
@[simp] theorem State.setTree_height (s : State) (t : Role) (x : TreeMem) : (s.setTree t x).height = s.height := rfl
@[simp] theorem State.setTree_bufpos (s : State) (t : Role) (x : TreeMem) : (s.setTree t x).bufpos = s.bufpos := rfl
@[simp] theorem State.setTree_npix (s : State) (t : Role) (x : TreeMem) : (s.setTree t x).npix = s.npix := rfl
@[simp] theorem State.setTree_rstate (s : State) (t : Role) (x : TreeMem) : (s.setTree t x).rstate = s.rstate := rfl
@[simp] theorem State.setTree_lasttok (s : State) (t : Role) (x : TreeMem) : (s.setTree t x).lasttok = s.lasttok := rfl
@[simp] theorem State.setTree_lastoff (s : State) (t : Role) (x : TreeMem) : (s.setTree t x).lastoff = s.lastoff := rfl
@[simp] theorem State.setTree_pal (s : State) (t : Role) (x : TreeMem) : (s.setTree t x).pal = s.pal := rfl
@[simp] theorem State.setTree_palValid (s : State) (t : Role) (x : TreeMem) : (s.setTree t x).palValid = s.palValid := rfl
@[simp] theorem State.setTree_palShiny (s : State) (t : Role) (x : TreeMem) : (s.setTree t x).palShiny = s.palShiny := rfl
@[simp] theorem State.setTree_palBase0 (s : State) (t : Role) (x : TreeMem) : (s.setTree t x).palBase0 = s.palBase0 := rfl
@[simp] theorem State.setTree_palBase1 (s : State) (t : Role) (x : TreeMem) : (s.setTree t x).palBase1 = s.palBase1 := rfl
@[simp] theorem State.setTree_palEnd0 (s : State) (t : Role) (x : TreeMem) : (s.setTree t x).palEnd0 = s.palEnd0 := rfl
@[simp] theorem State.setTree_palEnd1 (s : State) (t : Role) (x : TreeMem) : (s.setTree t x).palEnd1 = s.palEnd1 := rfl
@[simp] theorem State.setTree_ctrl (s : State) (t : Role) (x : TreeMem) : (s.setTree t x).ctrl = s.ctrl := rfl
@[simp] theorem State.setTree_fault (s : State) (t : Role) (x : TreeMem) : (s.setTree t x).fault = s.fault := rfl
@[simp] theorem State.setTree_faddr (s : State) (t : Role) (x : TreeMem) : (s.setTree t x).faddr = s.faddr := rfl
@[simp] theorem State.setTree_result (s : State) (t : Role) (x : TreeMem) : (s.setTree t x).result = s.result := rfl
@[simp] theorem State.setTree_rbufAddr (s : State) (t : Role) (x : TreeMem) : (s.setTree t x).rbufAddr = s.rbufAddr := rfl
@[simp] theorem State.setTree_lutIdx (s : State) (t : Role) (x : TreeMem) : (s.setTree t x).lutIdx = s.lutIdx := rfl
@[simp] theorem State.setTree_work (s : State) (t : Role) (x : TreeMem) : (s.setTree t x).work = s.work := rfl
@[simp] theorem State.setTree_pending (s : State) (t : Role) (x : TreeMem) : (s.setTree t x).pending = s.pending := rfl
@[simp] theorem State.setTree_returned (s : State) (t : Role) (x : TreeMem) : (s.setTree t x).returned = s.returned := rfl

@[simp] theorem State.setPal_cfg (s : State) (i : BitVec 4) (e : PalEntry) : (s.setPal i e).cfg = s.cfg := rfl
@[simp] theorem State.setPal_pmem (s : State) (i : BitVec 4) (e : PalEntry) : (s.setPal i e).pmem = s.pmem := rfl
@[simp] theorem State.setPal_palrom (s : State) (i : BitVec 4) (e : PalEntry) : (s.setPal i e).palrom = s.palrom := rfl
@[simp] theorem State.setPal_cur (s : State) (i : BitVec 4) (e : PalEntry) : (s.setPal i e).cur = s.cur := rfl
@[simp] theorem State.setPal_hdr (s : State) (i : BitVec 4) (e : PalEntry) : (s.setPal i e).hdr = s.hdr := rfl
@[simp] theorem State.setPal_tree (s : State) (i : BitVec 4) (e : PalEntry) : (s.setPal i e).tree = s.tree := rfl
@[simp] theorem State.setPal_rbuf (s : State) (i : BitVec 4) (e : PalEntry) : (s.setPal i e).rbuf = s.rbuf := rfl
@[simp] theorem State.setPal_width (s : State) (i : BitVec 4) (e : PalEntry) : (s.setPal i e).width = s.width := rfl
@[simp] theorem State.setPal_height (s : State) (i : BitVec 4) (e : PalEntry) : (s.setPal i e).height = s.height := rfl
@[simp] theorem State.setPal_bufpos (s : State) (i : BitVec 4) (e : PalEntry) : (s.setPal i e).bufpos = s.bufpos := rfl
@[simp] theorem State.setPal_npix (s : State) (i : BitVec 4) (e : PalEntry) : (s.setPal i e).npix = s.npix := rfl
@[simp] theorem State.setPal_rstate (s : State) (i : BitVec 4) (e : PalEntry) : (s.setPal i e).rstate = s.rstate := rfl
@[simp] theorem State.setPal_lasttok (s : State) (i : BitVec 4) (e : PalEntry) : (s.setPal i e).lasttok = s.lasttok := rfl
@[simp] theorem State.setPal_lastoff (s : State) (i : BitVec 4) (e : PalEntry) : (s.setPal i e).lastoff = s.lastoff := rfl
@[simp] theorem State.setPal_pal (s : State) (i : BitVec 4) (e : PalEntry) : (s.setPal i e).pal = s.pal.set i.toNat e (by omega) := rfl
@[simp] theorem State.setPal_palValid (s : State) (i : BitVec 4) (e : PalEntry) : (s.setPal i e).palValid = s.palValid := rfl
@[simp] theorem State.setPal_palShiny (s : State) (i : BitVec 4) (e : PalEntry) : (s.setPal i e).palShiny = s.palShiny := rfl
@[simp] theorem State.setPal_palBase0 (s : State) (i : BitVec 4) (e : PalEntry) : (s.setPal i e).palBase0 = s.palBase0 := rfl
@[simp] theorem State.setPal_palBase1 (s : State) (i : BitVec 4) (e : PalEntry) : (s.setPal i e).palBase1 = s.palBase1 := rfl
@[simp] theorem State.setPal_palEnd0 (s : State) (i : BitVec 4) (e : PalEntry) : (s.setPal i e).palEnd0 = s.palEnd0 := rfl
@[simp] theorem State.setPal_palEnd1 (s : State) (i : BitVec 4) (e : PalEntry) : (s.setPal i e).palEnd1 = s.palEnd1 := rfl
@[simp] theorem State.setPal_ctrl (s : State) (i : BitVec 4) (e : PalEntry) : (s.setPal i e).ctrl = s.ctrl := rfl
@[simp] theorem State.setPal_fault (s : State) (i : BitVec 4) (e : PalEntry) : (s.setPal i e).fault = s.fault := rfl
@[simp] theorem State.setPal_faddr (s : State) (i : BitVec 4) (e : PalEntry) : (s.setPal i e).faddr = s.faddr := rfl
@[simp] theorem State.setPal_result (s : State) (i : BitVec 4) (e : PalEntry) : (s.setPal i e).result = s.result := rfl
@[simp] theorem State.setPal_rbufAddr (s : State) (i : BitVec 4) (e : PalEntry) : (s.setPal i e).rbufAddr = s.rbufAddr := rfl
@[simp] theorem State.setPal_lutIdx (s : State) (i : BitVec 4) (e : PalEntry) : (s.setPal i e).lutIdx = s.lutIdx := rfl
@[simp] theorem State.setPal_work (s : State) (i : BitVec 4) (e : PalEntry) : (s.setPal i e).work = s.work := rfl
@[simp] theorem State.setPal_pending (s : State) (i : BitVec 4) (e : PalEntry) : (s.setPal i e).pending = s.pending := rfl
@[simp] theorem State.setPal_returned (s : State) (i : BitVec 4) (e : PalEntry) : (s.setPal i e).returned = s.returned := rfl

@[simp] theorem State.putByte_cfg (s : State) (v : Byte) : (s.putByte v).cfg = s.cfg := rfl
@[simp] theorem State.putByte_pmem (s : State) (v : Byte) : (s.putByte v).pmem = s.pmem := rfl
@[simp] theorem State.putByte_palrom (s : State) (v : Byte) : (s.putByte v).palrom = s.palrom := rfl
@[simp] theorem State.putByte_cur (s : State) (v : Byte) : (s.putByte v).cur = s.cur := rfl
@[simp] theorem State.putByte_hdr (s : State) (v : Byte) : (s.putByte v).hdr = s.hdr := rfl
@[simp] theorem State.putByte_tree (s : State) (v : Byte) : (s.putByte v).tree = s.tree := rfl
@[simp] theorem State.putByte_rbuf (s : State) (v : Byte) : (s.putByte v).rbuf = Memory.write s.rbuf s.bufpos.toNat v := rfl
@[simp] theorem State.putByte_width (s : State) (v : Byte) : (s.putByte v).width = s.width := rfl
@[simp] theorem State.putByte_height (s : State) (v : Byte) : (s.putByte v).height = s.height := rfl
@[simp] theorem State.putByte_bufpos (s : State) (v : Byte) : (s.putByte v).bufpos = BitVec.ofNat 32 (s.bufpos.toNat + 1) := rfl
@[simp] theorem State.putByte_npix (s : State) (v : Byte) : (s.putByte v).npix = s.npix := rfl
@[simp] theorem State.putByte_rstate (s : State) (v : Byte) : (s.putByte v).rstate = s.rstate := rfl
@[simp] theorem State.putByte_lasttok (s : State) (v : Byte) : (s.putByte v).lasttok = s.lasttok := rfl
@[simp] theorem State.putByte_lastoff (s : State) (v : Byte) : (s.putByte v).lastoff = s.lastoff := rfl
@[simp] theorem State.putByte_pal (s : State) (v : Byte) : (s.putByte v).pal = s.pal := rfl
@[simp] theorem State.putByte_palValid (s : State) (v : Byte) : (s.putByte v).palValid = s.palValid := rfl
@[simp] theorem State.putByte_palShiny (s : State) (v : Byte) : (s.putByte v).palShiny = s.palShiny := rfl
@[simp] theorem State.putByte_palBase0 (s : State) (v : Byte) : (s.putByte v).palBase0 = s.palBase0 := rfl
@[simp] theorem State.putByte_palBase1 (s : State) (v : Byte) : (s.putByte v).palBase1 = s.palBase1 := rfl
@[simp] theorem State.putByte_palEnd0 (s : State) (v : Byte) : (s.putByte v).palEnd0 = s.palEnd0 := rfl
@[simp] theorem State.putByte_palEnd1 (s : State) (v : Byte) : (s.putByte v).palEnd1 = s.palEnd1 := rfl
@[simp] theorem State.putByte_ctrl (s : State) (v : Byte) : (s.putByte v).ctrl = s.ctrl := rfl
@[simp] theorem State.putByte_fault (s : State) (v : Byte) : (s.putByte v).fault = s.fault := rfl
@[simp] theorem State.putByte_faddr (s : State) (v : Byte) : (s.putByte v).faddr = s.faddr := rfl
@[simp] theorem State.putByte_result (s : State) (v : Byte) : (s.putByte v).result = s.result := rfl
@[simp] theorem State.putByte_rbufAddr (s : State) (v : Byte) : (s.putByte v).rbufAddr = s.rbufAddr := rfl
@[simp] theorem State.putByte_lutIdx (s : State) (v : Byte) : (s.putByte v).lutIdx = s.lutIdx := rfl
@[simp] theorem State.putByte_work (s : State) (v : Byte) : (s.putByte v).work = s.work := rfl
@[simp] theorem State.putByte_pending (s : State) (v : Byte) : (s.putByte v).pending = s.pending := rfl
@[simp] theorem State.putByte_returned (s : State) (v : Byte) : (s.putByte v).returned = s.returned := rfl

@[simp] theorem State.leavePhase_cfg (s : State) : s.leavePhase.cfg = s.cfg := rfl
@[simp] theorem State.leavePhase_pmem (s : State) : s.leavePhase.pmem = s.pmem := rfl
@[simp] theorem State.leavePhase_palrom (s : State) : s.leavePhase.palrom = s.palrom := rfl
@[simp] theorem State.leavePhase_cur (s : State) : s.leavePhase.cur = s.cur := rfl
@[simp] theorem State.leavePhase_hdr (s : State) : s.leavePhase.hdr = s.hdr := rfl
@[simp] theorem State.leavePhase_tree (s : State) : s.leavePhase.tree = s.tree := rfl
@[simp] theorem State.leavePhase_rbuf (s : State) : s.leavePhase.rbuf = s.rbuf := rfl
@[simp] theorem State.leavePhase_width (s : State) : s.leavePhase.width = s.width := rfl
@[simp] theorem State.leavePhase_height (s : State) : s.leavePhase.height = s.height := rfl
@[simp] theorem State.leavePhase_bufpos (s : State) : s.leavePhase.bufpos = s.bufpos := rfl
@[simp] theorem State.leavePhase_npix (s : State) : s.leavePhase.npix = s.npix := rfl
@[simp] theorem State.leavePhase_rstate (s : State) : s.leavePhase.rstate = s.rstate := rfl
@[simp] theorem State.leavePhase_lasttok (s : State) : s.leavePhase.lasttok = s.lasttok := rfl
@[simp] theorem State.leavePhase_lastoff (s : State) : s.leavePhase.lastoff = s.lastoff := rfl
@[simp] theorem State.leavePhase_pal (s : State) : s.leavePhase.pal = s.pal := rfl
@[simp] theorem State.leavePhase_palValid (s : State) : s.leavePhase.palValid = s.palValid := rfl
@[simp] theorem State.leavePhase_palShiny (s : State) : s.leavePhase.palShiny = s.palShiny := rfl
@[simp] theorem State.leavePhase_palBase0 (s : State) : s.leavePhase.palBase0 = s.palBase0 := rfl
@[simp] theorem State.leavePhase_palBase1 (s : State) : s.leavePhase.palBase1 = s.palBase1 := rfl
@[simp] theorem State.leavePhase_palEnd0 (s : State) : s.leavePhase.palEnd0 = s.palEnd0 := rfl
@[simp] theorem State.leavePhase_palEnd1 (s : State) : s.leavePhase.palEnd1 = s.palEnd1 := rfl
@[simp] theorem State.leavePhase_ctrl (s : State) : s.leavePhase.ctrl = s.ctrl := rfl
@[simp] theorem State.leavePhase_fault (s : State) : s.leavePhase.fault = s.fault := rfl
@[simp] theorem State.leavePhase_faddr (s : State) : s.leavePhase.faddr = s.faddr := rfl
@[simp] theorem State.leavePhase_result (s : State) : s.leavePhase.result = s.result := rfl
@[simp] theorem State.leavePhase_rbufAddr (s : State) : s.leavePhase.rbufAddr = s.rbufAddr := rfl
@[simp] theorem State.leavePhase_lutIdx (s : State) : s.leavePhase.lutIdx = s.lutIdx := rfl
@[simp] theorem State.leavePhase_work (s : State) : s.leavePhase.work = { s.work with phase := .idle } := rfl
@[simp] theorem State.leavePhase_pending (s : State) : s.leavePhase.pending = s.pending := rfl
@[simp] theorem State.leavePhase_returned (s : State) : s.leavePhase.returned = s.returned := rfl

@[simp] theorem latchToken_cfg (dy dx n v : Byte) (o : Int) (s : State) :
    (latchToken dy dx n v o s).cfg = s.cfg := rfl
@[simp] theorem latchToken_pmem (dy dx n v : Byte) (o : Int) (s : State) :
    (latchToken dy dx n v o s).pmem = s.pmem := rfl
@[simp] theorem latchToken_palrom (dy dx n v : Byte) (o : Int) (s : State) :
    (latchToken dy dx n v o s).palrom = s.palrom := rfl
@[simp] theorem latchToken_cur (dy dx n v : Byte) (o : Int) (s : State) :
    (latchToken dy dx n v o s).cur = s.cur := rfl
@[simp] theorem latchToken_hdr (dy dx n v : Byte) (o : Int) (s : State) :
    (latchToken dy dx n v o s).hdr = s.hdr := rfl
@[simp] theorem latchToken_tree (dy dx n v : Byte) (o : Int) (s : State) :
    (latchToken dy dx n v o s).tree = s.tree := rfl
@[simp] theorem latchToken_rbuf (dy dx n v : Byte) (o : Int) (s : State) :
    (latchToken dy dx n v o s).rbuf = s.rbuf := rfl
@[simp] theorem latchToken_width (dy dx n v : Byte) (o : Int) (s : State) :
    (latchToken dy dx n v o s).width = s.width := rfl
@[simp] theorem latchToken_height (dy dx n v : Byte) (o : Int) (s : State) :
    (latchToken dy dx n v o s).height = s.height := rfl
@[simp] theorem latchToken_bufpos (dy dx n v : Byte) (o : Int) (s : State) :
    (latchToken dy dx n v o s).bufpos = s.bufpos := rfl
@[simp] theorem latchToken_npix (dy dx n v : Byte) (o : Int) (s : State) :
    (latchToken dy dx n v o s).npix = s.npix := rfl
@[simp] theorem latchToken_rstate (dy dx n v : Byte) (o : Int) (s : State) :
    (latchToken dy dx n v o s).rstate = s.rstate := rfl
@[simp] theorem latchToken_lasttok (dy dx n v : Byte) (o : Int) (s : State) :
    (latchToken dy dx n v o s).lasttok = tupleWord dy dx n v := rfl
@[simp] theorem latchToken_lastoff (dy dx n v : Byte) (o : Int) (s : State) :
    (latchToken dy dx n v o s).lastoff = BitVec.ofInt 32 o := rfl
@[simp] theorem latchToken_pal (dy dx n v : Byte) (o : Int) (s : State) :
    (latchToken dy dx n v o s).pal = s.pal := rfl
@[simp] theorem latchToken_palValid (dy dx n v : Byte) (o : Int) (s : State) :
    (latchToken dy dx n v o s).palValid = s.palValid := rfl
@[simp] theorem latchToken_palShiny (dy dx n v : Byte) (o : Int) (s : State) :
    (latchToken dy dx n v o s).palShiny = s.palShiny := rfl
@[simp] theorem latchToken_palBase0 (dy dx n v : Byte) (o : Int) (s : State) :
    (latchToken dy dx n v o s).palBase0 = s.palBase0 := rfl
@[simp] theorem latchToken_palBase1 (dy dx n v : Byte) (o : Int) (s : State) :
    (latchToken dy dx n v o s).palBase1 = s.palBase1 := rfl
@[simp] theorem latchToken_palEnd0 (dy dx n v : Byte) (o : Int) (s : State) :
    (latchToken dy dx n v o s).palEnd0 = s.palEnd0 := rfl
@[simp] theorem latchToken_palEnd1 (dy dx n v : Byte) (o : Int) (s : State) :
    (latchToken dy dx n v o s).palEnd1 = s.palEnd1 := rfl
@[simp] theorem latchToken_ctrl (dy dx n v : Byte) (o : Int) (s : State) :
    (latchToken dy dx n v o s).ctrl = s.ctrl := rfl
@[simp] theorem latchToken_fault (dy dx n v : Byte) (o : Int) (s : State) :
    (latchToken dy dx n v o s).fault = s.fault := rfl
@[simp] theorem latchToken_faddr (dy dx n v : Byte) (o : Int) (s : State) :
    (latchToken dy dx n v o s).faddr = s.faddr := rfl
@[simp] theorem latchToken_result (dy dx n v : Byte) (o : Int) (s : State) :
    (latchToken dy dx n v o s).result = s.result := rfl
@[simp] theorem latchToken_rbufAddr (dy dx n v : Byte) (o : Int) (s : State) :
    (latchToken dy dx n v o s).rbufAddr = s.rbufAddr := rfl
@[simp] theorem latchToken_lutIdx (dy dx n v : Byte) (o : Int) (s : State) :
    (latchToken dy dx n v o s).lutIdx = s.lutIdx := rfl
@[simp] theorem latchToken_work (dy dx n v : Byte) (o : Int) (s : State) :
    (latchToken dy dx n v o s).work = s.work := rfl
@[simp] theorem latchToken_pending (dy dx n v : Byte) (o : Int) (s : State) :
    (latchToken dy dx n v o s).pending = s.pending := rfl
@[simp] theorem latchToken_returned (dy dx n v : Byte) (o : Int) (s : State) :
    (latchToken dy dx n v o s).returned = s.returned := rfl

@[simp] theorem raise_cfg (c : Cause) (u : BitVec 4) (a : Nat) (s : State) : (raise c u a s).cfg = s.cfg := by
  unfold raise; split <;> rfl
@[simp] theorem raise_pmem (c : Cause) (u : BitVec 4) (a : Nat) (s : State) : (raise c u a s).pmem = s.pmem := by
  unfold raise; split <;> rfl
@[simp] theorem raise_palrom (c : Cause) (u : BitVec 4) (a : Nat) (s : State) : (raise c u a s).palrom = s.palrom := by
  unfold raise; split <;> rfl
@[simp] theorem raise_cur (c : Cause) (u : BitVec 4) (a : Nat) (s : State) : (raise c u a s).cur = s.cur := by
  unfold raise; split <;> rfl
@[simp] theorem raise_hdr (c : Cause) (u : BitVec 4) (a : Nat) (s : State) : (raise c u a s).hdr = s.hdr := by
  unfold raise; split <;> rfl
@[simp] theorem raise_tree (c : Cause) (u : BitVec 4) (a : Nat) (s : State) : (raise c u a s).tree = s.tree := by
  unfold raise; split <;> rfl
@[simp] theorem raise_rbuf (c : Cause) (u : BitVec 4) (a : Nat) (s : State) : (raise c u a s).rbuf = s.rbuf := by
  unfold raise; split <;> rfl
@[simp] theorem raise_width (c : Cause) (u : BitVec 4) (a : Nat) (s : State) : (raise c u a s).width = s.width := by
  unfold raise; split <;> rfl
@[simp] theorem raise_height (c : Cause) (u : BitVec 4) (a : Nat) (s : State) : (raise c u a s).height = s.height := by
  unfold raise; split <;> rfl
@[simp] theorem raise_bufpos (c : Cause) (u : BitVec 4) (a : Nat) (s : State) : (raise c u a s).bufpos = s.bufpos := by
  unfold raise; split <;> rfl
@[simp] theorem raise_npix (c : Cause) (u : BitVec 4) (a : Nat) (s : State) : (raise c u a s).npix = s.npix := by
  unfold raise; split <;> rfl
@[simp] theorem raise_rstate (c : Cause) (u : BitVec 4) (a : Nat) (s : State) : (raise c u a s).rstate = s.rstate := by
  unfold raise; split <;> rfl
@[simp] theorem raise_lasttok (c : Cause) (u : BitVec 4) (a : Nat) (s : State) : (raise c u a s).lasttok = s.lasttok := by
  unfold raise; split <;> rfl
@[simp] theorem raise_lastoff (c : Cause) (u : BitVec 4) (a : Nat) (s : State) : (raise c u a s).lastoff = s.lastoff := by
  unfold raise; split <;> rfl
@[simp] theorem raise_pal (c : Cause) (u : BitVec 4) (a : Nat) (s : State) : (raise c u a s).pal = s.pal := by
  unfold raise; split <;> rfl
@[simp] theorem raise_palValid (c : Cause) (u : BitVec 4) (a : Nat) (s : State) : (raise c u a s).palValid = s.palValid := by
  unfold raise; split <;> rfl
@[simp] theorem raise_palShiny (c : Cause) (u : BitVec 4) (a : Nat) (s : State) : (raise c u a s).palShiny = s.palShiny := by
  unfold raise; split <;> rfl
@[simp] theorem raise_palBase0 (c : Cause) (u : BitVec 4) (a : Nat) (s : State) : (raise c u a s).palBase0 = s.palBase0 := by
  unfold raise; split <;> rfl
@[simp] theorem raise_palBase1 (c : Cause) (u : BitVec 4) (a : Nat) (s : State) : (raise c u a s).palBase1 = s.palBase1 := by
  unfold raise; split <;> rfl
@[simp] theorem raise_palEnd0 (c : Cause) (u : BitVec 4) (a : Nat) (s : State) : (raise c u a s).palEnd0 = s.palEnd0 := by
  unfold raise; split <;> rfl
@[simp] theorem raise_palEnd1 (c : Cause) (u : BitVec 4) (a : Nat) (s : State) : (raise c u a s).palEnd1 = s.palEnd1 := by
  unfold raise; split <;> rfl
@[simp] theorem raise_ctrl (c : Cause) (u : BitVec 4) (a : Nat) (s : State) : (raise c u a s).ctrl = s.ctrl := by
  unfold raise; split <;> rfl
@[simp] theorem raise_result (c : Cause) (u : BitVec 4) (a : Nat) (s : State) : (raise c u a s).result = s.result := by
  unfold raise; split <;> rfl
@[simp] theorem raise_rbufAddr (c : Cause) (u : BitVec 4) (a : Nat) (s : State) : (raise c u a s).rbufAddr = s.rbufAddr := by
  unfold raise; split <;> rfl
@[simp] theorem raise_lutIdx (c : Cause) (u : BitVec 4) (a : Nat) (s : State) : (raise c u a s).lutIdx = s.lutIdx := by
  unfold raise; split <;> rfl
@[simp] theorem raise_work (c : Cause) (u : BitVec 4) (a : Nat) (s : State) : (raise c u a s).work = s.work := by
  unfold raise; split <;> rfl
@[simp] theorem raise_pending (c : Cause) (u : BitVec 4) (a : Nat) (s : State) : (raise c u a s).pending = s.pending := by
  unfold raise; split <;> rfl
@[simp] theorem raise_returned (c : Cause) (u : BitVec 4) (a : Nat) (s : State) : (raise c u a s).returned = s.returned := by
  unfold raise; split <;> rfl

/-- R293: what fault entry records when no fault is recorded. -/
theorem raise_of_none {c : Cause} {u : BitVec 4} {a : Nat} {s : State} (h : s.fault.kind = 0) :
    raise c u a s = { s with fault := { kind := c.kind, sub := c.sub, unit := u }, faddr := BitVec.ofNat 32 a } :=
  if_pos h

/-- R294: a later fault changes nothing. -/
theorem raise_of_recorded {c : Cause} {u : BitVec 4} {a : Nat} {s : State} (h : s.fault.kind ≠ 0) :
    raise c u a s = s := if_neg h

/-- No cause has the code of "none" (R290). -/
theorem Cause.kind_ne_zero (c : Cause) : c.kind ≠ 0 := by
  cases c <;> decide

/-- After fault entry a fault is recorded. -/
theorem raise_kind_ne_zero (c : Cause) (u : BitVec 4) (a : Nat) (s : State) : (raise c u a s).fault.kind ≠ 0 := by
  by_cases h : s.fault.kind = 0
  · rw [raise_of_none h]; exact c.kind_ne_zero
  · rw [raise_of_recorded h]; exact h

theorem State.faulted_iff (s : State) : s.faulted = true ↔ s.fault.kind ≠ 0 := by
  simp [State.faulted]

theorem State.not_faulted_iff (s : State) : s.faulted = false ↔ s.fault.kind = 0 := by
  simp [State.faulted]

end Sys2Proof.Machine
end

