-- ==== Sys2Proof/Laws/Memory.lean ====
section
/-! SUPPORT. The laws of the sparse memories: read after write, and that every operation keeps the canonical form. -/

namespace Sys2Proof.Machine

variable {α : Type} {w : Nat}

@[simp] theorem cellsLookup_nil (a : Nat) : cellsLookup ([] : List (Nat × α)) a = none := rfl

theorem cellsLookup_cons (c : Nat × α) (m : List (Nat × α)) (a : Nat) :
    cellsLookup (c :: m) a = if c.1 = a then some c.2 else cellsLookup m a := rfl

theorem cellsLookup_erase (m : List (Nat × α)) (a b : Nat) :
    cellsLookup (cellsErase m a) b = if b = a then none else cellsLookup m b := by
  unfold cellsErase
  induction m with
  | nil => simp
  | cons c m ih => by_cases hc : c.1 = a <;> by_cases hb : c.1 = b <;> by_cases hab : b = a <;> simp_all [cellsLookup_cons]

theorem cellsLookup_insert {m : List (Nat × α)} {a : Nat} (h : cellsLookup m a = none) (v : α) (b : Nat) :
    cellsLookup (cellsInsert m a v) b = if b = a then some v else cellsLookup m b := by
  induction m with
  | nil => simp [cellsInsert, cellsLookup_cons, eq_comm]
  | cons c m ih =>
    have hc : c.1 ≠ a := by intro hc; simp [cellsLookup_cons, hc] at h
    have hm : cellsLookup m a = none := by simpa [cellsLookup_cons, hc] using h
    unfold cellsInsert
    split
    · simp [cellsLookup_cons (c := (a, v)), eq_comm]
    · rw [cellsLookup_cons, ih hm, cellsLookup_cons]
      by_cases hb : b = a
      · subst hb; simp [hc]
      · simp [hb]

/-- A put is read back at its index, and every other index reads as before. -/
theorem cellsLookup_put (m : List (Nat × α)) (a : Nat) (v : α) (b : Nat) :
    cellsLookup (cellsPut m a v) b = if b = a then some v else cellsLookup m b := by
  unfold cellsPut
  rw [cellsLookup_insert (by simp [cellsLookup_erase]), cellsLookup_erase]
  split <;> simp_all

@[simp] theorem Memory.read_nil (a : Nat) : Memory.read ([] : List (Nat × BitVec w)) a = 0 := rfl

/-- A write is read back at its address, and every other address reads as before. -/
theorem Memory.read_write (m : List (Nat × BitVec w)) (a : Nat) (v : BitVec w) (b : Nat) :
    Memory.read (Memory.write m a v) b = if b = a then v else Memory.read m b := by
  unfold Memory.read Memory.write
  split
  · rename_i h; rw [cellsLookup_erase]; split <;> simp_all
  · rw [cellsLookup_put]; split <;> simp_all

/-! The canonical form. -/

theorem mem_cellsErase {m : List (Nat × α)} {a : Nat} {c : Nat × α} :
    c ∈ cellsErase m a ↔ c ∈ m ∧ c.1 ≠ a := by
  simp [cellsErase]

theorem mem_cellsInsert {m : List (Nat × α)} {a : Nat} {v : α} {c : Nat × α} :
    c ∈ cellsInsert m a v ↔ c = (a, v) ∨ c ∈ m := by
  induction m with
  | nil => simp [cellsInsert]
  | cons d m ih => unfold cellsInsert; split <;> simp [ih]; tauto

theorem mem_cellsPut {m : List (Nat × α)} {a : Nat} {v : α} {c : Nat × α} :
    c ∈ cellsPut m a v ↔ c = (a, v) ∨ (c ∈ m ∧ c.1 ≠ a) := by
  simp [cellsPut, mem_cellsInsert, mem_cellsErase]

theorem cellsSorted_erase {m : List (Nat × α)} (h : cellsSorted m) (a : Nat) : cellsSorted (cellsErase m a) :=
  List.Pairwise.filter _ h

theorem cellsSorted_insert {m : List (Nat × α)} (h : cellsSorted m) {a : Nat} (ha : ∀ c ∈ m, c.1 ≠ a) (v : α) :
    cellsSorted (cellsInsert m a v) := by
  induction m with
  | nil => simp [cellsInsert]
  | cons d m ih =>
    rw [cellsSorted, List.pairwise_cons] at h
    unfold cellsInsert
    split
    · rename_i hd
      refine List.pairwise_cons.2 ⟨fun c hc => ?_, List.pairwise_cons.2 h⟩
      rcases List.mem_cons.1 hc with rfl | hc
      · exact hd
      · exact lt_trans hd (h.1 c hc)
    · rename_i hd
      have hne := ha d (by simp)
      refine List.pairwise_cons.2 ⟨fun c hc => ?_, ih h.2 fun c hc => ha c (by simp [hc])⟩
      rcases mem_cellsInsert.1 hc with rfl | hc
      · show d.1 < a; omega
      · exact h.1 c hc

theorem cellsSorted_put {m : List (Nat × α)} (h : cellsSorted m) (a : Nat) (v : α) : cellsSorted (cellsPut m a v) :=
  cellsSorted_insert (cellsSorted_erase h a) (fun _ hc => (mem_cellsErase.1 hc).2) v

theorem mem_write {m : List (Nat × BitVec w)} {a : Nat} {v : BitVec w} {c : Nat × BitVec w}
    (h : c ∈ Memory.write m a v) : c = (a, v) ∧ v ≠ unlisted ∨ c ∈ m := by
  unfold Memory.write at h
  split at h
  · exact .inr (mem_cellsErase.1 h).1
  · rcases mem_cellsPut.1 h with h | h
    · exact .inl ⟨h, ‹_›⟩
    · exact .inr h.1

/-- A write keeps the canonical form. -/
theorem Memory.wf_write {m : List (Nat × BitVec w)} (h : Memory.wf m) (a : Nat) (v : BitVec w) :
    Memory.wf (Memory.write m a v) := by
  refine ⟨?_, fun c hc => ?_⟩
  · unfold Memory.write; split
    · exact cellsSorted_erase h.1 a
    · exact cellsSorted_put h.1 a v
  · rcases mem_write hc with ⟨rfl, hv⟩ | hc
    · exact hv
    · exact h.2 c hc

theorem Memory.wf_nil : Memory.wf ([] : List (Nat × BitVec w)) := by simp [Memory.wf, cellsSorted]

/-- Two sorted lists of cells with the same lookups are equal: equal memories are equal data. -/
theorem cells_ext {m n : List (Nat × α)} (hm : cellsSorted m) (hn : cellsSorted n)
    (h : ∀ a, cellsLookup m a = cellsLookup n a) : m = n := by
  have lookup_lt : ∀ {k : List (Nat × α)} {a : Nat}, (∀ c ∈ k, a < c.1) → cellsLookup k a = none := by
    intro k a hk
    induction k with
    | nil => rfl
    | cons c k ih =>
      have hc := hk c (by simp)
      rw [cellsLookup_cons, if_neg (by omega), ih fun d hd => hk d (by simp [hd])]
  induction m generalizing n with
  | nil =>
    cases n with
    | nil => rfl
    | cons c n => have := h c.1; simp [cellsLookup_cons] at this
  | cons c m ih =>
    cases n with
    | nil => have := h c.1; simp [cellsLookup_cons] at this
    | cons d n =>
      rw [cellsSorted, List.pairwise_cons] at hm hn
      have hcd : c.1 = d.1 := by
        rcases lt_trichotomy c.1 d.1 with hl | he | hl
        · have := h c.1
          rw [cellsLookup_cons, if_pos rfl, lookup_lt (k := d :: n)] at this
          · exact absurd this (by simp)
          · intro e he; rcases List.mem_cons.1 he with rfl | he
            · exact hl
            · exact lt_trans hl (hn.1 e he)
        · exact he
        · have := h d.1
          rw [cellsLookup_cons (c := d), if_pos rfl, lookup_lt (k := c :: m)] at this
          · exact absurd this (by simp)
          · intro e he; rcases List.mem_cons.1 he with rfl | he
            · exact hl
            · exact lt_trans hl (hm.1 e he)
      have hv : c.2 = d.2 := by
        have := h c.1
        rw [cellsLookup_cons, if_pos rfl, cellsLookup_cons, if_pos hcd.symm] at this
        exact Option.some.inj this
      have htail : m = n := by
        refine ih hm.2 hn.2 fun a => ?_
        have := h a
        rw [cellsLookup_cons, cellsLookup_cons, ← hcd] at this
        by_cases ha : c.1 = a
        · rw [lookup_lt (fun e he => ha ▸ hm.1 e he), lookup_lt (fun e he => ha ▸ hcd ▸ hn.1 e he)]
        · simpa [ha] using this
      rw [htail, Prod.ext hcd hv]

end Sys2Proof.Machine
end

