-- ==== Sys2Proof/Laws/Run.lean ====
section
/-! SUPPORT. What a command in progress can answer: a small logic over Run, so that a loop's properties are stated
once and carried through its steps. -/

namespace Sys2Proof.Machine

variable {α β : Type}

/-- What holds of a command in progress: `Q` where it goes on, `H` where a fault of the spec ends it, `S` where the
model stops. -/
def Run.Meets (r : Run α) (Q : α → State → Prop) (H : State → Prop) (S : Fault → Prop) : Prop :=
  match r with
  | .ok a s => Q a s
  | .halt s => H s
  | .stop f => S f

@[simp] theorem Run.bind_ok (a : α) (s : State) (f : α → State → Run β) : (Run.ok a s).bind f = f a s := rfl
@[simp] theorem Run.bind_halt (s : State) (f : α → State → Run β) : (Run.halt s : Run α).bind f = .halt s := rfl
@[simp] theorem Run.bind_stop (e : Fault) (f : α → State → Run β) : (Run.stop e : Run α).bind f = .stop e := rfl
@[simp] theorem Run.bind_raise (c : Cause) (u : BitVec 4) (a : Nat) (s : State) (f : α → State → Run β) :
    (Run.raise c u a s : Run α).bind f = Run.raise c u a s := rfl
@[simp] theorem Run.outcome_ok (a : α) (s : State) : (Run.ok a s).outcome = .next s := rfl
@[simp] theorem Run.outcome_halt (s : State) : (Run.halt s : Run α).outcome = .next s := rfl
@[simp] theorem Run.outcome_stop (e : Fault) : (Run.stop e : Run α).outcome = .fault e := rfl
@[simp] theorem Run.outcome_raise (c : Cause) (u : BitVec 4) (a : Nat) (s : State) :
    (Run.raise c u a s : Run α).outcome = .next (Machine.raise c u a s) := rfl

@[simp] theorem Run.meets_ok {a : α} {s : State} {Q : α → State → Prop} {H S} :
    (Run.ok a s).Meets Q H S ↔ Q a s := Iff.rfl
@[simp] theorem Run.meets_halt {s : State} {Q : α → State → Prop} {H S} :
    (Run.halt s : Run α).Meets Q H S ↔ H s := Iff.rfl
@[simp] theorem Run.meets_stop {e : Fault} {Q : α → State → Prop} {H S} :
    (Run.stop e : Run α).Meets Q H S ↔ S e := Iff.rfl
@[simp] theorem Run.meets_raise {c : Cause} {u : BitVec 4} {a : Nat} {s : State} {Q : α → State → Prop} {H S} :
    (Run.raise c u a s : Run α).Meets Q H S ↔ H (Machine.raise c u a s) := Iff.rfl

theorem Run.bind_assoc {γ : Type} (r : Run α) (f : α → State → Run β) (g : β → State → Run γ) :
    (r.bind f).bind g = r.bind fun a s => (f a s).bind g := by
  cases r <;> rfl

/-- A step of a command and what follows it. -/
theorem Run.Meets.bind {r : Run α} {f : α → State → Run β} {Q : β → State → Prop} {H : State → Prop}
    {S : Fault → Prop} (h : r.Meets (fun a s => (f a s).Meets Q H S) H S) : (r.bind f).Meets Q H S := by
  cases r <;> exact h

/-- Weaker conclusions hold too. -/
theorem Run.Meets.mono {r : Run α} {Q Q' : α → State → Prop} {H H' : State → Prop} {S S' : Fault → Prop}
    (h : r.Meets Q H S) (hQ : ∀ a s, Q a s → Q' a s) (hH : ∀ s, H s → H' s) (hS : ∀ f, S f → S' f) :
    r.Meets Q' H' S' := by
  cases r
  · exact hQ _ _ h
  · exact hH _ h
  · exact hS _ h

/-- A command that meets `Q` and `H` and never stops answers a next state. -/
theorem Run.Meets.outcome {r : Run α} {Q : α → State → Prop} {H : State → Prop}
    (h : r.Meets Q H (fun _ => False)) : ∃ u, r.outcome = .next u ∧ ((∃ a, r = .ok a u ∧ Q a u) ∨ (r = .halt u ∧ H u)) := by
  cases r with
  | ok a s => exact ⟨s, rfl, .inl ⟨a, rfl, h⟩⟩
  | halt s => exact ⟨s, rfl, .inr ⟨rfl, h⟩⟩
  | stop f => exact h.elim

/-- What a next state of a command is. -/
theorem Run.outcome_eq_next {r : Run α} {u : State} (h : r.outcome = .next u) : (∃ a, r = .ok a u) ∨ r = .halt u := by
  cases r <;> simp_all [Run.outcome]

theorem Run.Meets.of_next {r : Run α} {Q : α → State → Prop} {H : State → Prop} {S} {u : State}
    (h : r.Meets Q H S) (hu : r.outcome = .next u) : (∃ a, r = .ok a u ∧ Q a u) ∨ (r = .halt u ∧ H u) := by
  cases r with
  | ok a s => simp only [Run.outcome_ok] at hu; cases hu; exact .inl ⟨a, rfl, h⟩
  | halt s => simp only [Run.outcome_halt] at hu; cases hu; exact .inr ⟨rfl, h⟩
  | stop f => simp [Run.outcome] at hu

/-! Commands. -/

theorem issue_of_faulted {i : Instr} {l : Bool} {b : State → Run Unit} {s : State} (h : s.fault.kind ≠ 0) :
    issue i l b s = .next s := by
  rw [issue, if_pos ((State.faulted_iff s).2 h)]

theorem issue_of_illegal {i : Instr} {b : State → Run Unit} {s : State} (h : s.fault.kind = 0) :
    issue i false b s = .next (raise .badState noUnit (encode .atReset i).toNat s) := by
  rw [issue, if_neg (by simp [(State.not_faulted_iff s).2 h]), if_pos rfl]

theorem issue_of_legal {i : Instr} {b : State → Run Unit} {s : State} (h : s.fault.kind = 0) :
    issue i true b s = (b s).outcome := by
  rw [issue, if_neg (by simp [(State.not_faulted_iff s).2 h]), if_neg (by simp)]

/-- Everything a command can answer. -/
theorem issue_cases {i : Instr} {l : Bool} {b : State → Run Unit} {s : State} {o} (h : issue i l b s = o) :
    (s.fault.kind ≠ 0 ∧ o = .next s) ∨
    (s.fault.kind = 0 ∧ l = false ∧ o = .next (raise .badState noUnit (encode .atReset i).toNat s)) ∨
    (s.fault.kind = 0 ∧ l = true ∧ o = (b s).outcome) := by
  by_cases hk : s.fault.kind = 0
  · cases l
    · exact .inr (.inl ⟨hk, rfl, h ▸ issue_of_illegal hk⟩)
    · exact .inr (.inr ⟨hk, rfl, h ▸ issue_of_legal hk⟩)
  · exact .inl ⟨hk, h ▸ issue_of_faulted hk⟩

theorem issueSel_of_faulted {i : Instr} {sel : BitVec 4} {l : Role → Bool} {b : Role → State → Run Unit} {s : State}
    (h : s.fault.kind ≠ 0) : issueSel i sel l b s = .next s := by
  rw [issueSel, if_pos ((State.faulted_iff s).2 h)]

theorem issueSel_sel {i : Instr} {t : Role} {l : Role → Bool} {b : Role → State → Run Unit} {s : State} :
    issueSel i t.sel l b s = issue i (l t) (b t) s := by
  unfold issueSel
  split
  · rename_i h; rw [issue, if_pos h]
  · rw [Role.ofSel_sel]

theorem issueSel_none {i : Instr} {sel : BitVec 4} {l : Role → Bool} {b : Role → State → Run Unit} {s : State}
    (h : s.fault.kind = 0) (hs : Role.ofSel sel = none) :
    issueSel i sel l b s = .next (raise .badSelector noUnit (encode .atReset i).toNat s) := by
  rw [issueSel, if_neg (by simp [(State.not_faulted_iff s).2 h]), hs]

/-- A selector names a role, or is above 4. -/
theorem Role.sel_cases (sel : BitVec 4) : (∃ t : Role, sel = t.sel) ∨ (Role.ofSel sel = none ∧ 4 < sel.toNat) := by
  have h : ∀ sel : BitVec 4, (sel = Role.dy.sel ∨ sel = Role.dx.sel ∨ sel = Role.run.sel ∨ sel = Role.val.sel ∨
      sel = Role.col.sel) ∨ (Role.ofSel sel = none ∧ 4 < sel.toNat) := by decide
  rcases h sel with (h | h | h | h | h) | h
  · exact .inl ⟨_, h⟩
  · exact .inl ⟨_, h⟩
  · exact .inl ⟨_, h⟩
  · exact .inl ⟨_, h⟩
  · exact .inl ⟨_, h⟩
  · exact .inr h

/-- Everything a command with a selector can answer. -/
theorem issueSel_cases {i : Instr} {sel : BitVec 4} {l : Role → Bool} {b : Role → State → Run Unit} {s : State} {o}
    (h : issueSel i sel l b s = o) :
    (s.fault.kind ≠ 0 ∧ o = .next s) ∨
    (s.fault.kind = 0 ∧ 4 < sel.toNat ∧ o = .next (raise .badSelector noUnit (encode .atReset i).toNat s)) ∨
    (∃ t : Role, sel = t.sel ∧ issue i (l t) (b t) s = o) := by
  by_cases hk : s.fault.kind = 0
  · rcases Role.sel_cases sel with ⟨t, rfl⟩ | ⟨hn, hlt⟩
    · exact .inr (.inr ⟨t, rfl, by rw [← issueSel_sel]; exact h⟩)
    · exact .inr (.inl ⟨hk, hlt, h ▸ issueSel_none hk hn⟩)
  · exact .inl ⟨hk, h ▸ issueSel_of_faulted hk⟩

theorem dataOp_of_faulted {b : State → Run Unit} {s : State} (h : s.fault.kind ≠ 0) : dataOp b s = .next s := by
  rw [dataOp, if_pos ((State.faulted_iff s).2 h)]

theorem dataOp_of_none {b : State → Run Unit} {s : State} (h : s.fault.kind = 0) : dataOp b s = (b s).outcome := by
  rw [dataOp, if_neg (by simp [(State.not_faulted_iff s).2 h])]

end Sys2Proof.Machine
end

