-- ==== Sys2Proof/Laws/Cursor.lean ====
section
/-! SUPPORT. The bitstream cursor: everything read_bit can do, and reading the bits a stream holds. -/

namespace Sys2Proof.Machine

/-- The faults of `read_bit` (R140). -/
def readFault (c : Cause) : Prop := c = .cursorPastBuffer ∨ c = .pmemAddress ∨ c = .streamExhausted

theorem State.advance_eq (s : State) (c : Role) : s.advance c = s.skipBits c 1 := rfl

@[simp] theorem State.skipBits_cfg (s : State) (c : Role) (n : Nat) : (s.skipBits c n).cfg = s.cfg := rfl
@[simp] theorem State.skipBits_pmem (s : State) (c : Role) (n : Nat) : (s.skipBits c n).pmem = s.pmem := rfl
@[simp] theorem State.skipBits_palrom (s : State) (c : Role) (n : Nat) : (s.skipBits c n).palrom = s.palrom := rfl
@[simp] theorem State.skipBits_hdr (s : State) (c : Role) (n : Nat) : (s.skipBits c n).hdr = s.hdr := rfl
@[simp] theorem State.skipBits_tree (s : State) (c : Role) (n : Nat) : (s.skipBits c n).tree = s.tree := rfl
@[simp] theorem State.skipBits_rbuf (s : State) (c : Role) (n : Nat) : (s.skipBits c n).rbuf = s.rbuf := rfl
@[simp] theorem State.skipBits_width (s : State) (c : Role) (n : Nat) : (s.skipBits c n).width = s.width := rfl
@[simp] theorem State.skipBits_height (s : State) (c : Role) (n : Nat) : (s.skipBits c n).height = s.height := rfl
@[simp] theorem State.skipBits_bufpos (s : State) (c : Role) (n : Nat) : (s.skipBits c n).bufpos = s.bufpos := rfl
@[simp] theorem State.skipBits_npix (s : State) (c : Role) (n : Nat) : (s.skipBits c n).npix = s.npix := rfl
@[simp] theorem State.skipBits_rstate (s : State) (c : Role) (n : Nat) : (s.skipBits c n).rstate = s.rstate := rfl
@[simp] theorem State.skipBits_lasttok (s : State) (c : Role) (n : Nat) : (s.skipBits c n).lasttok = s.lasttok := rfl
@[simp] theorem State.skipBits_lastoff (s : State) (c : Role) (n : Nat) : (s.skipBits c n).lastoff = s.lastoff := rfl
@[simp] theorem State.skipBits_pal (s : State) (c : Role) (n : Nat) : (s.skipBits c n).pal = s.pal := rfl
@[simp] theorem State.skipBits_palValid (s : State) (c : Role) (n : Nat) : (s.skipBits c n).palValid = s.palValid := rfl
@[simp] theorem State.skipBits_palShiny (s : State) (c : Role) (n : Nat) : (s.skipBits c n).palShiny = s.palShiny := rfl
@[simp] theorem State.skipBits_palBase0 (s : State) (c : Role) (n : Nat) : (s.skipBits c n).palBase0 = s.palBase0 := rfl
@[simp] theorem State.skipBits_palBase1 (s : State) (c : Role) (n : Nat) : (s.skipBits c n).palBase1 = s.palBase1 := rfl
@[simp] theorem State.skipBits_palEnd0 (s : State) (c : Role) (n : Nat) : (s.skipBits c n).palEnd0 = s.palEnd0 := rfl
@[simp] theorem State.skipBits_palEnd1 (s : State) (c : Role) (n : Nat) : (s.skipBits c n).palEnd1 = s.palEnd1 := rfl
@[simp] theorem State.skipBits_ctrl (s : State) (c : Role) (n : Nat) : (s.skipBits c n).ctrl = s.ctrl := rfl
@[simp] theorem State.skipBits_fault (s : State) (c : Role) (n : Nat) : (s.skipBits c n).fault = s.fault := rfl
@[simp] theorem State.skipBits_faddr (s : State) (c : Role) (n : Nat) : (s.skipBits c n).faddr = s.faddr := rfl
@[simp] theorem State.skipBits_result (s : State) (c : Role) (n : Nat) : (s.skipBits c n).result = s.result := rfl
@[simp] theorem State.skipBits_rbufAddr (s : State) (c : Role) (n : Nat) : (s.skipBits c n).rbufAddr = s.rbufAddr := rfl
@[simp] theorem State.skipBits_lutIdx (s : State) (c : Role) (n : Nat) : (s.skipBits c n).lutIdx = s.lutIdx := rfl
@[simp] theorem State.skipBits_work (s : State) (c : Role) (n : Nat) : (s.skipBits c n).work = s.work := rfl
@[simp] theorem State.skipBits_pending (s : State) (c : Role) (n : Nat) : (s.skipBits c n).pending = s.pending := rfl
@[simp] theorem State.skipBits_returned (s : State) (c : Role) (n : Nat) : (s.skipBits c n).returned = s.returned := rfl

@[simp] theorem State.skipBits_get_self (s : State) (c : Role) (n : Nat) :
    (s.skipBits c n).cur.get c =
      { s.cur.get c with off := BitVec.ofNat 32 ((s.cur.get c).off.toNat + n) } := by
  simp [State.skipBits]

theorem State.skipBits_get_ne (s : State) {c d : Role} (h : d ≠ c) (n : Nat) :
    (s.skipBits c n).cur.get d = s.cur.get d := by
  simp [State.skipBits, PerRole.get_set_ne _ h]

@[simp] theorem State.skipBits_zero (s : State) (c : Role) : s.skipBits c 0 = s := by
  unfold State.skipBits
  rw [Nat.add_zero, BitVec.ofNat_toNat, BitVec.setWidth_eq]
  show { s with cur := s.cur.set c (s.cur.get c) } = s
  rw [PerRole.set_get]

theorem State.skipBits_skipBits (s : State) (c : Role) {m n : Nat} (h : (s.cur.get c).off.toNat + m < 2 ^ 32) :
    (s.skipBits c m).skipBits c n = s.skipBits c (m + n) := by
  have hm : ((s.cur.get c).off.toNat + m) % 2 ^ 32 = (s.cur.get c).off.toNat + m := Nat.mod_eq_of_lt h
  simp only [State.skipBits, State.setCur, PerRole.get_set_self, PerRole.set_set, BitVec.toNat_ofNat, hm, Nat.add_assoc]

/-- Everything `read_bit` can do: one of the three faults of R141, nothing else changed, or the next bit and the
cursor one further. -/
theorem readBit_cases (c : Role) (s : State) :
    (readBit c s).Meets
      (fun b u => (s.cur.get c).off.toNat < 8 * (s.cur.get c).len.toNat ∧
        (s.cur.get c).base.toNat + (s.cur.get c).off.toNat / 8 < s.cfg.pmemBytes ∧
        (s.cur.get c).off.toNat < (s.cur.get c).lim.toNat ∧
        b = pmemBit s.pmem (s.cur.get c).base.toNat (s.cur.get c).off.toNat ∧ u = s.skipBits c 1)
      (fun u => ∃ k, readFault k ∧ u = raise k (streamUnit c) (s.cur.get c).off.toNat s)
      (fun _ => False) := by
  unfold readBit
  simp only
  split
  · exact ⟨_, .inl rfl, rfl⟩
  · split
    · exact ⟨_, .inr (.inl rfl), rfl⟩
    · split
      · exact ⟨_, .inr (.inr rfl), rfl⟩
      · exact ⟨by omega, by omega, by omega, rfl, rfl⟩

/-- `read_bit` within the bounds of R141. -/
theorem readBit_ok {c : Role} {s : State} (h1 : (s.cur.get c).off.toNat < 8 * (s.cur.get c).len.toNat)
    (h2 : (s.cur.get c).base.toNat + (s.cur.get c).off.toNat / 8 < s.cfg.pmemBytes)
    (h3 : (s.cur.get c).off.toNat < (s.cur.get c).lim.toNat) :
    readBit c s = .ok (pmemBit s.pmem (s.cur.get c).base.toNat (s.cur.get c).off.toNat) (s.skipBits c 1) := by
  unfold readBit
  simp only
  rw [if_neg (by omega), if_neg (by omega), if_neg (by omega)]
  rfl

theorem StreamHolds.nil (s : State) (c : Role) : StreamHolds s c [] := fun _ h => absurd h (Nat.not_lt_zero _)

theorem StreamHolds.off_lt {s : State} {c : Role} {bits : List Bool} (h : StreamHolds s c bits) :
    (s.cur.get c).off.toNat + bits.length < 2 ^ 32 := by
  have hlim := (s.cur.get c).lim.isLt
  rcases Nat.eq_zero_or_pos bits.length with h0 | h0
  · rw [h0]; exact (s.cur.get c).off.isLt
  · obtain ⟨-, -, h3, -⟩ := h (bits.length - 1) (by omega)
    omega

/-- Reading the first bit of a stream, and what the stream holds after it. -/
theorem StreamHolds.read {s : State} {c : Role} {b : Bool} {bits : List Bool} (h : StreamHolds s c (b :: bits)) :
    readBit c s = .ok b (s.skipBits c 1) ∧ StreamHolds (s.skipBits c 1) c bits := by
  obtain ⟨h1, h2, h3, h4⟩ := h 0 (by simp)
  have hoff := h.off_lt
  simp only [List.length_cons] at hoff
  simp only [Nat.add_zero, List.getElem?_cons_zero, Option.some.injEq] at h1 h2 h3 h4
  refine ⟨by rw [readBit_ok h1 h2 h3, ← h4], fun k hk => ?_⟩
  obtain ⟨g1, g2, g3, g4⟩ := h (k + 1) (by simpa using hk)
  have hm : ((s.cur.get c).off.toNat + 1) % 2 ^ 32 = (s.cur.get c).off.toNat + 1 := Nat.mod_eq_of_lt (by omega)
  have he : (s.cur.get c).off.toNat + 1 + k = (s.cur.get c).off.toNat + (k + 1) := by omega
  rw [State.skipBits_get_self]
  simp only [BitVec.toNat_ofNat, hm, he]
  rw [List.getElem?_cons_succ] at g4
  exact ⟨g1, g2, g3, g4⟩

/-- A stream holds the concatenation of what it holds first and what it holds after that. -/
theorem StreamHolds.append {s : State} {c : Role} {p q : List Bool} (h : StreamHolds s c (p ++ q)) :
    StreamHolds s c p ∧ StreamHolds (s.skipBits c p.length) c q := by
  have hoff := h.off_lt
  simp only [List.length_append] at hoff
  refine ⟨fun k hk => ?_, fun k hk => ?_⟩
  · obtain ⟨g1, g2, g3, g4⟩ := h k (by simp; omega)
    exact ⟨g1, g2, g3, by rwa [List.getElem?_append_left hk] at g4⟩
  · obtain ⟨g1, g2, g3, g4⟩ := h (p.length + k) (by simp; omega)
    have hm : ((s.cur.get c).off.toNat + p.length) % 2 ^ 32 = (s.cur.get c).off.toNat + p.length :=
      Nat.mod_eq_of_lt (by omega)
    have he : (s.cur.get c).off.toNat + p.length + k = (s.cur.get c).off.toNat + (p.length + k) := by omega
    rw [State.skipBits_get_self]
    simp only [BitVec.toNat_ofNat, hm, he]
    refine ⟨g1, g2, g3, ?_⟩
    rwa [List.getElem?_append_right (by omega), Nat.add_sub_cancel_left] at g4

/-- What another cursor has read leaves a stream as it was (R143). -/
theorem StreamHolds.of_skipBits {s : State} {c d : Role} {bits : List Bool} {n : Nat} (hcd : c ≠ d)
    (h : StreamHolds s c bits) : StreamHolds (s.skipBits d n) c bits := by
  intro k hk
  rw [State.skipBits_get_ne s hcd]
  exact h k hk

end Sys2Proof.Machine
end

