-- ==== Sys2Proof/Laws/Decode.lean ====
section
/-! SUPPORT. The traversal of a tree: what decode returns on a code word, and everything it can do on a valid tree. -/

namespace Sys2Proof.Machine

theorem CodeTree.size_pos (tr : CodeTree) : 1 ≤ tr.size := by
  cases tr <;> simp [CodeTree.size]

/-- R108, R168: a code word is shorter than half the tree's nodes. -/
theorem CodeTree.follow_length {tr : CodeTree} {p : List Bool} {v : Byte} (h : tr.follow p = some v) :
    2 * p.length + 1 ≤ tr.size := by
  induction p generalizing tr with
  | nil => simpa using tr.size_pos
  | cons b p ih =>
    cases tr with
    | leaf w => simp [CodeTree.follow] at h
    | node l r =>
      have hl := l.size_pos
      have hr := r.size_pos
      cases b
      · have := ih (tr := l) h; simp only [CodeTree.size, List.length_cons]; omega
      · have := ih (tr := r) h; simp only [CodeTree.size, List.length_cons]; omega

/-- A code word is not empty where the root is internal. -/
theorem CodeTree.follow_nonempty {l r : CodeTree} {p : List Bool} {v : Byte} (h : (CodeTree.node l r).follow p = some v) :
    1 ≤ p.length := by
  cases p with
  | nil => simp [CodeTree.follow] at h
  | cons => simp

/-- The subtree a path leads to. -/
def CodeTree.child (l r : CodeTree) (b : Bool) : CodeTree := if b then r else l

/-- The index of a child in the preorder layout (R160). -/
def childIndex (i : Nat) (l : CodeTree) (b : Bool) : Nat := if b then i + 1 + l.size else i + 1

theorem CodeTree.laidAt_child {l r : CodeTree} {i : Nat} {m : List (Nat × Node)}
    (h : (CodeTree.node l r).laidAt i m) (b : Bool) : (CodeTree.child l r b).laidAt (childIndex i l b) m := by
  cases b
  · exact h.2.1
  · exact h.2.2

theorem CodeTree.follow_cons {l r : CodeTree} {b : Bool} {p : List Bool} :
    (CodeTree.node l r).follow (b :: p) = (CodeTree.child l r b).follow p := by
  cases b <;> rfl

/-- R171: a branch from an internal node of a laid-out tree. -/
theorem takeBranch_laid {s : State} {t : Role} {l r : CodeTree} {i : Nat}
    (h : (CodeTree.node l r).laidAt i (s.tree.get t).nodes) (b : Bool) :
    takeBranch t i b s = .ok (childIndex i l b,
      match CodeTree.child l r b with | .leaf v => some v | .node _ _ => none) s := by
  have hi : nodeAt t i s = some (.inner (i + 1) (i + 1 + l.size)) := h.1
  have hc := CodeTree.laidAt_child h b
  have hj : childOf (nodeAt t i s) b = some (childIndex i l b) := by
    rw [hi]; cases b <;> rfl
  unfold takeBranch
  rw [hj]
  simp only [Run.ok.injEq, Prod.mk.injEq, true_and, and_true]
  cases hch : CodeTree.child l r b with
  | leaf v =>
    rw [hch] at hc
    have : nodeAt t (childIndex i l b) s = some (.leaf v) := hc
    rw [this]; rfl
  | node a c =>
    rw [hch] at hc
    have : nodeAt t (childIndex i l b) s = some (.inner (childIndex i l b + 1) (childIndex i l b + 1 + a.size)) := hc.1
    rw [this]; rfl

/-- R165: from an internal node, a code word in the stream gives its symbol. -/
theorem traverse_follow {t : Role} {p : List Bool} {l r : CodeTree} {i n : Nat} {s : State} {v : Byte}
    (hl : (CodeTree.node l r).laidAt i (s.tree.get t).nodes) (hf : (CodeTree.node l r).follow p = some v)
    (hs : StreamHolds s t p) (hn : p.length ≤ n) : traverse t n i s = .ok v (s.skipBits t p.length) := by
  induction p generalizing l r i n s with
  | nil => simp [CodeTree.follow] at hf
  | cons b p ih =>
    obtain ⟨k, rfl⟩ : ∃ k, n = k + 1 := ⟨n - 1, by simp at hn; omega⟩
    have hoff := hs.off_lt
    obtain ⟨hr, hs'⟩ := hs.read
    have hl' : (CodeTree.node l r).laidAt i ((s.skipBits t 1).tree.get t).nodes := hl
    have hc := CodeTree.laidAt_child hl' b
    rw [CodeTree.follow_cons] at hf
    unfold traverse
    rw [hr, Run.bind_ok, takeBranch_laid hl' b, Run.bind_ok]
    cases hch : CodeTree.child l r b with
    | leaf w =>
      rw [hch] at hf
      cases p with
      | nil => simp only [CodeTree.follow, Option.some.injEq] at hf; subst hf; rfl
      | cons => simp [CodeTree.follow] at hf
    | node a c =>
      rw [hch] at hf hc
      simp only
      rw [ih hc hf hs' (by simp at hn; omega), State.skipBits_skipBits _ _ (by simp at hoff; omega),
        List.length_cons, Nat.add_comm]

/-- R165: a code word in the stream of a tree with an internal root. -/
theorem decodeSymbol_follow {t : Role} {p : List Bool} {l r : CodeTree} {s : State} {v : Byte}
    (hl : (CodeTree.node l r).laidAt 0 (s.tree.get t).nodes) (hz : (CodeTree.node l r).size ≤ 511)
    (hf : (CodeTree.node l r).follow p = some v) (hs : StreamHolds s t p) :
    decodeSymbol t s = .ok v (s.skipBits t p.length) := by
  have := CodeTree.follow_length hf
  exact traverse_follow hl hf hs (by simp only [nodeMax]; omega)

/-- A path that ends inside a tree: a proper beginning of a code word. -/
def CodeTree.inside : CodeTree → List Bool → Prop
  | .leaf _, _ => False
  | .node _ _, [] => True
  | .node l _, false :: p => l.inside p
  | .node _ r, true :: p => r.inside p

theorem CodeTree.inside_cons {l r : CodeTree} {b : Bool} {p : List Bool} :
    (CodeTree.node l r).inside (b :: p) ↔ (CodeTree.child l r b).inside p := by
  cases b <;> rfl

theorem CodeTree.inside_length {tr : CodeTree} {p : List Bool} (h : tr.inside p) : 2 * p.length + 3 ≤ tr.size := by
  induction p generalizing tr with
  | nil =>
    cases tr with
    | leaf => exact h.elim
    | node l r => have := l.size_pos; have := r.size_pos; simp only [CodeTree.size, List.length_nil]; omega
  | cons b p ih =>
    cases tr with
    | leaf => exact h.elim
    | node l r =>
      have hl := l.size_pos
      have hr := r.size_pos
      cases b
      · have := ih (tr := l) h; simp only [CodeTree.size, List.length_cons]; omega
      · have := ih (tr := r) h; simp only [CodeTree.size, List.length_cons]; omega

theorem StreamHolds.cons {s : State} {c : Role} {bits : List Bool}
    (h1 : (s.cur.get c).off.toNat < 8 * (s.cur.get c).len.toNat)
    (h2 : (s.cur.get c).base.toNat + (s.cur.get c).off.toNat / 8 < s.cfg.pmemBytes)
    (h3 : (s.cur.get c).off.toNat < (s.cur.get c).lim.toNat) (h : StreamHolds (s.skipBits c 1) c bits) :
    StreamHolds s c (pmemBit s.pmem (s.cur.get c).base.toNat (s.cur.get c).off.toNat :: bits) := by
  have hlim := (s.cur.get c).lim.isLt
  have hm : ((s.cur.get c).off.toNat + 1) % 2 ^ 32 = (s.cur.get c).off.toNat + 1 := Nat.mod_eq_of_lt (by omega)
  intro k hk
  cases k with
  | zero => exact ⟨by simpa using h1, by simpa using h2, by simpa using h3, by simp⟩
  | succ k =>
    obtain ⟨g1, g2, g3, g4⟩ := h k (by simpa using hk)
    rw [State.skipBits_get_self] at g1 g2 g3 g4
    simp only [BitVec.toNat_ofNat, hm] at g1 g2 g3 g4
    have he : (s.cur.get c).off.toNat + (k + 1) = (s.cur.get c).off.toNat + 1 + k := by omega
    rw [he, List.getElem?_cons_succ]
    exact ⟨g1, g2, g3, g4⟩

/-- Everything a traversal from an internal node can do: a code word of the stream and its symbol, or a fault of
`read_bit` at the first bit that cannot be read, the bits before it consumed (R165). -/
theorem traverse_cases {t : Role} {l r : CodeTree} {i n : Nat} {s : State}
    (hl : (CodeTree.node l r).laidAt i (s.tree.get t).nodes) (hn : (CodeTree.node l r).size ≤ 2 * n + 1) :
    (traverse t n i s).Meets
      (fun v u => ∃ p, (CodeTree.node l r).follow p = some v ∧ StreamHolds s t p ∧ u = s.skipBits t p.length)
      (fun u => ∃ p k, (CodeTree.node l r).inside p ∧ StreamHolds s t p ∧ readFault k ∧
        u = raise k (streamUnit t) ((s.cur.get t).off.toNat + p.length) (s.skipBits t p.length))
      (fun _ => False) := by
  induction n generalizing l r i s with
  | zero =>
    have := l.size_pos; have := r.size_pos
    simp only [CodeTree.size] at hn; omega
  | succ n ih =>
    unfold traverse
    refine Run.Meets.bind (Run.Meets.mono (readBit_cases t s) (fun b u hu => ?_) (fun u hu => ?_) fun _ h => h)
    · obtain ⟨h1, h2, h3, rfl, rfl⟩ := hu
      have hlim := (s.cur.get t).lim.isLt
      have hl' : (CodeTree.node l r).laidAt i ((s.skipBits t 1).tree.get t).nodes := hl
      generalize hb : pmemBit s.pmem (s.cur.get t).base.toNat (s.cur.get t).off.toNat = b
      have hc := CodeTree.laidAt_child hl' b
      rw [takeBranch_laid hl' b, Run.bind_ok]
      cases hch : CodeTree.child l r b with
      | leaf w =>
        refine ⟨[b], ?_, hb ▸ StreamHolds.cons h1 h2 h3 (.nil _ _), rfl⟩
        rw [CodeTree.follow_cons, hch]; rfl
      | node a c =>
        rw [hch] at hc
        have hsz : (CodeTree.node a c).size + 2 ≤ (CodeTree.node l r).size := by
          rw [← hch]
          have := l.size_pos; have := r.size_pos
          cases b <;> simp [CodeTree.child, CodeTree.size] <;> omega
        refine Run.Meets.mono (ih hc (by omega)) (fun v u hu => ?_) (fun u hu => ?_) fun _ h => h
        · obtain ⟨p, hf, hs, rfl⟩ := hu
          refine ⟨b :: p, ?_, hb ▸ StreamHolds.cons h1 h2 h3 hs, ?_⟩
          · rw [CodeTree.follow_cons, hch]; exact hf
          · rw [State.skipBits_skipBits _ _ (by omega), List.length_cons, Nat.add_comm]
        · obtain ⟨p, k, hin, hs, hk, rfl⟩ := hu
          refine ⟨b :: p, k, ?_, hb ▸ StreamHolds.cons h1 h2 h3 hs, hk, ?_⟩
          · rw [CodeTree.inside_cons, hch]; exact hin
          · have hm : ((s.cur.get t).off.toNat + 1) % 2 ^ 32 = (s.cur.get t).off.toNat + 1 :=
              Nat.mod_eq_of_lt (by omega)
            rw [State.skipBits_skipBits _ _ (by omega), State.skipBits_get_self]
            simp only [BitVec.toNat_ofNat, hm, List.length_cons]
            rw [Nat.add_comm 1, Nat.add_assoc, Nat.add_comm 1]
    · obtain ⟨k, hk, rfl⟩ := hu
      exact ⟨[], k, trivial, .nil _ _, hk, by simp⟩

/-- Everything `decode(t)` can do on a tree memory that holds a code tree with an internal root (R165, R168). -/
theorem decodeSymbol_cases {t : Role} {l r : CodeTree} {s : State}
    (hl : (CodeTree.node l r).laidAt 0 (s.tree.get t).nodes) (hz : (CodeTree.node l r).size ≤ 511) :
    (decodeSymbol t s).Meets
      (fun v u => ∃ p, (CodeTree.node l r).follow p = some v ∧ StreamHolds s t p ∧ u = s.skipBits t p.length)
      (fun u => ∃ p k, (CodeTree.node l r).inside p ∧ StreamHolds s t p ∧ readFault k ∧
        u = raise k (streamUnit t) ((s.cur.get t).off.toNat + p.length) (s.skipBits t p.length))
      (fun _ => False) :=
  traverse_cases hl (by simp only [nodeMax]; omega)

/-- A tree of more than one node has an internal root. -/
theorem CodeTree.exists_node {tr : CodeTree} (h : 1 < tr.size) : ∃ l r, tr = .node l r := by
  cases tr with
  | leaf => simp [CodeTree.size] at h
  | node l r => exact ⟨l, r, rfl⟩

/-- The next symbol of a stream is what `decode` returns (R165). -/
theorem NextSymbol.decode {s : State} {t : Role} {v : Byte} {n : Nat} (h : NextSymbol s t v n) :
    decodeSymbol t s = .ok v (s.skipBits t n) := by
  obtain ⟨tr, p, ⟨-, h1, h2, h3⟩, hf, rfl, hs⟩ := h
  obtain ⟨l, r, rfl⟩ := CodeTree.exists_node h1
  exact decodeSymbol_follow h3 h2 hf hs

/-- What another cursor has read leaves the next symbol of a stream as it was (R143). -/
theorem NextSymbol.of_skipBits {s : State} {t d : Role} {v : Byte} {n m : Nat} (htd : t ≠ d)
    (h : NextSymbol s t v n) : NextSymbol (s.skipBits d m) t v n := by
  obtain ⟨tr, p, ht, hf, hp, hs⟩ := h
  exact ⟨tr, p, ht, hf, hp, hs.of_skipBits htd⟩

end Sys2Proof.Machine
end

