-- ==== Sys2Proof/Laws/Build.lean ====
section
/-! SUPPORT. The build of a tree: on the header of a code tree it stores the tree's preorder layout; if it ends well
the header is that of a code tree; everything else it can do is a fault of the header. -/

namespace Sys2Proof.Machine

/-- The faults of `build` (R292). -/
def buildFault (c : Cause) : Prop :=
  c = .shapeExhausted ∨ c = .permExhausted ∨ c = .treeTooLarge ∨ c = .trailingHeader ∨ c = .singleLeaf ∨
    c = .leafRange ∨ c = .pmemAddress

/-- The shape bits of header `t` from bit `k` on begin with `bits`. -/
def ShapeFrom (s : State) (t : Role) (k : Nat) (bits : List Bool) : Prop :=
  ∀ j < bits.length, k + j < (s.hdr.get t).shapeBits.toNat ∧
    (s.hdr.get t).shapeBase.toNat + (k + j) / 8 < s.cfg.pmemBytes ∧
    bits[j]? = some (pmemBit s.pmem (s.hdr.get t).shapeBase.toNat (k + j))

/-- The permutation of header `t` from entry `k` on begins with `vs`, each legal in the domain. -/
def PermFrom (s : State) (t : Role) (k : Nat) (vs : List Byte) : Prop :=
  ∀ j < vs.length, k + j < (s.hdr.get t).permCount.toNat ∧
    (s.hdr.get t).permBase.toNat + (k + j) < s.cfg.pmemBytes ∧
    vs[j]? = some (Memory.read s.pmem ((s.hdr.get t).permBase.toNat + (k + j))) ∧
    ((s.hdr.get t).domain = .nibble → (Memory.read s.pmem ((s.hdr.get t).permBase.toNat + (k + j))).toNat < 16)

theorem ShapeFrom.nil (s : State) (t : Role) (k : Nat) : ShapeFrom s t k [] := fun _ h => absurd h (Nat.not_lt_zero _)

theorem PermFrom.nil (s : State) (t : Role) (k : Nat) : PermFrom s t k [] := fun _ h => absurd h (Nat.not_lt_zero _)

theorem ShapeFrom.cons_iff {s : State} {t : Role} {k : Nat} {b : Bool} {bits : List Bool} :
    ShapeFrom s t k (b :: bits) ↔ (k < (s.hdr.get t).shapeBits.toNat ∧
      (s.hdr.get t).shapeBase.toNat + k / 8 < s.cfg.pmemBytes ∧
      b = pmemBit s.pmem (s.hdr.get t).shapeBase.toNat k) ∧ ShapeFrom s t (k + 1) bits := by
  constructor
  · intro h
    refine ⟨by simpa using h 0 (by simp), fun j hj => ?_⟩
    have := h (j + 1) (by simpa using hj)
    rwa [List.getElem?_cons_succ, show k + (j + 1) = k + 1 + j by omega] at this
  · rintro ⟨h0, h⟩ j hj
    cases j with
    | zero => simpa using h0
    | succ j =>
      rw [List.getElem?_cons_succ, show k + (j + 1) = k + 1 + j by omega]
      exact h j (by simpa using hj)

theorem PermFrom.cons_iff {s : State} {t : Role} {k : Nat} {v : Byte} {vs : List Byte} :
    PermFrom s t k (v :: vs) ↔ (k < (s.hdr.get t).permCount.toNat ∧
      (s.hdr.get t).permBase.toNat + k < s.cfg.pmemBytes ∧
      v = Memory.read s.pmem ((s.hdr.get t).permBase.toNat + k) ∧
      ((s.hdr.get t).domain = .nibble → v.toNat < 16)) ∧ PermFrom s t (k + 1) vs := by
  constructor
  · intro h
    obtain ⟨h1, h2, h3, h4⟩ := h 0 (by simp)
    simp only [Nat.add_zero, List.getElem?_cons_zero, Option.some.injEq] at h1 h2 h3 h4
    refine ⟨⟨h1, h2, h3, h3 ▸ h4⟩, fun j hj => ?_⟩
    have := h (j + 1) (by simpa using hj)
    rwa [List.getElem?_cons_succ, show k + (j + 1) = k + 1 + j by omega] at this
  · rintro ⟨⟨h1, h2, h3, h4⟩, h⟩ j hj
    cases j with
    | zero =>
      simp only [Nat.add_zero, List.getElem?_cons_zero, Option.some.injEq]
      exact ⟨h1, h2, h3, h3 ▸ h4⟩
    | succ j =>
      rw [List.getElem?_cons_succ, show k + (j + 1) = k + 1 + j by omega]
      exact h j (by simpa using hj)

theorem ShapeFrom.append_iff {s : State} {t : Role} {k : Nat} {p q : List Bool} :
    ShapeFrom s t k (p ++ q) ↔ ShapeFrom s t k p ∧ ShapeFrom s t (k + p.length) q := by
  induction p generalizing k with
  | nil => simp [ShapeFrom.nil]
  | cons b p ih =>
    rw [List.cons_append, ShapeFrom.cons_iff, ShapeFrom.cons_iff, ih, List.length_cons,
      show k + (p.length + 1) = k + 1 + p.length by omega]
    exact ⟨fun ⟨h, h1, h2⟩ => ⟨⟨h, h1⟩, h2⟩, fun ⟨⟨h, h1⟩, h2⟩ => ⟨h, h1, h2⟩⟩

theorem PermFrom.append_iff {s : State} {t : Role} {k : Nat} {p q : List Byte} :
    PermFrom s t k (p ++ q) ↔ PermFrom s t k p ∧ PermFrom s t (k + p.length) q := by
  induction p generalizing k with
  | nil => simp [PermFrom.nil]
  | cons b p ih =>
    rw [List.cons_append, PermFrom.cons_iff, PermFrom.cons_iff, ih, List.length_cons,
      show k + (p.length + 1) = k + 1 + p.length by omega]
    exact ⟨fun ⟨h, h1, h2⟩ => ⟨⟨h, h1⟩, h2⟩, fun ⟨⟨h, h1⟩, h2⟩ => ⟨h, h1, h2⟩⟩

@[simp] theorem CodeTree.shape_length (tr : CodeTree) : tr.shape.length = tr.size := by
  induction tr with
  | leaf => rfl
  | node l r hl hr => simp [CodeTree.shape, CodeTree.size, hl, hr]

/-! The steps of a build. -/

theorem State.setTree_setTree (s : State) (t : Role) (x y : TreeMem) : (s.setTree t x).setTree t y = s.setTree t y := by
  simp [State.setTree]

/-- Tree memory `t` with its nodes replaced. -/
def State.withNodes (s : State) (t : Role) (m : List (Nat × Node)) : State :=
  s.setTree t { s.tree.get t with nodes := m }

@[simp] theorem State.withNodes_hdr (s : State) (t : Role) (m : List (Nat × Node)) : (s.withNodes t m).hdr = s.hdr := rfl
@[simp] theorem State.withNodes_cfg (s : State) (t : Role) (m : List (Nat × Node)) : (s.withNodes t m).cfg = s.cfg := rfl
@[simp] theorem State.withNodes_pmem (s : State) (t : Role) (m : List (Nat × Node)) : (s.withNodes t m).pmem = s.pmem := rfl
@[simp] theorem State.withNodes_fault (s : State) (t : Role) (m : List (Nat × Node)) : (s.withNodes t m).fault = s.fault := rfl

@[simp] theorem State.withNodes_get (s : State) (t : Role) (m : List (Nat × Node)) :
    (s.withNodes t m).tree.get t = { s.tree.get t with nodes := m } := by
  simp [State.withNodes]

@[simp] theorem State.withNodes_withNodes (s : State) (t : Role) (m n : List (Nat × Node)) :
    (s.withNodes t m).withNodes t n = s.withNodes t n := by
  simp [State.withNodes, State.setTree]

theorem State.withNodes_self (s : State) (t : Role) : s.withNodes t (s.tree.get t).nodes = s := by
  show { s with tree := s.tree.set t (s.tree.get t) } = s
  rw [PerRole.set_get]

theorem putNode_eq (t : Role) (i : Nat) (n : Node) (s : State) :
    putNode t i n s = s.withNodes t (cellsPut (s.tree.get t).nodes i n) := rfl

theorem ShapeFrom.withNodes {s : State} {t u : Role} {k : Nat} {bits : List Bool} {m : List (Nat × Node)} :
    ShapeFrom (s.withNodes u m) t k bits ↔ ShapeFrom s t k bits := Iff.rfl

theorem PermFrom.withNodes {s : State} {t u : Role} {k : Nat} {vs : List Byte} {m : List (Nat × Node)} :
    PermFrom (s.withNodes u m) t k vs ↔ PermFrom s t k vs := Iff.rfl

/-- Everything the beginning of `build_node` can do. -/
theorem beginNode_cases (t : Role) (b : BuildWork) (s : State) :
    (beginNode t b s).Meets
      (fun x u => b.nodes ≠ nodeMax (s.hdr.get t).domain ∧ ShapeFrom s t b.hoff [x.2.1] ∧ x.1 = b.nodes ∧
        x.2.2 = { b with hoff := b.hoff + 1, nodes := b.nodes + 1 } ∧ u = s)
      (fun u => ∃ k, buildFault k ∧ u = raise k (headerUnit t) b.hoff s) (fun _ => False) := by
  unfold beginNode allocNode
  split
  · exact ⟨_, .inr (.inr (.inl rfl)), rfl⟩
  · rename_i hn
    rw [Run.bind_ok]
    unfold hdrBit memRead
    simp only
    split
    · exact ⟨_, .inl rfl, rfl⟩
    · split
      · exact ⟨_, .inr (.inr (.inr (.inr (.inr (.inr rfl))))), rfl⟩
      · refine ⟨hn, ShapeFrom.cons_iff.2 ⟨⟨?_, ?_, rfl⟩, .nil _ _ _⟩, rfl, rfl, rfl⟩ <;> omega

theorem beginNode_ok {t : Role} {b : BuildWork} {s : State} {bit : Bool}
    (hn : b.nodes ≠ nodeMax (s.hdr.get t).domain) (h : ShapeFrom s t b.hoff [bit]) :
    beginNode t b s = .ok (b.nodes, bit, { b with hoff := b.hoff + 1, nodes := b.nodes + 1 }) s := by
  obtain ⟨⟨h1, h2, rfl⟩, -⟩ := ShapeFrom.cons_iff.1 h
  unfold beginNode allocNode
  rw [if_neg hn, Run.bind_ok]
  unfold hdrBit memRead
  simp only
  rw [if_neg (by omega), if_neg (by omega)]
  rfl

/-- Everything the permutation read can do (R162). -/
theorem permNext_cases (t : Role) (b : BuildWork) (s : State) (hb : b.used ≤ (s.hdr.get t).permCount.toNat) :
    (permNext t b s).Meets
      (fun x u => PermFrom s t b.used [x.1] ∧ x.2 = { b with used := b.used + 1 } ∧ u = s)
      (fun u => ∃ k, buildFault k ∧ u = raise k (headerUnit t) b.hoff s) (fun _ => False) := by
  unfold permNext memRead
  simp only
  split
  · exact ⟨_, .inr (.inl rfl), rfl⟩
  · split
    · exact ⟨_, .inr (.inr (.inr (.inr (.inr (.inr rfl))))), rfl⟩
    · rw [Run.bind_ok]
      split
      · exact ⟨_, .inr (.inr (.inr (.inr (.inr (.inl rfl))))), rfl⟩
      · rename_i hd
        refine ⟨PermFrom.cons_iff.2 ⟨⟨?_, ?_, rfl, fun hdom => ?_⟩, .nil _ _ _⟩, rfl, rfl⟩
        · omega
        · omega
        · by_contra hlt; exact hd ⟨hdom, Nat.not_lt.1 hlt⟩

theorem permNext_ok {t : Role} {b : BuildWork} {s : State} {v : Byte} (h : PermFrom s t b.used [v]) :
    permNext t b s = .ok (v, { b with used := b.used + 1 }) s := by
  obtain ⟨⟨h1, h2, rfl, h4⟩, -⟩ := PermFrom.cons_iff.1 h
  unfold permNext memRead
  simp only
  rw [if_neg (by omega), if_neg (by omega), Run.bind_ok, if_neg]
  rintro ⟨hd, hv⟩
  have := h4 hd
  omega

/-! The layout a build stores. -/

/-- The nodes of a tree put in from index `i` on, in the order the build writes them. -/
def CodeTree.store : CodeTree → Nat → List (Nat × Node) → List (Nat × Node)
  | .leaf v, i, m => cellsPut m i (.leaf v)
  | .node l r, i, m =>
    r.store (i + 1 + l.size) (cellsPut (l.store (i + 1) m) i (.inner (i + 1) (i + 1 + l.size)))

theorem CodeTree.store_outside {tr : CodeTree} {i a : Nat} {m : List (Nat × Node)} (h : a < i ∨ i + tr.size ≤ a) :
    cellsLookup (tr.store i m) a = cellsLookup m a := by
  induction tr generalizing i m with
  | leaf v =>
    simp only [CodeTree.size] at h
    rw [CodeTree.store, cellsLookup_put, if_neg (by omega)]
  | node l r hl hr =>
    simp only [CodeTree.size] at h
    rw [CodeTree.store, hr (by omega), cellsLookup_put, if_neg (by omega), hl (by omega)]

theorem CodeTree.laidAt_congr {tr : CodeTree} {i : Nat} {m n : List (Nat × Node)}
    (h : ∀ a, i ≤ a → a < i + tr.size → cellsLookup n a = cellsLookup m a) (hm : tr.laidAt i m) : tr.laidAt i n := by
  induction tr generalizing i with
  | leaf v =>
    have := h i (le_refl _) (by simp [CodeTree.size])
    exact this.trans hm
  | node l r hl hr =>
    obtain ⟨h0, h1, h2⟩ := hm
    simp only [CodeTree.size] at h
    exact ⟨(h i (by omega) (by omega)).trans h0, hl (fun a _ _ => h a (by omega) (by omega)) h1,
      hr (fun a _ _ => h a (by omega) (by omega)) h2⟩

theorem CodeTree.laidAt_store (tr : CodeTree) (i : Nat) (m : List (Nat × Node)) : tr.laidAt i (tr.store i m) := by
  induction tr generalizing i m with
  | leaf v => simp [CodeTree.laidAt, CodeTree.store, cellsLookup_put]
  | node l r hl hr =>
    refine ⟨?_, ?_, hr _ _⟩
    · rw [CodeTree.store, CodeTree.store_outside (by omega), cellsLookup_put, if_pos rfl]
    · refine CodeTree.laidAt_congr (fun a h1 h2 => ?_) (hl (i + 1) m)
      rw [CodeTree.store, CodeTree.store_outside (by omega), cellsLookup_put, if_neg (by omega)]

theorem CodeTree.store_sorted {tr : CodeTree} {i : Nat} {m : List (Nat × Node)} (h : cellsSorted m) :
    cellsSorted (tr.store i m) := by
  induction tr generalizing i m with
  | leaf v => exact cellsSorted_put h _ _
  | node l r hl hr => exact hr (cellsSorted_put (hl h) _ _)

/-! A build on the header of a code tree. -/

/-- The values of a build after a whole subtree. -/
def BuildWork.after (b : BuildWork) (tr : CodeTree) : BuildWork :=
  { b with hoff := b.hoff + tr.size, nodes := b.nodes + tr.size, used := b.used + tr.leaves.length }

/-- The loop over the shape bits of one subtree: the subtree is stored, and the build goes on with the nearest right
child owed, or ends (R160, R277). -/
theorem buildLoop_tree {t : Role} {tr : CodeTree} {n : Nat} {b : BuildWork} {s : State} (hc : b.closed = false)
    (hn : b.nodes + tr.size ≤ nodeMax (s.hdr.get t).domain) (hs : ShapeFrom s t b.hoff tr.shape)
    (hp : PermFrom s t b.used tr.leaves) :
    buildLoop t (tr.size + n) b s =
      match b.owed with
      | [] => .ok { b.after tr with closed := true } (s.withNodes t (tr.store b.nodes (s.tree.get t).nodes))
      | p :: rest => buildLoop t n { b.after tr with owed := rest }
          (s.withNodes t (cellsPut (tr.store b.nodes (s.tree.get t).nodes) p (.inner (p + 1) (b.nodes + tr.size)))) := by
  induction tr generalizing n b s with
  | leaf v =>
    simp only [CodeTree.size, CodeTree.shape, CodeTree.leaves] at hn hs hp
    have hperm := permNext_ok (b := { b with hoff := b.hoff + 1, nodes := b.nodes + 1 }) hp
    rw [show (CodeTree.leaf v).size + n = n + 1 by simp [CodeTree.size, Nat.add_comm], buildLoop, buildStep,
      beginNode_ok (by omega) hs, Run.bind_ok]
    simp only [if_true]
    rw [closeLeaf, hperm, Run.bind_ok]
    cases ho : b.owed with
    | nil =>
      simp only [Run.bind_ok, putNode_eq, BuildWork.after, CodeTree.size, CodeTree.leaves, CodeTree.store, ho]
      simp
    | cons p rest =>
      simp only [Run.bind_ok, putNode_eq, BuildWork.after, CodeTree.size, CodeTree.leaves, CodeTree.store,
        State.withNodes_get, State.withNodes_withNodes, hc]
      simp
  | node l r hl hr =>
    simp only [CodeTree.size] at hn
    have hlp := l.size_pos
    have hrp := r.size_pos
    obtain ⟨h0, hs'⟩ := ShapeFrom.cons_iff.1 hs
    obtain ⟨hsl, hsr⟩ := ShapeFrom.append_iff.1 hs'
    obtain ⟨hpl, hpr⟩ := PermFrom.append_iff.1 hp
    have h1 := hl (n := r.size + n) (b := { b with hoff := b.hoff + 1, nodes := b.nodes + 1, owed := b.nodes :: b.owed })
      (s := s) hc (by simp only; omega) hsl hpl
    rw [show (CodeTree.node l r).size + n = (l.size + (r.size + n)) + 1 by simp [CodeTree.size]; omega, buildLoop,
      buildStep, beginNode_ok (by omega) (ShapeFrom.cons_iff.2 ⟨h0, .nil _ _ _⟩), Run.bind_ok]
    simp only [Bool.false_eq_true, if_false, openNode, Run.bind_ok, hc]
    rw [hc] at h1
    rw [h1]
    simp only [BuildWork.after]
    have h2 := hr (n := n)
      (b := { hoff := b.hoff + 1 + l.size, nodes := b.nodes + 1 + l.size, used := b.used + l.leaves.length,
              owed := b.owed, closed := false })
      (s := s.withNodes t (cellsPut (l.store (b.nodes + 1) (s.tree.get t).nodes) b.nodes
        (.inner (b.nodes + 1) (b.nodes + 1 + l.size)))) rfl
      (by simp only [State.withNodes_hdr]; omega)
      (by rw [ShapeFrom.withNodes]; simpa using hsr) (by rw [PermFrom.withNodes]; exact hpr)
    rw [h2]
    simp only [BuildWork.after, State.withNodes_get, State.withNodes_withNodes, CodeTree.store, CodeTree.size,
      CodeTree.leaves, List.length_append]
    have e1 : b.nodes + 1 + l.size + r.size = b.nodes + (l.size + r.size + 1) := by omega
    have e2 : b.hoff + 1 + l.size + r.size = b.hoff + (l.size + r.size + 1) := by omega
    have e3 : b.used + l.leaves.length + r.leaves.length = b.used + (l.leaves.length + r.leaves.length) := by omega
    cases b.owed <;> simp only [e1, e2, e3, hc]

/-! Everything a build can do. -/

/-- How a build ends with a fault: the cause is the header's, and of the rest only tree memory `t`'s nodes differ. -/
def BuildHalts (s : State) (t : Role) (u : State) : Prop :=
  ∃ k m h, buildFault k ∧ cellsSorted m ∧ u = raise k (headerUnit t) h (s.withNodes t m)

theorem BuildHalts.of_withNodes {s u : State} {t : Role} {m : List (Nat × Node)} (h : BuildHalts (s.withNodes t m) t u) :
    BuildHalts s t u := by
  obtain ⟨k, n, o, hk, hn, rfl⟩ := h
  exact ⟨k, n, o, hk, hn, by rw [State.withNodes_withNodes]⟩

theorem BuildHalts.of_raise {s : State} {t : Role} {k : Cause} {h : Nat} (hs : cellsSorted (s.tree.get t).nodes)
    (hk : buildFault k) : BuildHalts s t (raise k (headerUnit t) h s) :=
  ⟨k, _, h, hk, hs, by rw [State.withNodes_self]⟩

/-- The loop over the shape bits from any point of a build: it ends well only if the header goes on with as many
trees as are still owed, one more counted; else a fault of the header ends it; its bound is never met (R167). -/
theorem buildLoop_cases {t : Role} {n : Nat} {b : BuildWork} {s : State} (hc : b.closed = false)
    (hb : b.nodes ≤ nodeMax (s.hdr.get t).domain) (hn : nodeMax (s.hdr.get t).domain + 1 ≤ n + b.nodes)
    (hu : b.used ≤ (s.hdr.get t).permCount.toNat) (hs : cellsSorted (s.tree.get t).nodes) :
    (buildLoop t n b s).Meets
      (fun _ _ => ∃ trees : List CodeTree, trees.length = b.owed.length + 1 ∧
        ShapeFrom s t b.hoff (trees.map CodeTree.shape).flatten ∧
        PermFrom s t b.used (trees.map CodeTree.leaves).flatten ∧
        b.nodes + (trees.map CodeTree.size).sum ≤ nodeMax (s.hdr.get t).domain)
      (BuildHalts s t) (fun _ => False) := by
  induction n generalizing b s with
  | zero => omega
  | succ n ih =>
    rw [buildLoop, buildStep, Run.bind_assoc]
    refine Run.Meets.bind ((beginNode_cases t b s).mono ?_ ?_ (fun _ h => h))
    · rintro ⟨i, bit, b'⟩ u ⟨hne, hbit, hi, hb', rfl⟩
      simp only at hbit hi hb'
      subst hi hb'
      cases bit with
      | true =>
        simp only [if_true]
        rw [closeLeaf, Run.bind_assoc]
        refine Run.Meets.bind ((permNext_cases t _ u (by exact hu)).mono ?_ ?_ (fun _ h => h))
        · rintro ⟨v, b''⟩ w ⟨hp, hb'', rfl⟩
          simp only at hp hb''
          subst hb''
          have hused : b.used + 1 ≤ (w.hdr.get t).permCount.toNat := (PermFrom.cons_iff.1 hp).1.1
          cases ho : b.owed with
          | nil =>
            simp only [Run.bind_ok, if_true]
            refine ⟨[.leaf v], by simp, ?_, ?_, ?_⟩
            · simpa [CodeTree.shape] using hbit
            · simpa [CodeTree.leaves] using hp
            · simp only [List.map_cons, List.map_nil, List.sum_cons, List.sum_nil, CodeTree.size]; omega
          | cons p rest =>
            simp only [Run.bind_ok, putNode_eq, State.withNodes_get, State.withNodes_withNodes, hc,
              Bool.false_eq_true, if_false]
            refine (ih (b := { hoff := b.hoff + 1, nodes := b.nodes + 1, used := b.used + 1, owed := rest, closed := false })
              rfl ?_ ?_ ?_ ?_).mono ?_ (fun _ h => h.of_withNodes) (fun _ h => h)
            · simp only [State.withNodes_hdr]; omega
            · simp only [State.withNodes_hdr]; omega
            · simpa using hused
            · simpa using cellsSorted_put (cellsSorted_put hs _ _) _ _
            · rintro _ _ ⟨trees, hl, hsh, hpe, hsz⟩
              refine ⟨.leaf v :: trees, by simp [hl], ?_, ?_, ?_⟩
              · exact ShapeFrom.cons_iff.2 ⟨(ShapeFrom.cons_iff.1 hbit).1, hsh⟩
              · exact PermFrom.cons_iff.2 ⟨(PermFrom.cons_iff.1 hp).1, hpe⟩
              · simp only [List.map_cons, List.sum_cons, CodeTree.size]
                simp only [State.withNodes_hdr] at hsz
                omega
        · rintro w ⟨k, hk, rfl⟩
          exact BuildHalts.of_raise hs hk
      | false =>
        simp only [Bool.false_eq_true, if_false, openNode, Run.bind_ok, hc]
        refine (ih (b := { hoff := b.hoff + 1, nodes := b.nodes + 1, used := b.used, owed := b.nodes :: b.owed, closed := false })
          rfl ?_ ?_ hu hs).mono ?_ (fun _ h => h) (fun _ h => h)
        · simp only; omega
        · simp only; omega
        · rintro _ _ ⟨trees, hl, hsh, hpe, hsz⟩
          match trees, hl with
          | l :: r :: trees, hl =>
            simp only [List.length_cons] at hl
            refine ⟨.node l r :: trees, by simp only [List.length_cons]; omega, ?_, ?_, ?_⟩
            · simp only [List.map_cons, List.flatten_cons, CodeTree.shape, List.cons_append, List.append_assoc] at hsh ⊢
              exact ShapeFrom.cons_iff.2 ⟨(ShapeFrom.cons_iff.1 hbit).1, hsh⟩
            · simpa [CodeTree.leaves, List.append_assoc] using hpe
            · simp only [List.map_cons, List.sum_cons, CodeTree.size] at hsz ⊢; omega
    · rintro u ⟨k, hk, rfl⟩
      exact BuildHalts.of_raise hs hk

theorem nodeMax_le (d : Domain) : nodeMax d ≤ 511 := by cases d <;> decide

/-- The state once tree `t` of shape `tr` is built. -/
def State.built (s : State) (t : Role) (tr : CodeTree) : State :=
  s.setTree t { nodes := tr.store 0 [], count := BitVec.ofNat 10 tr.size, valid := true }

/-- The header's lists as the build reads them. -/
theorem HeaderHolds.shapeFrom {s : State} {t : Role} {tr : CodeTree} (h : HeaderHolds s t tr) : ShapeFrom s t 0 tr.shape := by
  intro j hj
  rw [CodeTree.shape_length] at hj
  obtain ⟨h1, -, h3, -⟩ := h
  obtain ⟨ha, hb⟩ := h3 j hj
  rw [Nat.zero_add]
  exact ⟨by omega, ha, hb⟩

theorem HeaderHolds.permFrom {s : State} {t : Role} {tr : CodeTree} (h : HeaderHolds s t tr) : PermFrom s t 0 tr.leaves := by
  intro j hj
  obtain ⟨-, h2, -, h4, -, h6⟩ := h
  obtain ⟨ha, hb⟩ := h4 j hj
  rw [Nat.zero_add]
  exact ⟨by omega, ha, hb, fun hd => h6 hd _ (List.mem_of_getElem? hb)⟩

theorem clearTree_eq (t : Role) (s : State) :
    clearTree t s = s.setTree t { nodes := [], count := 0, valid := false } := rfl

/-- A header that holds a tree of at least two leaves is built (R160, R163). -/
theorem buildTree_ok {s : State} {t : Role} {tr : CodeTree} (h : HeaderHolds s t tr) (h1 : 1 < tr.size) :
    buildTree t s = .ok () (s.built t tr) := by
  have hsz : tr.size ≤ nodeMax (s.hdr.get t).domain := h.2.2.2.2.1
  have hl := buildLoop_tree (t := t) (tr := tr) (n := nodeMax (s.hdr.get t).domain + 1 - tr.size) (b := .start)
    (s := clearTree t s) rfl (by simpa [BuildWork.start, clearTree] using hsz) h.shapeFrom h.permFrom
  rw [show tr.size + (nodeMax (s.hdr.get t).domain + 1 - tr.size) = nodeMax (s.hdr.get t).domain + 1 by omega] at hl
  rw [buildTree, hl]
  simp only [BuildWork.start, BuildWork.after, Run.bind_ok, Nat.zero_add, finishBuild]
  have e1 := h.1
  have e2 := h.2.1
  rw [if_neg, if_neg (by omega)]
  · simp [clearTree, State.built, State.withNodes, State.setTree]
  · simp only [State.withNodes_hdr, clearTree, State.setTree_hdr, e1, e2, ne_eq, not_true, or_self, not_false_eq_true]

/-- Everything a build can do: the header holds a tree and it is stored, or a fault of the header ends it with the
tree not valid. -/
theorem buildTree_cases (t : Role) (s : State) :
    (buildTree t s).Meets
      (fun _ u => ∃ tr, HeaderHolds s t tr ∧ 1 < tr.size ∧ u = s.built t tr)
      (BuildHalts (clearTree t s) t) (fun _ => False) := by
  have hcs : cellsSorted ((clearTree t s).tree.get t).nodes := by simp [clearTree, cellsSorted]
  have hcases := buildLoop_cases (t := t) (n := nodeMax (s.hdr.get t).domain + 1) (b := .start) (s := clearTree t s) rfl
    (Nat.zero_le _) (by simp [BuildWork.start, clearTree]) (Nat.zero_le _) hcs
  rw [buildTree]
  refine Run.Meets.bind ?_
  generalize hr : buildLoop t (nodeMax (s.hdr.get t).domain + 1) BuildWork.start (clearTree t s) = r at hcases ⊢
  cases r with
  | halt u => exact hcases
  | stop f => exact hcases
  | ok b u =>
    obtain ⟨trees, hlen, hsh, hpe, hsz⟩ := hcases
    match trees, hlen with
    | [tr], _ =>
      simp only [List.map_cons, List.map_nil, List.flatten_cons, List.flatten_nil, List.append_nil, List.sum_cons,
        List.sum_nil, Nat.add_zero, BuildWork.start, Nat.zero_add] at hsh hpe hsz
      have hsz' : tr.size ≤ nodeMax (s.hdr.get t).domain := by simpa [clearTree] using hsz
      have hl := buildLoop_tree (t := t) (tr := tr) (n := nodeMax (s.hdr.get t).domain + 1 - tr.size) (b := .start)
        (s := clearTree t s) rfl (by simpa [BuildWork.start, clearTree] using hsz) hsh hpe
      rw [show tr.size + (nodeMax (s.hdr.get t).domain + 1 - tr.size) = nodeMax (s.hdr.get t).domain + 1 by omega, hr] at hl
      simp only [BuildWork.start, BuildWork.after, Nat.zero_add, Run.ok.injEq] at hl
      obtain ⟨rfl, rfl⟩ := hl
      have hsorted : cellsSorted (tr.store 0 ((clearTree t s).tree.get t).nodes) := CodeTree.store_sorted hcs
      rw [Run.meets_ok, finishBuild]
      simp only
      split
      · exact ⟨_, _, _, .inr (.inr (.inr (.inl rfl))), hsorted, rfl⟩
      · rename_i hx
        split
        · exact ⟨_, _, _, .inr (.inr (.inr (.inr (.inl rfl)))), hsorted, rfl⟩
        · rename_i h1
          have hpos := tr.size_pos
          simp only [State.withNodes_hdr, clearTree, State.setTree_hdr, ne_eq, not_or, not_not] at hx
          refine ⟨tr, ⟨hx.1.symm, hx.2.symm, fun k hk => ?_, fun k hk => ?_, hsz', fun hd v hv => ?_⟩, by omega, ?_⟩
          · obtain ⟨-, g2, g3⟩ := hsh k (by simpa using hk)
            simp only [Nat.zero_add] at g2 g3
            exact ⟨g2, g3⟩
          · obtain ⟨-, g2, g3, -⟩ := hpe k hk
            simp only [Nat.zero_add] at g2 g3
            exact ⟨g2, g3⟩
          · obtain ⟨k, hk, rfl⟩ := List.getElem_of_mem hv
            obtain ⟨-, -, g3, g4⟩ := hpe k hk
            rw [List.getElem?_eq_getElem hk, Option.some.injEq] at g3
            rw [g3]
            exact g4 hd
          · simp [clearTree, State.built, State.withNodes, State.setTree]

end Sys2Proof.Machine
end

