-- ==== Sys2Proof/Laws/Encode.lean ====
section
/-! SUPPORT. The fields of encoded words, and what the decoders read from them. -/

namespace Sys2Proof

@[simp] theorem tupleWord_dy (dy dx n v : Byte) : (tupleWord dy dx n v).extractLsb' 24 8 = dy := by
  apply BitVec.eq_of_getLsbD_eq; intro i hi
  simp only [tupleWord, BitVec.getLsbD_extractLsb', BitVec.getLsbD_append]
  rw [show 24 + i - 8 - 8 - 8 = i by omega]
  simp [hi, show ¬ 24 + i < 8 by omega, show ¬ 24 + i - 8 < 8 by omega, show ¬ 24 + i - 8 - 8 < 8 by omega]

@[simp] theorem tupleWord_dx (dy dx n v : Byte) : (tupleWord dy dx n v).extractLsb' 16 8 = dx := by
  apply BitVec.eq_of_getLsbD_eq; intro i hi
  simp only [tupleWord, BitVec.getLsbD_extractLsb', BitVec.getLsbD_append]
  simp [hi, show ¬ 16 + i < 8 by omega, show ¬ 16 + i - 8 < 8 by omega, show 16 + i - 8 - 8 < 8 by omega]
  congr 1; omega

@[simp] theorem tupleWord_runlen (dy dx n v : Byte) : (tupleWord dy dx n v).extractLsb' 8 8 = n := by
  apply BitVec.eq_of_getLsbD_eq; intro i hi
  simp only [tupleWord, BitVec.getLsbD_extractLsb', BitVec.getLsbD_append]
  simp [hi, show ¬ 8 + i < 8 by omega]

@[simp] theorem tupleWord_value (dy dx n v : Byte) : (tupleWord dy dx n v).extractLsb' 0 8 = v := by
  apply BitVec.eq_of_getLsbD_eq; intro i hi
  simp only [tupleWord, BitVec.getLsbD_extractLsb', BitVec.getLsbD_append]
  simp [hi]

/-- A word is the tuple of its four bytes. -/
theorem tupleWord_bytes (w : Word) :
    tupleWord (w.extractLsb' 24 8) (w.extractLsb' 16 8) (w.extractLsb' 8 8) (w.extractLsb' 0 8) = w := by
  apply BitVec.eq_of_getLsbD_eq; intro i hi
  simp only [tupleWord, BitVec.getLsbD_append, BitVec.getLsbD_extractLsb']
  by_cases h1 : i < 8
  · simp [h1]
  · by_cases h2 : i - 8 < 8
    · simp [h1, h2]; congr 1; omega
    · by_cases h3 : i - 8 - 8 < 8
      · simp [h1, h2, h3]; congr 1; omega
      · simp [h1, h2, h3, show i - 8 - 8 - 8 < 8 by omega]; congr 1; omega

@[simp] theorem commandWord_op (op : Byte) (sel : BitVec 4) : (commandWord op sel).extractLsb' 0 8 = op := by
  apply BitVec.eq_of_getLsbD_eq; intro i hi
  simp only [commandWord, BitVec.getLsbD_extractLsb', BitVec.getLsbD_append]
  simp [hi]

@[simp] theorem commandWord_sel (op : Byte) (sel : BitVec 4) : (commandWord op sel).extractLsb' 8 4 = sel := by
  apply BitVec.eq_of_getLsbD_eq; intro i hi
  simp only [commandWord, BitVec.getLsbD_extractLsb', BitVec.getLsbD_append]
  simp [hi, show ¬ 8 + i < 8 by omega]

@[simp] theorem commandWord_upper (op : Byte) (sel : BitVec 4) : (commandWord op sel).extractLsb' 12 20 = 0 := by
  apply BitVec.eq_of_getLsbD_eq; intro i hi
  simp only [commandWord, BitVec.getLsbD_extractLsb', BitVec.getLsbD_append]
  simp [show ¬ 12 + i < 8 by omega, show ¬ 12 + i - 8 < 4 by omega]

/-- A word whose bits [31:12] are 0 is the command word of its two fields. -/
theorem commandWord_fields {w : Word} (h : w.extractLsb' 12 20 = 0) :
    commandWord (w.extractLsb' 0 8) (w.extractLsb' 8 4) = w := by
  apply BitVec.eq_of_getLsbD_eq; intro i hi
  have hu : ∀ j, j < 20 → w.getLsbD (12 + j) = false := by
    intro j hj
    have := congrArg (fun x => x.getLsbD j) h
    simpa [BitVec.getLsbD_extractLsb', hj] using this
  simp only [commandWord, BitVec.getLsbD_append, BitVec.getLsbD_extractLsb']
  by_cases h1 : i < 8
  · simp [h1]
  · by_cases h2 : i - 8 < 4
    · simp [h1, h2]; congr 1; omega
    · have := hu (i - 12) (by omega)
      rw [show 12 + (i - 12) = i by omega] at this
      simp [h1, h2, this]

/-- Everything the command decoder can read from a word. -/
theorem decodeCmd_ok {w : Word} {i : Instr} (h : decodeCmd w = .ok i) :
    w.extractLsb' 12 20 = 0 ∧ (i = .nop ∨ (∃ c, i = .build c) ∨ (∃ c, i = .decode c) ∨ (∃ c, i = .rdbit c) ∨
      i = .rstart ∨ i = .rstep ∨ i = .rrun ∨ i = .paldec ∨ i = .sreset) ∧ ∀ c, encode c i = w := by
  unfold decodeCmd at h
  simp only at h
  split at h
  · cases h
  · rename_i hu
    have hu : w.extractLsb' 12 20 = 0 := by simpa using hu
    refine ⟨hu, ?_⟩
    have hw := commandWord_fields hu
    split at h <;> rename_i hop <;>
      (try unfold plainCommand at h) <;> (try split at h) <;> cases h
    all_goals (
      refine ⟨by simp, fun c => ?_⟩
      have hop' := congrArg (BitVec.ofNat 8) hop
      rw [BitVec.ofNat_toNat, BitVec.setWidth_eq] at hop'
      rw [← hw, hop']
      first | rfl | (rw [commandWord_sel]; rfl) | (rename_i hsel; rw [hsel]; rfl))

/-- What the decoder reads from a command. -/
theorem decodeCmd_encode {i : Instr} (c : Ctx) (h : i.format = .cmd) : decodeCmd (encode c i) = .ok i := by
  cases i <;> cases h <;> unfold decodeCmd encode <;>
    simp only [commandWord_upper, commandWord_op, commandWord_sel, ne_eq, not_true, if_false] <;> rfl

end Sys2Proof
end

