-- ==== Sys2Proof/Laws/Host.lean ====
section
/-! SUPPORT. The register interface: everything a register read and a register write can do. -/

namespace Sys2Proof

theorem Reg.ofIndex_index (r : Reg) : Reg.ofIndex r.index = some r := by
  cases r <;> first | rfl | (rename_i t; cases t <;> rfl)

/-- An index the map has belongs to one register. -/
theorem Reg.index_of_ofIndex : ∀ i : BitVec 8, ∀ r, Reg.ofIndex i = some r → r.index = i := by
  have h : ∀ i : BitVec 8, (Reg.ofIndex i).all fun r => r.index == i := by decide +kernel
  intro i r hr
  have := h i
  rw [hr] at this
  simpa using this

end Sys2Proof

namespace Sys2Proof.Machine

/-! Reads. -/

theorem regRead_unmapped {i : BitVec 8} {s : State} (h : Reg.ofIndex i = none) :
    regRead i s = (0, raise .badRegister noUnit i.toNat s) := by rw [regRead, h]

theorem regRead_good {r : Reg} {s : State} (h : readGuard r s = none) : regRead r.index s = (regValue r s, s) := by
  rw [regRead, Reg.ofIndex_index]; simp only [h]

theorem regRead_guarded {r : Reg} {s : State} {a : Nat} (h : readGuard r s = some a) :
    regRead r.index s = (0, raise .readInvalid noUnit a s) := by
  rw [regRead, Reg.ofIndex_index]; simp only [h]

/-- R272: a read changes nothing but the fault record. -/
theorem regRead_state (i : BitVec 8) (s : State) :
    (regRead i s).2 = s ∨ ∃ c a, (c = .badRegister ∨ c = .readInvalid) ∧ (regRead i s).2 = raise c noUnit a s := by
  unfold regRead
  split
  · exact .inr ⟨_, _, .inl rfl, rfl⟩
  · split
    · exact .inr ⟨_, _, .inr rfl, rfl⟩
    · exact .inl rfl

/-! Writes. -/

/-- What a legal register write changes: registers the host may write, and in a session only the two read indices. -/
structure HostSets (s t : State) : Prop where
  eq : ∃ ctrl width height rbufAddr lutIdx b0 b1 e0 e1 cur hdr, t = { s with
    ctrl := ctrl, width := width, height := height, rbufAddr := rbufAddr, lutIdx := lutIdx, palBase0 := b0,
    palBase1 := b1, palEnd0 := e0, palEnd1 := e1, cur := cur, hdr := hdr }
  locked : s.rstate = .run → t.ctrl = s.ctrl ∧ t.cur = s.cur

theorem setReg_sets {r : Reg} {v : Word} {s t : State} (h : setReg r v s = some t)
    (hl : s.rstate = .run → unlockedInSession r = true) : HostSets s t := by
  unfold setReg at h
  cases r <;> simp only [Option.map_eq_some_iff, Option.some.injEq, reduceCtorEq] at h
  all_goals (
    obtain ⟨x, -, rfl⟩ := h
    exact ⟨⟨_, _, _, _, _, _, _, _, _, _, _, rfl⟩, fun hr => by
      first | exact ⟨rfl, rfl⟩ | exact absurd (hl hr) (by decide) | exact absurd (hl hr) (by simp [unlockedInSession])⟩)

/-- Everything a write of a register can do: nothing or `SRESET` with a fault recorded (R295), a fault of the
interface (R273), a command (R103), or a register set. -/
theorem regWrite_cases {i : BitVec 8} {v : Word} {s : State} {o} (h : regWrite i v s = o) :
    (s.fault.kind ≠ 0 ∧ o = .next s) ∨ (s.fault.kind ≠ 0 ∧ i = 0x05 ∧ v = 0x0000000F ∧ o = exec .sreset s) ∨
    (s.fault.kind = 0 ∧ ∃ c a, o = .next (raise c noUnit a s)) ∨
    (s.fault.kind = 0 ∧ i = 0x05 ∧ ∃ j, decodeCmd v = .ok j ∧ o = exec j s) ∨
    (s.fault.kind = 0 ∧ ∃ t r, r.index = i ∧ (s.rstate = .run → r = .rbufAddr ∨ r = .lutIdx) ∧
      setReg r v s = some t ∧ HostSets s t ∧ o = .next t) := by
  subst h
  unfold regWrite
  split
  · rename_i hf
    have hk := (State.faulted_iff s).1 hf
    split
    · rename_i hc; exact .inr (.inl ⟨hk, hc.1, hc.2, rfl⟩)
    · exact .inl ⟨hk, rfl⟩
  · rename_i hf
    have hk := (State.not_faulted_iff s).1 (by simpa using hf)
    split
    · exact .inr (.inr (.inl ⟨hk, _, _, rfl⟩))
    · rename_i r hr
      have hri := Reg.index_of_ofIndex i r hr
      split
      · exact .inr (.inr (.inl ⟨hk, _, _, rfl⟩))
      · rename_i ha
        have hcmd : r = .cmd := by cases r <;> first | rfl | cases ha
        subst hcmd
        unfold commandWrite
        split
        · rename_i j hj
          exact .inr (.inr (.inr (.inl ⟨hk, hri.symm, j, hj, rfl⟩)))
        · split <;> exact .inr (.inr (.inl ⟨hk, _, _, rfl⟩))
      · unfold plainWrite
        split
        · exact .inr (.inr (.inl ⟨hk, _, _, rfl⟩))
        · rename_i hl
          split
          · exact .inr (.inr (.inl ⟨hk, _, _, rfl⟩))
          · rename_i t ht
            have hu : s.rstate = .run → unlockedInSession r = true := by
              intro hr'
              by_contra hc
              exact hl ⟨hr', by simpa using hc⟩
            refine .inr (.inr (.inr (.inr ⟨hk, t, r, hri, fun hr' => ?_, ht, setReg_sets ht hu, rfl⟩)))
            have := hu hr'
            simpa [unlockedInSession] using this

end Sys2Proof.Machine
end

