-- ==== Sys2Proof/Laws/Raster.lean ====
section
/-! SUPPORT. The raster: what a fill and a copy write, everything one token can do, and everything RSTEP and RRUN
can do. -/

namespace Sys2Proof.Machine

/-! Fill. -/

theorem read_fillCells (m : List Host.Cell) (a : Nat) (v : Byte) (n b : Nat) :
    Memory.read (fillCells m a v n) b = if a ≤ b ∧ b < a + n then v else Memory.read m b := by
  induction n generalizing m a with
  | zero => rw [fillCells, if_neg (by omega)]
  | succ n ih =>
    rw [fillCells, ih, Memory.read_write]
    by_cases h : b = a
    · rw [if_neg (by omega), if_pos h, if_pos (by omega)]
    · rw [if_neg h]
      by_cases h' : a + 1 ≤ b ∧ b < a + 1 + n
      · rw [if_pos h', if_pos (by omega)]
      · rw [if_neg h', if_neg (by omega)]

theorem fillCells_wf {m : List Host.Cell} (h : Memory.wf m) (a : Nat) (v : Byte) (n : Nat) :
    Memory.wf (fillCells m a v n) := by
  induction n generalizing m a with
  | zero => exact h
  | succ n ih => exact ih (Memory.wf_write h a v) _

theorem mem_fillCells {m : List Host.Cell} {a : Nat} {v : Byte} {n : Nat} {c : Host.Cell}
    (h : c ∈ fillCells m a v n) : (c.1 < a + n ∧ c.2 = v) ∨ c ∈ m := by
  induction n generalizing m a with
  | zero => exact .inr h
  | succ n ih =>
    rcases ih h with ⟨h1, h2⟩ | h
    · exact .inl ⟨by omega, h2⟩
    · rcases mem_write h with ⟨rfl, -⟩ | h
      · exact .inl ⟨by simp only; omega, rfl⟩
      · exact .inr h

/-! Copy. -/

/-- A copy changes the raster and `BUFPOS` only. -/
theorem copyBytes_eq (offset : Int) (n : Nat) (s : State) :
    copyBytes offset n s =
      { s with rbuf := (copyBytes offset n s).rbuf, bufpos := BitVec.ofNat 32 (s.bufpos.toNat + n) } := by
  induction n generalizing s with
  | zero => simp [copyBytes]
  | succ n ih =>
    have he : BitVec.ofNat 32 ((s.putByte (s.behind offset)).bufpos.toNat + n) =
        BitVec.ofNat 32 (s.bufpos.toNat + (n + 1)) := by
      apply BitVec.eq_of_toNat_eq; simp only [State.putByte_bufpos, BitVec.toNat_ofNat]; omega
    rw [copyBytes, ih, he]
    rfl

theorem State.putByte_bufpos_toNat {s : State} (v : Byte) (h : s.bufpos.toNat + 1 < 2 ^ 32) :
    (s.putByte v).bufpos.toNat = s.bufpos.toNat + 1 := by
  rw [State.putByte_bufpos, BitVec.toNat_ofNat, Nat.mod_eq_of_lt h]

/-- R83, R198: byte `j` of a copy is the byte `offset` behind it, so the last `offset` bytes repeat. -/
theorem read_copyBytes {offset : Int} {n : Nat} {s : State} (h1 : 1 ≤ offset.toNat)
    (h2 : offset.toNat ≤ s.bufpos.toNat) (h3 : s.bufpos.toNat + n < 2 ^ 32) (b : Nat) :
    Memory.read (copyBytes offset n s).rbuf b =
      if s.bufpos.toNat ≤ b ∧ b < s.bufpos.toNat + n then
        Memory.read s.rbuf (s.bufpos.toNat - offset.toNat + (b - s.bufpos.toNat) % offset.toNat)
      else Memory.read s.rbuf b := by
  induction n generalizing s with
  | zero => rw [copyBytes, if_neg (by omega)]
  | succ n ih =>
    have hp : ∀ v, (s.putByte v).bufpos.toNat = s.bufpos.toNat + 1 := fun v => State.putByte_bufpos_toNat v (by omega)
    rw [copyBytes, ih (by rw [hp]; omega) (by rw [hp]; omega)]
    simp only [hp, State.putByte_rbuf, Memory.read_write, State.behind]
    by_cases hb : s.bufpos.toNat + 1 ≤ b ∧ b < s.bufpos.toNat + 1 + n
    · rw [if_pos hb, if_pos (show s.bufpos.toNat ≤ b ∧ b < s.bufpos.toNat + (n + 1) by omega)]
      obtain ⟨j, rfl⟩ : ∃ j, b = s.bufpos.toNat + 1 + j := ⟨b - (s.bufpos.toNat + 1), by omega⟩
      have e1 : s.bufpos.toNat + 1 + j - (s.bufpos.toNat + 1) = j := by omega
      have e2 : s.bufpos.toNat + 1 + j - s.bufpos.toNat = j + 1 := by omega
      rw [e1, e2]
      have hlt := Nat.mod_lt j (show offset.toNat > 0 by omega)
      by_cases hj : j % offset.toNat = offset.toNat - 1
      · have hz : (j + 1) % offset.toNat = 0 := by
          rw [Nat.add_mod, hj]
          rcases Nat.lt_or_ge 1 offset.toNat with h | h
          · rw [Nat.mod_eq_of_lt h, show offset.toNat - 1 + 1 = offset.toNat by omega, Nat.mod_self]
          · have : offset.toNat = 1 := by omega
            simp [this]
        rw [if_pos (by omega), hz, Nat.add_zero]
      · have hs : (j + 1) % offset.toNat = j % offset.toNat + 1 := by
          rw [Nat.add_mod, Nat.mod_eq_of_lt (show 1 < offset.toNat by omega), Nat.mod_eq_of_lt (by omega)]
        rw [if_neg (by omega), hs]
        congr 1
        omega
    · rw [if_neg hb]
      by_cases hb' : b = s.bufpos.toNat
      · subst hb'
        rw [if_pos rfl, if_pos (by omega), Nat.sub_self, Nat.zero_mod, Nat.add_zero]
      · rw [if_neg hb', if_neg (by omega)]

/-! What the raster keeps. -/

/-- The raster in canonical form, its bytes below `BUFPOS` and below 16 (R40). -/
structure RasterOk (m : List Host.Cell) (p : Nat) : Prop where
  wf : Memory.wf m
  bound : ∀ c ∈ m, c.1 < p
  value : ∀ c ∈ m, c.2.toNat < 16

theorem RasterOk.read {m : List Host.Cell} {p : Nat} (h : RasterOk m p) (a : Nat) : (Memory.read m a).toNat < 16 := by
  unfold Memory.read
  cases hc : cellsLookup m a with
  | none => simp [unlisted]
  | some v =>
    have : ∀ {k : List Host.Cell}, cellsLookup k a = some v → (a, v) ∈ k := by
      intro k hk
      induction k with
      | nil => simp at hk
      | cons c k ih =>
        rw [cellsLookup_cons] at hk
        split at hk
        · rename_i h'; subst h'; simp only [Option.some.injEq] at hk; subst hk; simp
        · exact List.mem_cons_of_mem _ (ih hk)
    exact h.value _ (this hc)

theorem RasterOk.write {m : List Host.Cell} {p : Nat} (h : RasterOk m p) {v : Byte} (hv : v.toNat < 16) :
    RasterOk (Memory.write m p v) (p + 1) := by
  refine ⟨Memory.wf_write h.wf _ _, fun c hc => ?_, fun c hc => ?_⟩ <;> rcases mem_write hc with ⟨rfl, -⟩ | hc
  · simp only; omega
  · have := h.bound c hc; omega
  · exact hv
  · exact h.value c hc

theorem RasterOk.fill {m : List Host.Cell} {p : Nat} (h : RasterOk m p) {v : Byte} (hv : v.toNat < 16) (n : Nat) :
    RasterOk (fillCells m p v n) (p + n) := by
  refine ⟨fillCells_wf h.wf _ _ _, fun c hc => ?_, fun c hc => ?_⟩ <;> rcases mem_fillCells hc with ⟨h1, h2⟩ | hc
  · exact h1
  · have := h.bound c hc; omega
  · rw [h2]; exact hv
  · exact h.value c hc

theorem RasterOk.copy {offset : Int} {n : Nat} {s : State} (h : RasterOk s.rbuf s.bufpos.toNat)
    (hn : s.bufpos.toNat + n < 2 ^ 32) : RasterOk (copyBytes offset n s).rbuf (s.bufpos.toNat + n) := by
  induction n generalizing s with
  | zero => exact h
  | succ n ih =>
    have hp := State.putByte_bufpos_toNat (s := s) (s.behind offset) (by omega)
    rw [copyBytes, show s.bufpos.toNat + (n + 1) = (s.putByte (s.behind offset)).bufpos.toNat + n by omega]
    refine ih ?_ (by omega)
    rw [hp]
    exact h.write (h.read _)

/-! One token. -/

/-- The faults of a token once its symbols are decoded (R200), each with its unit. -/
def tokenFault (c : Cause) (u : BitVec 4) : Prop :=
  (c = .valueRange ∧ u = streamUnit .val) ∨ (c = .runOverflow ∧ u = streamUnit .run) ∨
    (c = .backrefNotBehind ∧ u = streamUnit .dx) ∨ (c = .backrefBeforeStart ∧ u = streamUnit .dx)

/-- R203 for one token, R204: it goes on from `p` to a later place, at most `NPIX`, and changes no byte below `p`. -/
structure Progress (s : State) (m : List Host.Cell) (p : Nat) : Prop where
  later : s.bufpos.toNat < p
  bound : p ≤ s.npix.toNat
  kept : ∀ a < s.bufpos.toNat, Memory.read m a = Memory.read s.rbuf a
  raster : RasterOk s.rbuf s.bufpos.toNat → RasterOk m p

/-- Everything a token can do once its symbols are decoded, in a running session. -/
theorem runToken_cases {dy dx runlen value : Byte} {offset : Int} {s : State} (hp : s.bufpos.toNat < s.npix.toNat) :
    (runToken dy dx runlen value offset s).Meets
      (fun _ u => ∃ m p, Progress s m p ∧
        u = { latchToken dy dx runlen value offset s with rbuf := m, bufpos := BitVec.ofNat 32 p })
      (fun u => ∃ k w, tokenFault k w ∧ u = raise k w s.bufpos.toNat (latchToken dy dx runlen value offset s))
      (fun _ => False) := by
  have hN := s.npix.isLt
  unfold runToken
  simp only
  split
  · exact ⟨_, _, .inl ⟨rfl, rfl⟩, rfl⟩
  · rename_i hv
    have hv : value.toNat < 16 := Nat.not_le.1 hv
    split
    · refine ⟨Memory.write s.rbuf s.bufpos.toNat value, s.bufpos.toNat + 1, ⟨by omega, by omega, ?_, fun h => h.write hv⟩, rfl⟩
      intro a ha
      rw [Memory.read_write, if_neg (by omega)]
    · rename_i hlit
      split
      · rename_i h0
        unfold applyFill
        split
        · exact ⟨_, _, .inr (.inl ⟨rfl, rfl⟩), rfl⟩
        · rename_i hr
          have hr : s.bufpos.toNat + runlen.toNat ≤ s.npix.toNat := Nat.not_lt.1 hr
          have hpos : runlen.toNat ≠ 0 := fun hz => hlit ⟨h0, BitVec.eq_of_toNat_eq hz⟩
          refine ⟨fillCells s.rbuf s.bufpos.toNat value runlen.toNat, s.bufpos.toNat + runlen.toNat,
            ⟨by omega, hr, ?_, fun h => h.fill hv _⟩, rfl⟩
          intro a ha
          rw [read_fillCells, if_neg (by omega)]
      · rename_i h0
        unfold applyCopy
        split
        · exact ⟨_, _, .inr (.inl ⟨rfl, rfl⟩), rfl⟩
        · rename_i hr
          have hr : s.bufpos.toNat + runlen.toNat ≤ s.npix.toNat := Nat.not_lt.1 hr
          split
          · exact ⟨_, _, .inr (.inr (.inl ⟨rfl, rfl⟩)), rfl⟩
          · rename_i hneg
            split
            · exact ⟨_, _, .inr (.inr (.inr ⟨rfl, rfl⟩)), rfl⟩
            · rename_i hbefore
              have hk : ∀ a < s.bufpos.toNat, Memory.read (copyBytes offset runlen.toNat
                  (latchToken dy dx runlen value offset s)).rbuf a = Memory.read s.rbuf a := by
                intro a ha
                rcases Nat.eq_zero_or_pos runlen.toNat with hz | hz
                · rw [hz]; rfl
                · have hlo : ¬ offset < 0 := fun h => hneg ⟨hz, h⟩
                  have hhi : ¬ (s.bufpos.toNat : Int) < offset := fun h => hbefore ⟨hz, h⟩
                  rw [read_copyBytes (by omega) (by show offset.toNat ≤ s.bufpos.toNat; omega)
                    (by show s.bufpos.toNat + runlen.toNat < 2 ^ 32; omega)]
                  exact if_neg (by show ¬ (s.bufpos.toNat ≤ a ∧ _); omega)
              have hra : RasterOk s.rbuf s.bufpos.toNat → RasterOk (copyBytes offset runlen.toNat
                  (latchToken dy dx runlen value offset s)).rbuf (s.bufpos.toNat + runlen.toNat) :=
                fun h => RasterOk.copy (s := latchToken dy dx runlen value offset s) h (by
                  show s.bufpos.toNat + runlen.toNat < 2 ^ 32; omega)
              have hm : (s.bufpos.toNat + runlen.toNat) % 2 ^ 32 = s.bufpos.toNat + runlen.toNat :=
                Nat.mod_eq_of_lt (by omega)
              rw [copyBytes_eq]
              show (Run.ok () (putTrailing value _)).Meets _ _ _
              unfold putTrailing
              simp only [latchToken, BitVec.toNat_ofNat, hm]
              split
              · rename_i hroom
                refine ⟨_, s.bufpos.toNat + runlen.toNat + 1, ⟨by omega, by omega, ?_, fun h => (hra h).write hv⟩, ?_⟩
                · intro a ha
                  rw [Memory.read_write, if_neg (by omega)]
                  exact hk a ha
                · simp only [State.putByte, BitVec.toNat_ofNat, hm, latchToken]
              · rename_i hroom
                refine ⟨_, s.bufpos.toNat + runlen.toNat, ⟨by omega, by omega, hk, hra⟩, rfl⟩

/-! Tokens of a session. -/

/-- Cursors moved ahead: only offsets differ, and none is smaller (R31, R144). -/
def CursorsAhead (c d : PerRole Cursor) : Prop :=
  ∀ r, d.get r = { c.get r with off := (d.get r).off } ∧ (c.get r).off.toNat ≤ (d.get r).off.toNat

theorem CursorsAhead.refl (c : PerRole Cursor) : CursorsAhead c c := fun _ => ⟨rfl, Nat.le_refl _⟩

theorem CursorsAhead.trans {c d e : PerRole Cursor} (h1 : CursorsAhead c d) (h2 : CursorsAhead d e) : CursorsAhead c e := by
  intro r
  refine ⟨?_, Nat.le_trans (h1 r).2 (h2 r).2⟩
  rw [(h2 r).1, (h1 r).1]

theorem CursorsAhead.skipBits {s : State} {c : Role} {n : Nat} (h : (s.cur.get c).off.toNat + n < 2 ^ 32) :
    CursorsAhead s.cur (s.skipBits c n).cur := by
  intro r
  by_cases hr : r = c
  · subst hr
    rw [State.skipBits_get_self]
    simp only [BitVec.toNat_ofNat, Nat.mod_eq_of_lt h, true_and]
    omega
  · rw [State.skipBits_get_ne s hr]
    exact ⟨rfl, Nat.le_refl _⟩

/-- Everything `decode(t)` can do on a valid tree, as far as the rest of the state goes. -/
theorem decodeSymbol_ahead {t : Role} {s : State} (ht : TreeOk (s.tree.get t)) (hv : (s.tree.get t).valid = true) :
    (decodeSymbol t s).Meets
      (fun _ u => ∃ c, CursorsAhead s.cur c ∧ u = { s with cur := c })
      (fun u => ∃ c k a, CursorsAhead s.cur c ∧ readFault k ∧ u = raise k (streamUnit t) a { s with cur := c })
      (fun _ => False) := by
  obtain ⟨l, r, hz, -, hl⟩ := ht.valid hv
  refine (decodeSymbol_cases hl hz).mono ?_ ?_ (fun _ h => h)
  · rintro v u ⟨p, -, hs, rfl⟩
    exact ⟨_, .skipBits hs.off_lt, rfl⟩
  · rintro u ⟨p, k, -, hs, hk, rfl⟩
    exact ⟨_, k, _, .skipBits hs.off_lt, hk, rfl⟩

/-- What tokens change: cursors ahead, the latches, and the raster from `BUFPOS` on. -/
def RasterMoves (s u : State) : Prop :=
  ∃ c m p lt lo, CursorsAhead s.cur c ∧ s.bufpos.toNat ≤ p ∧ p ≤ s.npix.toNat ∧
    (∀ a < s.bufpos.toNat, Memory.read m a = Memory.read s.rbuf a) ∧
    (RasterOk s.rbuf s.bufpos.toNat → RasterOk m p) ∧
    u = { s with cur := c, rbuf := m, bufpos := BitVec.ofNat 32 p, lasttok := lt, lastoff := lo }

theorem RasterMoves.refl {s : State} (h : s.bufpos.toNat ≤ s.npix.toNat) : RasterMoves s s :=
  ⟨s.cur, s.rbuf, s.bufpos.toNat, s.lasttok, s.lastoff, .refl _, Nat.le_refl _, h, fun _ _ => rfl, id, by simp⟩

theorem RasterMoves.trans {s u w : State} (h1 : RasterMoves s u) (h2 : RasterMoves u w) : RasterMoves s w := by
  obtain ⟨c, m, p, lt, lo, hc, hp, hb, hk, hr, rfl⟩ := h1
  obtain ⟨c', m', p', lt', lo', hc', hp', hb', hk', hr', rfl⟩ := h2
  have hN := s.npix.isLt
  simp only [BitVec.toNat_ofNat, Nat.mod_eq_of_lt (show p < 2 ^ 32 by omega)] at hc' hp' hb' hk' hr'
  exact ⟨c', m', p', lt', lo', hc.trans hc', by omega, hb', fun a ha => (hk' a (by omega)).trans (hk a ha),
    fun h => hr' (hr h), rfl⟩

/-- A fault of a token, or of the decoding of its symbols. -/
def streamFault (k : Cause) (w : BitVec 4) : Prop := tokenFault k w ∨ readFault k

/-- How a token ends with a fault: cursors ahead, and the latches if its symbols were decoded; nothing written (R200). -/
def TokenHalts (s u : State) : Prop :=
  ∃ c lt lo k n a, CursorsAhead s.cur c ∧ streamFault k n ∧ (readFault k → lt = s.lasttok ∧ lo = s.lastoff) ∧
    u = raise k n a { s with cur := c, lasttok := lt, lastoff := lo }

/-- How a session's command ends with a fault: the tokens before it stay executed (R202), and the raster is not full. -/
def RasterHalts (s u : State) : Prop := ∃ w, RasterMoves s w ∧ w.bufpos.toNat < w.npix.toNat ∧ TokenHalts w u

/-- The trees a session's layout uses are valid code trees (R190, R275). -/
def SessionReady (s : State) : Prop := (∀ t, TreeOk (s.tree.get t)) ∧ sessionTreesValid s = true

theorem SessionReady.valid {s : State} (h : SessionReady s) :
    s.tree.dx.valid = true ∧ s.tree.run.valid = true ∧ s.tree.val.valid = true ∧
      (s.ctrl.layout = .quad → s.tree.dy.valid = true) := by
  have := h.2
  unfold sessionTreesValid at this
  simp only [Bool.and_eq_true] at this
  obtain ⟨⟨⟨h1, h2⟩, h3⟩, h4⟩ := this
  refine ⟨h1, h2, h3, fun hq => ?_⟩
  rw [hq] at h4
  exact h4

theorem RasterMoves.of_cur {s : State} {c : PerRole Cursor} (h : s.bufpos.toNat ≤ s.npix.toNat)
    (hc : CursorsAhead s.cur c) : RasterMoves s { s with cur := c } :=
  ⟨c, s.rbuf, s.bufpos.toNat, s.lasttok, s.lastoff, hc, Nat.le_refl _, h, fun _ _ => rfl, id, by simp⟩

theorem decodeSymbol_token {t : Role} {s : State} (ht : TreeOk (s.tree.get t)) (hv : (s.tree.get t).valid = true) :
    (decodeSymbol t s).Meets (fun _ u => ∃ c, CursorsAhead s.cur c ∧ u = { s with cur := c }) (TokenHalts s)
      (fun _ => False) := by
  refine (decodeSymbol_ahead ht hv).mono (fun _ _ h => h) ?_ (fun _ h => h)
  rintro u ⟨c, k, a, hc, hk, rfl⟩
  exact ⟨c, s.lasttok, s.lastoff, k, _, a, hc, .inr hk, fun _ => ⟨rfl, rfl⟩, rfl⟩

theorem TokenHalts.of_cur {s u : State} {c : PerRole Cursor} (hc : CursorsAhead s.cur c)
    (h : TokenHalts { s with cur := c } u) : TokenHalts s u := by
  obtain ⟨d, lt, lo, k, n, a, hd, hk, hl, rfl⟩ := h
  exact ⟨d, lt, lo, k, n, a, hc.trans hd, hk, hl, rfl⟩

theorem tokenFault_not_read {k : Cause} {n : BitVec 4} (h : tokenFault k n) : ¬ readFault k := by
  rcases h with ⟨rfl, -⟩ | ⟨rfl, -⟩ | ⟨rfl, -⟩ | ⟨rfl, -⟩ <;> simp [readFault]

/-- Everything `token()` can do in a running session (R195, R203). -/
theorem token_cases {s : State} (hr : SessionReady s) (hp : s.bufpos.toNat < s.npix.toNat) :
    (token s).Meets (fun _ u => RasterMoves s u ∧ s.bufpos.toNat < u.bufpos.toNat) (TokenHalts s)
      (fun _ => False) := by
  obtain ⟨v1, v2, v3, v0⟩ := hr.valid
  have hN := s.npix.isLt
  unfold token fetchDy
  have hdy : (match s.ctrl.layout with | .quad => decodeSymbol .dy s | .delta => .ok 0 s : Run Byte).Meets
      (fun _ u => ∃ c, CursorsAhead s.cur c ∧ u = { s with cur := c }) (TokenHalts s) (fun _ => False) := by
    cases hl : s.ctrl.layout with
    | quad => exact decodeSymbol_token (hr.1 .dy) (v0 hl)
    | delta => exact ⟨s.cur, .refl _, rfl⟩
  refine Run.Meets.bind (hdy.mono ?_ (fun _ h => h) (fun _ h => h))
  rintro dy _ ⟨c0, h0, rfl⟩
  refine Run.Meets.bind ((decodeSymbol_token (t := .dx) (s := { s with cur := c0 }) (hr.1 .dx) v1).mono ?_
    (fun _ h => h.of_cur h0) (fun _ h => h))
  rintro dx _ ⟨c1, h1, rfl⟩
  have h1 := h0.trans h1
  refine Run.Meets.bind ((decodeSymbol_token (t := .run) (s := { s with cur := c1 }) (hr.1 .run) v2).mono ?_
    (fun _ h => h.of_cur h1) (fun _ h => h))
  rintro runlen _ ⟨c2, h2, rfl⟩
  have h2 := h1.trans h2
  refine Run.Meets.bind ((decodeSymbol_token (t := .val) (s := { s with cur := c2 }) (hr.1 .val) v3).mono ?_
    (fun _ h => h.of_cur h2) (fun _ h => h))
  rintro value _ ⟨c3, h3, rfl⟩
  have h3 := h2.trans h3
  refine (runToken_cases (s := { s with cur := c3 }) hp).mono ?_ ?_ (fun _ h => h)
  · rintro _ u ⟨m, p, ⟨g1, g2, g3, g4⟩, rfl⟩
    have hm : p % 2 ^ 32 = p := Nat.mod_eq_of_lt (by omega)
    refine ⟨⟨c3, m, p, _, _, h3, Nat.le_of_lt g1, g2, g3, g4, rfl⟩, ?_⟩
    simp only [BitVec.toNat_ofNat, hm]
    exact g1
  · rintro u ⟨k, w, hk, rfl⟩
    exact ⟨c3, _, _, k, w, _, h3, .inl hk, fun h => absurd h (tokenFault_not_read hk), rfl⟩

theorem SessionReady.of_moves {s u : State} (hr : SessionReady s) (h : RasterMoves s u) : SessionReady u := by
  obtain ⟨c, m, p, lt, lo, -, -, -, -, -, rfl⟩ := h
  exact hr

/-- Everything `RSTEP` can do once legal (R201). -/
theorem rstepBody_cases {s : State} (hr : SessionReady s) (hp : s.bufpos.toNat < s.npix.toNat) :
    (rstepBody s).Meets
      (fun _ u => ∃ w, RasterMoves s w ∧ s.bufpos.toNat < w.bufpos.toNat ∧
        u = if w.bufpos = w.npix then { w with rstate := .done } else w)
      (TokenHalts s) (fun _ => False) := by
  unfold rstepBody
  refine Run.Meets.bind ((token_cases hr hp).mono ?_ (fun _ h => h) (fun _ h => h))
  rintro _ u ⟨h1, h2⟩
  exact ⟨u, h1, h2, rfl⟩

theorem RasterMoves.npix {s u : State} (h : RasterMoves s u) : u.npix = s.npix ∧ u.bufpos.toNat ≤ u.npix.toNat := by
  obtain ⟨c, m, p, lt, lo, -, -, h2, -, -, rfl⟩ := h
  have hN := s.npix.isLt
  refine ⟨rfl, ?_⟩
  simp only [BitVec.toNat_ofNat, Nat.mod_eq_of_lt (show p < 2 ^ 32 by omega)]
  exact h2

/-- Everything the loop of `RRUN` can do within the bound R203 gives it. -/
theorem rasterLoop_cases {n : Nat} {s : State} (hr : SessionReady s) (hp : s.bufpos.toNat ≤ s.npix.toNat)
    (hn : s.npix.toNat - s.bufpos.toNat ≤ n) :
    (rasterLoop n s).Meets
      (fun _ u => ∃ w, RasterMoves s w ∧ w.bufpos = w.npix ∧ u = { w with rstate := .done })
      (RasterHalts s) (fun _ => False) := by
  induction n generalizing s with
  | zero =>
    have he : s.bufpos = s.npix := BitVec.eq_of_toNat_eq (by omega)
    rw [rasterLoop, if_pos he]
    exact ⟨s, .refl hp, he, rfl⟩
  | succ n ih =>
    rw [rasterLoop]
    split
    · rename_i he
      exact ⟨s, .refl hp, he, rfl⟩
    · rename_i he
      have hlt : s.bufpos.toNat < s.npix.toNat :=
        Nat.lt_of_le_of_ne hp fun h => he (BitVec.eq_of_toNat_eq h)
      refine Run.Meets.bind ((token_cases hr hlt).mono ?_ (fun _ h => ⟨s, .refl hp, hlt, h⟩) (fun _ h => h))
      rintro _ w ⟨hw, hlt'⟩
      obtain ⟨hnp, hb⟩ := hw.npix
      refine (ih (hr.of_moves hw) hb (by rw [hnp]; omega)).mono ?_ ?_ (fun _ h => h)
      · rintro _ u ⟨x, hx, he, rfl⟩
        exact ⟨x, hw.trans hx, he, rfl⟩
      · rintro u ⟨x, hx, hlt, hk⟩
        exact ⟨x, hw.trans hx, hlt, hk⟩

end Sys2Proof.Machine
end

