-- ==== Sys2Proof/Laws/Palette.lean ====
section
/-! SUPPORT. The palette: entries set and read, and everything PALDEC can do. -/

namespace Sys2Proof.Machine

@[simp] theorem State.palAt_setPal_self (s : State) (i : BitVec 4) (e : PalEntry) : (s.setPal i e).palAt i = e := by
  simp [State.palAt, State.setPal]

theorem State.palAt_setPal_ne (s : State) {i j : BitVec 4} (h : j ≠ i) (e : PalEntry) :
    (s.setPal i e).palAt j = s.palAt j := by
  have : i.toNat ≠ j.toNat := fun hij => h (BitVec.eq_of_toNat_eq hij.symm)
  simp [State.palAt, State.setPal, this]

/-- R246 as the table of the spec. -/
theorem scale_table : (List.range 32).map (fun v => (scale (BitVec.ofNat 5 v)).toNat) =
    [0, 8, 16, 24, 32, 41, 49, 57, 65, 74, 82, 90, 98, 106, 115, 123] ++
    [131, 139, 148, 156, 164, 172, 180, 189, 197, 205, 213, 222, 230, 238, 246, 255] := by decide

/-- What the entries of a palette change: the colour cursor ahead, and entries other than 0. -/
def PaletteMoves (s u : State) : Prop :=
  ∃ c q, CursorsAhead s.cur c ∧ q[0] = s.pal[0] ∧ u = { s with cur := c, pal := q }

theorem PaletteMoves.refl (s : State) : PaletteMoves s s := ⟨s.cur, s.pal, .refl _, rfl, rfl⟩

theorem PaletteMoves.trans {s u w : State} (h1 : PaletteMoves s u) (h2 : PaletteMoves u w) : PaletteMoves s w := by
  obtain ⟨c, q, hc, hq, rfl⟩ := h1
  obtain ⟨c', q', hc', hq', rfl⟩ := h2
  exact ⟨c', q', hc.trans hc', hq'.trans hq, rfl⟩

theorem PaletteMoves.of_cur {s : State} {c : PerRole Cursor} (h : CursorsAhead s.cur c) :
    PaletteMoves s { s with cur := c } := ⟨c, s.pal, h, rfl, rfl⟩

theorem PaletteMoves.setPal {s : State} {i : BitVec 4} (h : i ≠ 0) (e : PalEntry) : PaletteMoves s (s.setPal i e) := by
  refine ⟨s.cur, s.pal.set i.toNat e (by omega), .refl _, ?_, rfl⟩
  have : i.toNat ≠ 0 := fun hi => h (BitVec.eq_of_toNat_eq hi)
  simp [this]

theorem PaletteMoves.storeEntry (s : State) (i : BitVec 4) (e : PalEntry) : PaletteMoves s (storeEntry i e s) := by
  unfold Machine.storeEntry
  split
  · exact .refl s
  · exact .setPal ‹_› e

/-- A stored entry is in the palette table only. -/
@[simp] theorem storeEntry_tree (i : BitVec 4) (e : PalEntry) (s : State) : (storeEntry i e s).tree = s.tree := by
  unfold storeEntry; split <;> rfl

@[simp] theorem storeTriple_tree (i : BitVec 4) (r g b : Byte) (s : State) : (storeTriple i r g b s).tree = s.tree :=
  storeEntry_tree _ _ _

/-- R29: a value for entry 0 is discarded. -/
@[simp] theorem storeEntry_zero (e : PalEntry) (s : State) : storeEntry 0#4 e s = s := rfl

@[simp] theorem storeTriple_zero (r g b : Byte) (s : State) : storeTriple 0#4 r g b s = s := rfl

theorem storeEntry_of_ne {i : BitVec 4} (h : i ≠ 0) (e : PalEntry) (s : State) : storeEntry i e s = s.setPal i e :=
  if_neg h

/-- The faults of `PALDEC` (R292). -/
def paletteFault (k : Cause) : Prop := readFault k ∨ k = .colorRange ∨ k = .palromAddress

/-- How `PALDEC` ends with a fault: the entries before it stay decoded. -/
def PaletteHalts (s u : State) : Prop := ∃ w k n a, PaletteMoves s w ∧ paletteFault k ∧ u = raise k n a w

theorem PaletteHalts.of_moves {s w u : State} (hw : PaletteMoves s w) (h : PaletteHalts w u) : PaletteHalts s u := by
  obtain ⟨x, k, n, a, hx, hk, rfl⟩ := h
  exact ⟨x, k, n, a, hw.trans hx, hk, rfl⟩

/-- Everything `color_symbol()` can do (R242). -/
theorem colourSymbol_cases {s : State} (ht : TreeOk s.tree.col) (hv : s.tree.col.valid = true) :
    (colourSymbol s).Meets (fun v u => v.toNat ≤ 31 ∧ PaletteMoves s u ∧ u.tree = s.tree) (PaletteHalts s)
      (fun _ => False) := by
  unfold colourSymbol
  refine Run.Meets.bind ((decodeSymbol_ahead (t := .col) ht hv).mono ?_ ?_ (fun _ h => h))
  · rintro v u ⟨c, hc, rfl⟩
    unfold checkColour
    split
    · exact ⟨_, _, _, _, .of_cur hc, .inr (.inl rfl), rfl⟩
    · rename_i hle
      exact ⟨Nat.not_lt.1 hle, .of_cur hc, rfl⟩
  · rintro u ⟨c, k, a, hc, hk, rfl⟩
    exact ⟨_, k, _, a, .of_cur hc, .inl hk, rfl⟩

/-- Everything the entries of a Huffman-coded palette can do (R242). -/
theorem huffEntries_cases {n : Nat} {i : BitVec 4} {s : State}
    (ht : TreeOk s.tree.col) (hv : s.tree.col.valid = true) :
    (huffEntries n i s).Meets (fun _ u => PaletteMoves s u) (PaletteHalts s) (fun _ => False) := by
  induction n generalizing i s with
  | zero => exact .refl s
  | succ n ih =>
    unfold huffEntries
    refine Run.Meets.bind ((colourSymbol_cases ht hv).mono ?_ (fun _ h => h) (fun _ h => h))
    rintro r s1 ⟨-, h1, e1⟩
    refine Run.Meets.bind ((colourSymbol_cases (s := s1) (e1 ▸ ht) (e1 ▸ hv)).mono ?_ (fun _ h => h.of_moves h1)
      (fun _ h => h))
    rintro g s2 ⟨-, h2, e2⟩
    have h2 := h1.trans h2
    rw [e1] at e2
    refine Run.Meets.bind ((colourSymbol_cases (s := s2) (e2 ▸ ht) (e2 ▸ hv)).mono ?_ (fun _ h => h.of_moves h2)
      (fun _ h => h))
    rintro b s3 ⟨-, h3, e3⟩
    have h3 := h2.trans h3
    rw [e2] at e3
    have h4 : PaletteMoves s (storeTriple i r g b s3) := h3.trans (.storeEntry _ _ _)
    have e4 : (storeTriple i r g b s3).tree = s.tree := (storeTriple_tree i r g b s3).trans e3
    exact (ih (e4 ▸ ht) (e4 ▸ hv)).mono (fun _ _ h => h4.trans h) (fun _ h => h.of_moves h4) (fun _ h => h)

/-- Everything the entries of a packed palette can do (R243, R244). -/
theorem rawEntries_cases {n : Nat} {i : BitVec 4} {a : Nat} {s : State} :
    (rawEntries n i a s).Meets (fun _ u => PaletteMoves s u) (PaletteHalts s) (fun _ => False) := by
  induction n generalizing i a s with
  | zero => exact .refl s
  | succ n ih =>
    unfold rawEntries palRead
    split
    · exact ⟨s, _, _, a, .refl s, .inr (.inr rfl), rfl⟩
    · rw [Run.bind_ok]
      exact ih.mono (fun _ _ h => (PaletteMoves.storeEntry s _ _).trans h)
        (fun _ h => h.of_moves (.storeEntry s _ _)) (fun _ h => h)

/-- The state in which the mode's own part starts: the table invalid, entry 0 transparent, and in HUFF mode the colour
cursor at the palette's start (R241, R242). -/
def paldecStart (s : State) : State :=
  match s.ctrl.palMode with
  | .huff => loadColourCursor (clearPalette s)
  | .raw15 => clearPalette s
  | .raw16 => clearPalette s

/-- Everything `PALDEC` can do once legal (R241). -/
theorem paldecBody_cases {s : State} (ht : TreeOk s.tree.col) (hv : paletteTreeValid s = true) :
    (paldecBody s).Meets
      (fun _ u => ∃ w, PaletteMoves (paldecStart s) w ∧ u = { w with palValid := true, palShiny := w.ctrl.palSel })
      (PaletteHalts (paldecStart s)) (fun _ => False) := by
  unfold paldecBody
  refine Run.Meets.bind (Run.Meets.mono (Q := fun _ u => PaletteMoves (paldecStart s) u) ?_ ?_ (fun _ h => h)
    (fun _ h => h))
  · unfold paldecMode paldecStart
    unfold paletteTreeValid at hv
    show Run.Meets (match s.ctrl.palMode with
      | .huff => huffEntries 15 1 (loadColourCursor (clearPalette s))
      | .raw15 => rawEntries 15 1 (clearPalette s).palBase.toNat (clearPalette s)
      | .raw16 => rawEntries 16 0 (clearPalette s).palBase.toNat (clearPalette s)) _ _ _
    cases hm : s.ctrl.palMode with
    | huff =>
      rw [hm] at hv
      exact huffEntries_cases ht hv
    | raw15 => exact rawEntries_cases
    | raw16 => exact rawEntries_cases
  · rintro _ w hw
    exact ⟨w, hw, rfl⟩

end Sys2Proof.Machine
end

