-- ==== Sys2Proof/Laws/Invariant.lean ====
section
/-! SUPPORT. What each part of a step keeps of the invariant. -/

namespace Sys2Proof.Machine

theorem FaultOk.raise {s : State} (h : FaultOk s) (c : Cause) (u : BitVec 4) (a : Nat) :
    FaultOk (Machine.raise c u a s) := by
  by_cases hk : s.fault.kind = 0
  · rw [raise_of_none hk]
    exact ⟨fun h0 => absurd h0 c.kind_ne_zero, fun _ => ⟨c, rfl, rfl⟩⟩
  · rw [raise_of_recorded hk]; exact h

theorem Inv.raise {s : State} (h : Inv s) (c : Cause) (u : BitVec 4) (a : Nat) : Inv (Machine.raise c u a s) := by
  have hf := h.fault.raise c u a
  obtain ⟨h1, h2, h3, h4, h5, h6, h7, h8, h9, h10, h11, h12, h13, h14, h15, -, h17⟩ := h
  have hp : (Machine.raise c u a s).palAt 0 = s.palAt 0 := by unfold Machine.raise; split <;> rfl
  refine ⟨?_, ?_, ?_, ?_, ?_, ?_, ?_, ?_, ?_, ?_, ?_, ?_, ?_, ?_, ?_, hf, ?_⟩ <;> simp only [hp, raise_cfg, raise_pmem,
    raise_palrom, raise_rbuf, raise_bufpos, raise_npix, raise_rstate, raise_tree, raise_ctrl, raise_palValid, raise_work] <;>
    assumption

/-- The host's side is no part of the invariant. -/
theorem Inv.host {s : State} (h : Inv s) (p : List Access) (r : List Word) :
    Inv { s with pending := p, returned := r } := by
  obtain ⟨h1, h2, h3, h4, h5, h6, h7, h8, h9, h10, h11, h12, h13, h14, h15, h16, h17⟩ := h
  exact ⟨h1, h2, h3, h4, h5, h6, h7, h8, h9, h10, h11, h12, h13, h14, h15, ⟨h16.1, h16.2⟩, h17⟩

/-- Registers the host sets: in a session neither the layout nor a tree changes. -/
theorem Inv.sets {s t : State} (h : Inv s) (ht : HostSets s t) : Inv t := by
  obtain ⟨⟨ctrl, width, height, ra, li, b0, b1, e0, e1, cur, hdr, rfl⟩, hl⟩ := ht
  obtain ⟨h1, h2, h3, h4, h5, h6, h7, h8, h9, h10, h11, h12, h13, h14, h15, h16, h17⟩ := h
  refine ⟨h1, h2, h3, h4, h5, h6, h7, h8, h9, h10, h11, h12, fun hr => ?_, h14, h15, ⟨h16.1, h16.2⟩, h17⟩
  have := (hl hr).1
  simp only at this
  simp only [this]
  exact h13 hr

theorem TreeMem.reset_ok : TreeOk TreeMem.reset :=
  ⟨List.Pairwise.nil, fun _ => rfl, fun h => absurd h (by decide)⟩

/-- Reset keeps what is not the block's. -/
theorem Inv.toReset {s : State} (h : Inv s) : Inv s.toReset := by
  refine ⟨h.cfg, h.pmem, h.pmemBound, h.palrom, h.palromBound, Memory.wf_nil, fun _ hc => ?_, fun _ hc => ?_,
    Nat.le_refl _, Nat.zero_le _, fun hr => ?_, fun _ => rfl, fun hr => ?_, fun t => ?_, fun hv => ?_, ⟨fun _ => ⟨rfl, rfl⟩, fun hk => ?_⟩, rfl⟩
  · cases hc
  · cases hc
  · cases hr
  · cases hr
  · cases t <;> exact TreeMem.reset_ok
  · cases hv
  · exact absurd rfl hk

theorem Inv.rasterOk {s : State} (h : Inv s) : RasterOk s.rbuf s.bufpos.toNat := ⟨h.rbuf, h.rbufBound, h.rbufValue⟩

theorem Inv.sessionReady {s : State} (h : Inv s) (hr : s.rstate = .run) : SessionReady s := by
  refine ⟨h.tree, ?_⟩
  obtain ⟨h1, h2, h3, h4⟩ := h.session hr
  unfold sessionTreesValid
  rw [h1, h2, h3]
  cases hl : s.ctrl.layout with
  | quad => simpa using h4 hl
  | delta => rfl

/-- A state that differs in cursors, latches and result only. -/
theorem Inv.of_cur {s : State} (h : Inv s) (c : PerRole Cursor) (lt lo : Word) (r : Byte) :
    Inv { s with cur := c, lasttok := lt, lastoff := lo, result := r } := by
  obtain ⟨h1, h2, h3, h4, h5, h6, h7, h8, h9, h10, h11, h12, h13, h14, h15, h16, h17⟩ := h
  exact ⟨h1, h2, h3, h4, h5, h6, h7, h8, h9, h10, h11, h12, h13, h14, h15, ⟨h16.1, h16.2⟩, h17⟩

theorem Inv.moves {s w : State} (h : Inv s) (hm : RasterMoves s w) (hr : s.rstate = .run) :
    w.bufpos.toNat < w.npix.toNat → Inv w := by
  obtain ⟨c, m, p, lt, lo, -, -, h2, -, h4, rfl⟩ := hm
  have hN := s.npix.isLt
  have hp : p % 2 ^ 32 = p := Nat.mod_eq_of_lt (by omega)
  have hro := h4 h.rasterOk
  intro hlt
  simp only [BitVec.toNat_ofNat, hp] at hlt
  refine ⟨h.cfg, h.pmem, h.pmemBound, h.palrom, h.palromBound, hro.wf, ?_, hro.value, ?_, h.capacity, fun _ => ?_,
    fun hd => ?_, h.session, h.tree, h.entryZero, ⟨h.fault.1, h.fault.2⟩, h.work⟩
  · simpa only [BitVec.toNat_ofNat, hp] using hro.bound
  · simpa only [BitVec.toNat_ofNat, hp] using h2
  · simpa only [BitVec.toNat_ofNat, hp] using hlt
  · rw [hr] at hd; cases hd

theorem Inv.movesDone {s w : State} (h : Inv s) (hm : RasterMoves s w) (he : w.bufpos = w.npix) :
    Inv { w with rstate := .done } := by
  obtain ⟨c, m, p, lt, lo, -, -, h2, -, h4, rfl⟩ := hm
  have hN := s.npix.isLt
  have hp : p % 2 ^ 32 = p := Nat.mod_eq_of_lt (by omega)
  have hro := h4 h.rasterOk
  refine ⟨h.cfg, h.pmem, h.pmemBound, h.palrom, h.palromBound, hro.wf, ?_, hro.value, ?_, h.capacity, fun hd => ?_,
    fun _ => he, fun hd => ?_, h.tree, h.entryZero, ⟨h.fault.1, h.fault.2⟩, h.work⟩
  · simpa only [BitVec.toNat_ofNat, hp] using hro.bound
  · simpa only [BitVec.toNat_ofNat, hp] using h2
  · cases hd
  · cases hd

theorem Inv.tokenHalts {s u : State} (h : Inv s) (ht : TokenHalts s u) : Inv u := by
  obtain ⟨c, lt, lo, k, n, a, -, -, -, rfl⟩ := ht
  exact (h.of_cur c lt lo s.result).raise k n a

theorem Inv.rasterHalts {s u : State} (h : Inv s) (hr : s.rstate = .run) (ht : RasterHalts s u) : Inv u := by
  obtain ⟨w, hw, hlt, ht⟩ := ht
  exact (h.moves hw hr hlt).tokenHalts ht

theorem Inv.setTree {s : State} (h : Inv s) (hr : s.rstate ≠ .run) {t : Role} {m : TreeMem} (hm : TreeOk m) :
    Inv (s.setTree t m) := by
  obtain ⟨h1, h2, h3, h4, h5, h6, h7, h8, h9, h10, h11, h12, h13, h14, h15, h16, h17⟩ := h
  refine ⟨h1, h2, h3, h4, h5, h6, h7, h8, h9, h10, h11, h12, fun hr' => absurd hr' hr, fun u => ?_, h15, ⟨h16.1, h16.2⟩, h17⟩
  rw [State.setTree_tree, PerRole.get_set]
  split
  · exact hm
  · exact h14 u

theorem builtTree_ok {tr : CodeTree} (h1 : 1 < tr.size) (h2 : tr.size ≤ 511) :
    TreeOk { nodes := tr.store 0 [], count := BitVec.ofNat 10 tr.size, valid := true } := by
  obtain ⟨l, r, rfl⟩ := CodeTree.exists_node h1
  refine ⟨CodeTree.store_sorted List.Pairwise.nil, fun h => (by cases h), fun _ => ⟨l, r, h2, ?_, CodeTree.laidAt_store _ _ _⟩⟩
  rw [BitVec.toNat_ofNat]
  exact Nat.mod_eq_of_lt (by omega)

/-- Palette entries other than 0, and cursors. -/
theorem Inv.paletteMoves {s w : State} (h : Inv s) (hm : PaletteMoves s w) : Inv w := by
  obtain ⟨c, q, -, hq, rfl⟩ := hm
  obtain ⟨h1, h2, h3, h4, h5, h6, h7, h8, h9, h10, h11, h12, h13, h14, h15, h16, h17⟩ := h
  refine ⟨h1, h2, h3, h4, h5, h6, h7, h8, h9, h10, h11, h12, h13, h14, fun hv => ?_, ⟨h16.1, h16.2⟩, h17⟩
  have := h15 hv
  unfold State.palAt at this ⊢
  simp only at this ⊢
  exact hq.trans this

theorem Inv.paldecStart {s : State} (h : Inv s) : Inv (paldecStart s) := by
  have hc : Inv (clearPalette s) := by
    obtain ⟨h1, h2, h3, h4, h5, h6, h7, h8, h9, h10, h11, h12, h13, h14, h15, h16, h17⟩ := h
    exact ⟨h1, h2, h3, h4, h5, h6, h7, h8, h9, h10, h11, h12, h13, h14, fun hv => (by cases hv), ⟨h16.1, h16.2⟩, h17⟩
  unfold Machine.paldecStart
  split
  · exact hc.of_cur _ _ _ _
  · exact hc
  · exact hc

theorem paldecStart_entryZero (s : State) : (paldecStart s).palAt 0 = .clear := by
  have hc : (clearPalette s).palAt 0 = .clear := State.palAt_setPal_self s 0 .clear
  unfold paldecStart
  split <;> exact hc

/-! The commands. -/

theorem execRdbit_keeps {sel : BitVec 4} {s : State} (h : Inv s) : ∃ u, execRdbit sel s = .next u ∧ Inv u := by
  rcases issueSel_cases (rfl : execRdbit sel s = _) with ⟨-, he⟩ | ⟨-, -, he⟩ | ⟨t, rfl, he⟩
  · exact ⟨s, he, h⟩
  · exact ⟨_, he, h.raise _ _ _⟩
  · rcases issue_cases he with ⟨-, he⟩ | ⟨-, -, he⟩ | ⟨-, -, he⟩
    · exact ⟨s, he, h⟩
    · exact ⟨_, he, h.raise _ _ _⟩
    · have hb : (rdbitBody t s).Meets (fun _ u => Inv u) Inv (fun _ => False) := by
        unfold rdbitBody
        refine Run.Meets.bind ((readBit_cases t s).mono ?_ ?_ (fun _ h => h))
        · rintro b u ⟨-, -, -, -, rfl⟩
          exact h.of_cur _ s.lasttok s.lastoff _
        · rintro u ⟨k, -, rfl⟩
          exact h.raise _ _ _
      obtain ⟨u, hu, ⟨_, -, hi⟩ | ⟨-, hi⟩⟩ := hb.outcome
      · exact ⟨u, he.trans hu, hi⟩
      · exact ⟨u, he.trans hu, hi⟩

theorem execDecode_keeps {sel : BitVec 4} {s : State} (h : Inv s) : ∃ u, execDecode sel s = .next u ∧ Inv u := by
  rcases issueSel_cases (rfl : execDecode sel s = _) with ⟨-, he⟩ | ⟨-, -, he⟩ | ⟨t, rfl, he⟩
  · exact ⟨s, he, h⟩
  · exact ⟨_, he, h.raise _ _ _⟩
  · rcases issue_cases he with ⟨-, he⟩ | ⟨-, -, he⟩ | ⟨-, hl, he⟩
    · exact ⟨s, he, h⟩
    · exact ⟨_, he, h.raise _ _ _⟩
    · have hv : (s.tree.get t).valid = true := by
        simp only [Bool.and_eq_true] at hl; exact hl.2
      have hb : (decodeBody t s).Meets (fun _ u => Inv u) Inv (fun _ => False) := by
        unfold decodeBody
        refine Run.Meets.bind ((decodeSymbol_ahead (h.tree t) hv).mono ?_ ?_ (fun _ h => h))
        · rintro b u ⟨c, -, rfl⟩
          exact h.of_cur c s.lasttok s.lastoff _
        · rintro u ⟨c, k, a, -, -, rfl⟩
          exact (h.of_cur c s.lasttok s.lastoff s.result).raise _ _ _
      obtain ⟨u, hu, ⟨_, -, hi⟩ | ⟨-, hi⟩⟩ := hb.outcome
      · exact ⟨u, he.trans hu, hi⟩
      · exact ⟨u, he.trans hu, hi⟩

theorem execBuild_keeps {sel : BitVec 4} {s : State} (h : Inv s) : ∃ u, execBuild sel s = .next u ∧ Inv u := by
  rcases issueSel_cases (rfl : execBuild sel s = _) with ⟨-, he⟩ | ⟨-, -, he⟩ | ⟨t, rfl, he⟩
  · exact ⟨s, he, h⟩
  · exact ⟨_, he, h.raise _ _ _⟩
  · rcases issue_cases he with ⟨-, he⟩ | ⟨-, -, he⟩ | ⟨-, hl, he⟩
    · exact ⟨s, he, h⟩
    · exact ⟨_, he, h.raise _ _ _⟩
    · have hr : s.rstate ≠ .run := by simpa using hl
      have hb : (buildTree t s).Meets (fun _ u => Inv u) Inv (fun _ => False) := by
        refine (buildTree_cases t s).mono ?_ ?_ (fun _ h => h)
        · rintro _ u ⟨tr, hh, h1, rfl⟩
          exact h.setTree hr (builtTree_ok h1 (Nat.le_trans hh.2.2.2.2.1 (nodeMax_le _)))
        · rintro u ⟨k, m, n, -, hm, rfl⟩
          refine Inv.raise ?_ _ _ _
          have : (clearTree t s).withNodes t m = s.setTree t { nodes := m, count := 0, valid := false } := by
            simp [clearTree, State.withNodes, State.setTree]
          rw [this]
          exact h.setTree hr ⟨hm, fun _ => rfl, fun hv => by cases hv⟩
      obtain ⟨u, hu, ⟨_, -, hi⟩ | ⟨-, hi⟩⟩ := hb.outcome
      · exact ⟨u, he.trans hu, hi⟩
      · exact ⟨u, he.trans hu, hi⟩

theorem execRstart_keeps {s : State} (h : Inv s) : ∃ u, execRstart s = .next u ∧ Inv u := by
  rcases issue_cases (rfl : execRstart s = _) with ⟨-, he⟩ | ⟨-, -, he⟩ | ⟨-, hl, he⟩
  · exact ⟨s, he, h⟩
  · exact ⟨_, he, h.raise _ _ _⟩
  · have hv : SessionReady s := by
      simp only [Bool.and_eq_true] at hl; exact ⟨h.tree, hl.2⟩
    unfold rstartBody at he
    simp only at he
    split at he
    · exact ⟨_, he, h.raise _ _ _⟩
    · rename_i hn
      have hn : s.width.toNat * s.height.toNat ≤ s.cfg.rasterMax := Nat.not_lt.1 hn
      have hc := h.cfg.2.2.2
      have hm : s.width.toNat * s.height.toNat % 2 ^ 32 = s.width.toNat * s.height.toNat := Nat.mod_eq_of_lt (by omega)
      refine ⟨_, he, h.cfg, h.pmem, h.pmemBound, h.palrom, h.palromBound, Memory.wf_nil, fun _ hc => ?_, fun _ hc => ?_,
        Nat.zero_le _, ?_, fun hr => ?_, fun hd => ?_, fun _ => hv.valid, h.tree, h.entryZero, ⟨h.fault.1, h.fault.2⟩, h.work⟩
      · cases hc
      · cases hc
      · simp only [BitVec.toNat_ofNat, hm]; exact hn
      · simp only [BitVec.toNat_ofNat, hm] at hr ⊢
        split at hr
        · cases hr
        · show 0 % _ < _; omega
      · simp only at hd ⊢
        split at hd
        · rename_i h0; rw [h0]; rfl
        · cases hd

theorem execRstep_keeps {s : State} (h : Inv s) : ∃ u, execRstep s = .next u ∧ Inv u := by
  rcases issue_cases (rfl : execRstep s = _) with ⟨-, he⟩ | ⟨-, -, he⟩ | ⟨-, hl, he⟩
  · exact ⟨s, he, h⟩
  · exact ⟨_, he, h.raise _ _ _⟩
  · have hr : s.rstate = .run := by simpa using hl
    have hb : (rstepBody s).Meets (fun _ u => Inv u) Inv (fun _ => False) := by
      refine (rstepBody_cases (h.sessionReady hr) (h.running hr)).mono ?_ (fun _ ht => h.tokenHalts ht) (fun _ h => h)
      rintro _ u ⟨w, hw, -, rfl⟩
      split
      · rename_i he
        exact h.movesDone hw he
      · rename_i hne
        exact h.moves hw hr (Nat.lt_of_le_of_ne hw.npix.2 fun hx => hne (BitVec.eq_of_toNat_eq hx))
    obtain ⟨u, hu, ⟨_, -, hi⟩ | ⟨-, hi⟩⟩ := hb.outcome
    · exact ⟨u, he.trans hu, hi⟩
    · exact ⟨u, he.trans hu, hi⟩

theorem execRrun_keeps {s : State} (h : Inv s) : ∃ u, execRrun s = .next u ∧ Inv u := by
  rcases issue_cases (rfl : execRrun s = _) with ⟨-, he⟩ | ⟨-, -, he⟩ | ⟨-, hl, he⟩
  · exact ⟨s, he, h⟩
  · exact ⟨_, he, h.raise _ _ _⟩
  · have hr : s.rstate = .run := by simpa using hl
    have hb : (rrunBody s).Meets (fun _ u => Inv u) Inv (fun _ => False) := by
      refine (rasterLoop_cases (h.sessionReady hr) h.pos (Nat.le_refl _)).mono ?_ (fun _ ht => h.rasterHalts hr ht)
        (fun _ h => h)
      rintro _ u ⟨w, hw, he, rfl⟩
      exact h.movesDone hw he
    obtain ⟨u, hu, ⟨_, -, hi⟩ | ⟨-, hi⟩⟩ := hb.outcome
    · exact ⟨u, he.trans hu, hi⟩
    · exact ⟨u, he.trans hu, hi⟩

theorem execPaldec_keeps {s : State} (h : Inv s) : ∃ u, execPaldec s = .next u ∧ Inv u := by
  rcases issue_cases (rfl : execPaldec s = _) with ⟨-, he⟩ | ⟨-, -, he⟩ | ⟨-, hl, he⟩
  · exact ⟨s, he, h⟩
  · exact ⟨_, he, h.raise _ _ _⟩
  · have hv : paletteTreeValid s = true := by
      simp only [Bool.and_eq_true] at hl; exact hl.2
    have hb : (paldecBody s).Meets (fun _ u => Inv u) Inv (fun _ => False) := by
      refine (paldecBody_cases (h.tree .col) hv).mono ?_ ?_ (fun _ h => h)
      · rintro _ u ⟨w, hw, rfl⟩
        have hi := h.paldecStart.paletteMoves hw
        have hz : w.palAt 0 = .clear := by
          obtain ⟨c, q, -, hq, rfl⟩ := hw
          exact hq.trans (paldecStart_entryZero s)
        obtain ⟨h1, h2, h3, h4, h5, h6, h7, h8, h9, h10, h11, h12, h13, h14, h15, h16, h17⟩ := hi
        exact ⟨h1, h2, h3, h4, h5, h6, h7, h8, h9, h10, h11, h12, h13, h14, fun _ => hz, ⟨h16.1, h16.2⟩, h17⟩
      · rintro u ⟨w, k, n, a, hw, -, rfl⟩
        exact (h.paldecStart.paletteMoves hw).raise _ _ _
    obtain ⟨u, hu, ⟨_, -, hi⟩ | ⟨-, hi⟩⟩ := hb.outcome
    · exact ⟨u, he.trans hu, hi⟩
    · exact ⟨u, he.trans hu, hi⟩

end Sys2Proof.Machine
end

