-- ==== Sys2Proof/Laws/PerInstr.lean ====
section
/-! SUPPORT. Statements made for every instruction, one lemma per constructor: the encoded word fits its format. -/

namespace Sys2Proof.Laws.FormatWidth

/-- The word of an instruction has no bit above its format's (R100). -/
def Statement (i : Instr) : Prop := ∀ c : Ctx, (encode c i).toNat < 2 ^ i.format.bits

theorem nop : Statement .nop := fun c => (encode c .nop).isLt
theorem build (sel : BitVec 4) : Statement (.build sel) := fun c => (encode c (.build sel)).isLt
theorem decode (sel : BitVec 4) : Statement (.decode sel) := fun c => (encode c (.decode sel)).isLt
theorem rdbit (sel : BitVec 4) : Statement (.rdbit sel) := fun c => (encode c (.rdbit sel)).isLt
theorem rstart : Statement .rstart := fun c => (encode c .rstart).isLt
theorem rstep : Statement .rstep := fun c => (encode c .rstep).isLt
theorem rrun : Statement .rrun := fun c => (encode c .rrun).isLt
theorem paldec : Statement .paldec := fun c => (encode c .paldec).isLt
theorem sreset : Statement .sreset := fun c => (encode c .sreset).isLt
theorem node : Statement .node := fun _ => by simp [encode, Instr.format, Format.bits]
theorem leaf : Statement .leaf := fun _ => by simp [encode, Instr.format, Format.bits]
theorem left : Statement .left := fun _ => by simp [encode, Instr.format, Format.bits]
theorem right : Statement .right := fun _ => by simp [encode, Instr.format, Format.bits]
theorem litDelta (value : Byte) : Statement (.litDelta value) := fun c => (encode c (.litDelta value)).isLt
theorem fillDelta (runlen value : Byte) : Statement (.fillDelta runlen value) :=
  fun c => (encode c (.fillDelta runlen value)).isLt
theorem copyDelta (delta runlen value : Byte) : Statement (.copyDelta delta runlen value) :=
  fun c => (encode c (.copyDelta delta runlen value)).isLt
theorem litQuad (dy dx value : Byte) : Statement (.litQuad dy dx value) :=
  fun c => (encode c (.litQuad dy dx value)).isLt
theorem fillQuad (dy dx runlen value : Byte) : Statement (.fillQuad dy dx runlen value) :=
  fun c => (encode c (.fillQuad dy dx runlen value)).isLt
theorem copyQuad (dy dx runlen value : Byte) : Statement (.copyQuad dy dx runlen value) :=
  fun c => (encode c (.copyQuad dy dx runlen value)).isLt
theorem colourTriple (r g b : Byte) : Statement (.colourTriple r g b) :=
  fun c => (encode c (.colourTriple r g b)).isLt

/-- A packed word's fields stand below bit 16. -/
theorem packed_lt (o : BitVec 1) (x y z : BitVec 5) : ((0 : Half) ++ o ++ x ++ y ++ z : Word).toNat < 2 ^ 16 := by
  simp only [BitVec.toNat_append]
  have := o.isLt; have := x.isLt; have := y.isLt; have := z.isLt
  refine Nat.or_lt_two_pow (Nat.shiftLeft_lt (n := 11) (Nat.or_lt_two_pow (Nat.shiftLeft_lt (n := 6)
    (Nat.or_lt_two_pow (Nat.shiftLeft_lt (n := 1) (Nat.or_lt_two_pow ?_ ?_)) ?_)) ?_)) ?_ <;> simp_all <;> omega

theorem palword (opaq : Bool) (r g b : BitVec 5) : Statement (.palword opaq r g b) := by
  rintro ⟨w, _ | _⟩
  · exact packed_lt (BitVec.ofBool opaq) r g b
  · exact packed_lt (BitVec.ofBool opaq) b g r

end Sys2Proof.Laws.FormatWidth
end

