-- ==== Sys2Proof/Tests/Slice0.lean ====
section
/-! SUPPORT. The model's own tests: ill-formed terms, words written out from the spec's encodings, one step on small
states with results from 95_test_vectors.md, and a witness for each statement that has hypotheses. -/

namespace Sys2Proof.Tests

open Sys2Proof.Machine

/-! Ill-formed terms, one for each check. -/

theorem test_build_selector_refused : (Instr.build 5).wellFormed = false := by decide
theorem test_decode_selector_refused : (Instr.decode 15).wellFormed = false := by decide
theorem test_rdbit_selector_refused : (Instr.rdbit 5).wellFormed = false := by decide
theorem test_selector_four_accepted : (Instr.rdbit 4).wellFormed = true := by decide
theorem test_fill_delta_no_run_refused : (Instr.fillDelta 0 9).wellFormed = false := by decide
theorem test_copy_delta_no_offset_refused : (Instr.copyDelta 0 5 7).wellFormed = false := by decide
theorem test_fill_quad_no_run_refused : (Instr.fillQuad 0 128 0 9).wellFormed = false := by decide
theorem test_colour_symbol_refused : (Instr.colourTriple 32 0 0).wellFormed = false ∧
    (Instr.colourTriple 0 32 0).wellFormed = false ∧ (Instr.colourTriple 0 0 32).wellFormed = false ∧
    (Instr.colourTriple 31 31 31).wellFormed = true := by decide
theorem test_quad_class_refused : (Instr.litQuad 1 64 5).classHolds 4 = false ∧
    (Instr.fillQuad 1 128 3 5).classHolds 4 = false ∧ (Instr.copyQuad 0 128 3 5).classHolds 4 = false ∧
    (Instr.litQuad 1 64 5).classHolds 64 = true := by decide

/-! Words written out from R102, R105, R107, R110, R111, R113, R115, R116. -/

/-- A context with a WIDTH and an order. -/
def ctx (w : BitVec 16) (o : PackedOrder) : Ctx := { width := w, order := o }

/-- What decoding gives, where it gives an instruction. -/
def decoded (w : BitVec 16) (f : Format) (x : Word) : Option Instr := (decode (ctx w .rgbHigh) f x).toOption

/-- Why decoding refuses. -/
def rejected (f : Format) (x : Word) : Option Reject :=
  match decode (ctx 4 .rgbHigh) f x with
  | .ok _ => none
  | .error e => some e

theorem test_word_nop : decoded 4 .cmd 0b0000_0000_0000_0000_0000_0000_0000_0000 = some .nop := by decide
theorem test_word_build : decoded 4 .cmd 0b0000_0000_0000_0000_0000_0011_0000_0001 = some (.build 3) := by decide
theorem test_word_decode : decoded 4 .cmd 0b0000_0000_0000_0000_0000_0100_0000_0010 = some (.decode 4) := by decide
theorem test_word_rdbit : decoded 4 .cmd 0b0000_0000_0000_0000_0000_0010_0000_0011 = some (.rdbit 2) := by decide
theorem test_word_rstart : decoded 4 .cmd 0b0000_0000_0000_0000_0000_0000_0000_0100 = some .rstart := by decide
theorem test_word_rstep : decoded 4 .cmd 0b0000_0000_0000_0000_0000_0000_0000_0101 = some .rstep := by decide
theorem test_word_rrun : decoded 4 .cmd 0b0000_0000_0000_0000_0000_0000_0000_0110 = some .rrun := by decide
theorem test_word_paldec : decoded 4 .cmd 0b0000_0000_0000_0000_0000_0000_0000_0111 = some .paldec := by decide
theorem test_word_sreset : decoded 4 .cmd 0b0000_0000_0000_0000_0000_0000_0000_1111 = some .sreset := by decide
theorem test_word_node : decoded 4 .shape 0b0 = some .node := by decide
theorem test_word_leaf : decoded 4 .shape 0b1 = some .leaf := by decide
theorem test_word_left : decoded 4 .path 0b0 = some .left := by decide
theorem test_word_right : decoded 4 .path 0b1 = some .right := by decide
theorem test_word_lit_delta :
    decoded 4 .tokenDelta 0b00000000_00000000_00000000_00001001 = some (.litDelta 9) := by decide
theorem test_word_fill_delta :
    decoded 4 .tokenDelta 0b00000000_00000000_00000011_00000010 = some (.fillDelta 3 2) := by decide
theorem test_word_copy_delta :
    decoded 4 .tokenDelta 0b00000000_00000001_00000101_00000111 = some (.copyDelta 1 5 7) := by decide
theorem test_word_lit_quad :
    decoded 64 .tokenQuad 0b00000010_00000000_00000000_00000101 = some (.litQuad 2 0 5) := by decide
theorem test_word_fill_quad :
    decoded 4 .tokenQuad 0b00000000_10000000_00000011_00000010 = some (.fillQuad 0 128 3 2) := by decide
theorem test_word_copy_quad :
    decoded 4 .tokenQuad 0b00000001_01111111_00000010_00000000 = some (.copyQuad 1 127 2 0) := by decide
theorem test_word_palword :
    decoded 4 .palword 0b1_00001_00010_00011 = some (.palword true 1 2 3) ∧
    (decode (ctx 4 .bgrHigh) .palword 0b1_00001_00010_00011).toOption = some (.palword true 3 2 1) := by decide
theorem test_word_colour_triple :
    decoded 4 .colour 0b00000000_00011111_00000000_00000001 = some (.colourTriple 31 0 1) := by decide

/-- F2 to F8 of 95_test_vectors.md, and the other formats' unused bits. -/
theorem test_words_rejected :
    rejected .cmd 0x00000008 = some .badOpcode ∧ rejected .cmd 0x00001001 = some .badOpcode ∧
    rejected .cmd 0x00000104 = some .badSelector ∧ rejected .cmd 0x0000010F = some .badSelector ∧
    rejected .shape 2 = some .notOneBit ∧ rejected .path 2 = some .notOneBit ∧
    rejected .tokenDelta 0x01000000 = some .tupleUnusedBits ∧ rejected .palword 0x10000 = some .notSixteenBits ∧
    rejected .colour 0x01000000 = some .tripleUnusedBits ∧ rejected .colour 0x00200000 = some .colourRange := by
  decide

/-! Small states, from the programs P1 to P4 and the groups A to E of 95_test_vectors.md. -/

/-- The next state, where there is one. -/
def nextOf (o : Host.Outcome State Fault Refusal) : Option State :=
  match o with
  | .next t => some t
  | .fault _ => none
  | .refused _ => none

/-- What one instruction leaves, through a view of the state. -/
def after {α : Type} (i : Instr) (s : State) (view : State → α) : Option α := (nextOf (exec i s)).map view

/-- `FAULT` and `FADDR` as the host reads them. -/
def recorded (s : State) : Nat × Nat := (s.fault.word.toNat, s.faddr.toNat)

/-- The raster bytes below `BUFPOS`. -/
def raster (s : State) : List Nat := (List.range s.bufpos.toNat).map fun a => (Memory.read s.rbuf a).toNat

/-- Group A: two bytes at 5, cursor 2 over them. -/
def bitState (off lim : Word) : State :=
  { State.reset with
    pmem := [(5, 0xA5), (6, 0x3C)]
    cur := State.reset.cur.set .run (Cursor.mk 5 2 off lim) }

/-- P1: the header `01011`, `[5, 0, 9]` of tree 0 and a stream of five symbols. -/
def headerState : State :=
  { State.reset with
    pmem := [(0, 0x58), (1, 5), (3, 9), (8, 0x74)]
    hdr := State.reset.hdr.set .dy (Header.mk 0 5 1 3 .byte)
    cur := State.reset.cur.set .dy (Cursor.mk 8 1 0 8) }

/-- The tree of P1. -/
def tree5 : CodeTree := .node (.leaf 5) (.node (.leaf 0) (.leaf 9))

/-- The nodes of P1's tree (vector B2). -/
def nodes5 : List (Nat × Node) := [(0, .inner 1 2), (1, .leaf 5), (2, .inner 3 4), (3, .leaf 0), (4, .leaf 9)]

/-- P1 after `BUILD 0`. -/
def builtState : State :=
  { headerState with tree := State.reset.tree.set .dy (TreeMem.mk nodes5 5 true) }

/-- A tree of two leaves, its code words `0` and `1`. -/
def pair (a b : Byte) : TreeMem := { nodes := [(0, .inner 1 2), (1, .leaf a), (2, .leaf b)], count := 3, valid := true }

/-- The same as a code tree. -/
def pairTree (a b : Byte) : CodeTree := .node (.leaf a) (.leaf b)

/-- A cursor over one byte, with a declared end. -/
def cursorAt (base : Nat) (lim : Word) : Cursor := { base := BitVec.ofNat 32 base, len := 1, off := 0, lim := lim }

/-- P2 after `RSTART`: DELTA layout, six pixels. -/
def deltaSession : State :=
  { State.reset with
    pmem := [(0x10, 0x40), (0x11, 0x40), (0x12, 0x40)]
    tree := { State.reset.tree with dx := pair 0 1, run := pair 0 5, val := pair 9 7 }
    cur := { State.reset.cur with dx := cursorAt 0x10 2, run := cursorAt 0x11 2, val := cursorAt 0x12 2 }
    ctrl := { layout := .delta, palMode := .huff, palSel := false }
    width := 3
    height := 2
    npix := 6
    rstate := .run }

/-- A QUAD session in the manner of P3: WIDTH 4, `dy` 0 or 1, `dx` 128 or 127. -/
def quadSession : State :=
  { State.reset with
    tree := { State.reset.tree with dy := pair 0 1, dx := pair 128 127, run := pair 0 3, val := pair 1 2 }
    cur := { State.reset.cur with
      dy := cursorAt 0x20 4, dx := cursorAt 0x21 4, run := cursorAt 0x22 8, val := cursorAt 0x23 8 }
    width := 4
    height := 3
    npix := 12
    rstate := .run }

/-- A raster in progress: bytes from index 0 on, `NPIX`, WIDTH (group D). -/
def rasterState (bytes : List Byte) (npix : Word) (width : BitVec 16) : State :=
  { State.reset with
    rbuf := bytes.zipIdx.map fun x => (x.2, x.1)
    bufpos := BitVec.ofNat 32 bytes.length
    npix := npix
    width := width
    rstate := .run }

/-- A raster that is finished, and a palette: the source's end-to-end case (P4). -/
def pictureState : State :=
  { State.reset with
    rbuf := [(1, 1), (2, 1)]
    bufpos := 4
    npix := 4
    rstate := .done
    pal := State.reset.pal.set 1 (PalEntry.mk true 31 0 0)
    palValid := true
    rbufAddr := 3
    lutIdx := 1 }

/-- The packed palette of group E. -/
def packedState (mode : PalMode) (base : Word) : State :=
  { State.reset with
    palrom := [(0, 0xFC00), (0xFFFF, 0x8421)]
    ctrl := { layout := .quad, palMode := mode, palSel := false }
    palBase0 := base }

/-- A colour stream of 45 bits (P4): entry 1 is (0, 31, 0), the others (0, 0, 0). -/
def colourState : State :=
  { State.reset with
    pmem := [(0x18, 0xBF), (0x19, 0xFF), (0x1A, 0xFF), (0x1B, 0xFF), (0x1C, 0xFF), (0x1D, 0xF8)]
    tree := { State.reset.tree with col := pair 31 0 }
    cur := { State.reset.cur with col := { base := 0x18, len := 6, off := 0, lim := 0 } }
    ctrl := { layout := .delta, palMode := .huff, palSel := true }
    palEnd1 := 45 }

/-- A fault recorded: vector F2. -/
def faultedState : State := State.reset.faultedWith 5 1 15 8

/-! Steps, at most two for an instruction. -/

/-- F1 of 95_test_vectors.md. -/
theorem test_nop : nextOf (regWrite 0x05 0x00000000 deltaSession) = some deltaSession := by decide
/-- B2. -/
theorem test_build : after (.build 0) headerState (fun t => (t.tree.dy.nodes, t.tree.dy.count, t.tree.dy.valid)) =
    some (nodes5, 5, true) := by decide
/-- In the manner of B7: B2's tree with a shape bit left over. -/
theorem test_build_trailing : after (.build 0)
    { headerState with hdr := headerState.hdr.set .dy (Header.mk 0 6 1 3 .byte) }
    recorded = some (0x841, 5) := by decide
/-- C1, the second symbol. -/
theorem test_decode : after (.decode 0) (builtState.skipBits .dy 1) (fun t => (t.result, t.cur.dy.off)) =
    some (9, 3) := by decide
/-- C3: a partial code word leaves the cursor after the bits read. -/
theorem test_decode_partial : after (.decode 0)
    { builtState with cur := builtState.cur.set .dy (Cursor.mk 8 1 1 2) }
    (fun t => (recorded t, t.cur.dy.off)) = some ((0x071, 2), 2) := by decide
/-- A1, the first and the sixth bit. -/
theorem test_rdbit : after (.rdbit 2) (bitState 0 16) (fun t => (t.result, t.cur.run.off)) = some (1, 1) ∧
    after (.rdbit 2) (bitState 5 16) (fun t => (t.result, t.cur.run.off)) = some (1, 6) := by decide
/-- A2 and A4. -/
theorem test_rdbit_ends : after (.rdbit 2) (bitState 16 16) recorded = some (0x214, 16) ∧
    after (.rdbit 2) (bitState 11 11) recorded = some (0x271, 11) := by decide
/-- P2. -/
theorem test_rstart : after .rstart { deltaSession with rstate := .idle, npix := 0, bufpos := 0 }
    (fun t => (t.npix, t.bufpos, t.rstate)) = some (6, 0, .run) := by decide
/-- F26. -/
theorem test_rstart_too_large : after .rstart { deltaSession with rstate := .idle, width := 256, height := 257 }
    recorded = some (0xF02, 65792) := by decide
/-- P2, the first token. -/
theorem test_rstep : after .rstep deltaSession
    (fun t => (raster t, t.lasttok, t.cur.dx.off, t.cur.run.off, t.cur.val.off, t.rstate)) =
    some ([9], 0x00000009, 1, 1, 1, .run) := by decide
/-- F10. -/
theorem test_rstep_no_session : after .rstep State.reset recorded = some (0xF35, 5) := by decide
/-- P2, both tokens. -/
theorem test_rrun : after .rrun deltaSession (fun t => (raster t, t.lasttok, t.lastoff, t.rstate)) =
    some ([9, 9, 9, 9, 9, 9], 0x00010507, 1, .done) := by decide
/-- P2b: the streams end first. -/
theorem test_rrun_exhausted : after .rrun { deltaSession with npix := 9 }
    (fun t => (raster t, recorded t, t.rstate)) =
    some ([9, 9, 9, 9, 9, 9, 7], (0x171, 2), .run) := by decide
/-- P4, the shiny palette. -/
theorem test_paldec_huff : after .paldec colourState
    (fun t => (t.lookup 1, t.lookup 15, t.lookup 0, t.cur.col.off, t.palShiny)) =
    some (0x0100FF00, 0x01000000, 0, 45, true) := by decide
/-- E3 and E11. -/
theorem test_paldec_raw : after .paldec (packedState .raw15 0) (fun t => (t.lookup 1, t.lookup 0, t.statusWord)) =
    some (0x01FF0000, 0, 0x020) ∧ after .paldec (packedState .raw16 0xFFF1) recorded = some (0xF34, 0x10000) := by
  decide
/-- The last lines of P1. -/
theorem test_sreset : after .sreset builtState (fun t => (t.statusWord, t.fault.word, t.hdr.dy.shapeBits, t.pmem)) =
    some (0, 0xF00, 0, builtState.pmem) := by decide
/-- The first shape bit of B2. -/
theorem test_node : after .node headerState (fun t => (t.work.build.hoff, t.work.build.nodes, t.work.build.owed)) =
    some (1, 1, [0]) := by decide
/-- The second shape bit of B2: node 0 gets its right child's index. -/
theorem test_leaf : after .leaf
    { headerState with work := { Work.idle with
      build := { hoff := 1, nodes := 1, used := 0, owed := [0], closed := false } } }
    (fun t => (t.tree.dy.nodes, t.work.build.hoff, t.work.build.used, t.work.build.owed)) =
    some ([(0, .inner 1 2), (1, .leaf 5)], 2, 1, []) := by decide
/-- C1, the first bit: the left child of the root is the leaf 5. -/
theorem test_left : after .left builtState (fun t => (t.cur.dy.off, t.work.node, t.work.sym)) =
    some (1, 1, some 5) := by decide
/-- C1, the second bit: the right child of the root is internal. -/
theorem test_right : after .right (builtState.skipBits .dy 1) (fun t => (t.cur.dy.off, t.work.node, t.work.sym)) =
    some (2, 2, none) := by decide
/-- T1. -/
theorem test_lit_delta : after (.litDelta 9) (rasterState [] 6 0) raster = some [9] := by decide
/-- T15. -/
theorem test_lit_delta_value : after (.litDelta 16) (rasterState [] 4 0) recorded = some (0x3B1, 0) := by
  decide
/-- T2. -/
theorem test_fill_delta : after (.fillDelta 3 2) (rasterState [9] 12 0) raster = some [9, 2, 2, 2] := by
  decide
/-- T4. -/
theorem test_fill_delta_overflow : after (.fillDelta 5 9) (rasterState [] 4 0) recorded = some (0x2A1, 0) := by
  decide
/-- T8: the pattern repeats. -/
theorem test_copy_delta : after (.copyDelta 3 7 0) (rasterState [1, 2, 3] 12 0) raster =
    some [1, 2, 3, 1, 2, 3, 1, 2, 3, 1, 0] := by decide
/-- T9 and T11. -/
theorem test_copy_delta_ends : after (.copyDelta 3 7 0) (rasterState [1, 2, 3] 10 0) raster =
    some [1, 2, 3, 1, 2, 3, 1, 2, 3, 1] ∧
    after (.copyDelta 4 1 5) (rasterState [1, 2, 3] 12 0) recorded = some (0x181, 3) := by decide
/-- T20. -/
theorem test_lit_quad : after (.litQuad 2 0 5) (rasterState [] 64 64) raster = some [5] := by decide
/-- P3, the second token. -/
theorem test_fill_quad : after (.fillQuad 0 128 3 2) (rasterState [1] 12 4) raster = some [1, 2, 2, 2] := by
  decide
/-- T17: one row up, one column right. -/
theorem test_copy_quad : after (.copyQuad 1 127 2 0) (rasterState [1, 2, 2, 2, 1, 2, 2, 2, 3] 12 4) raster =
    some [1, 2, 2, 2, 1, 2, 2, 2, 3, 2, 2, 0] := by decide
/-- T18: a negative offset. -/
theorem test_copy_quad_not_behind : after (.copyQuad 0 100 1 7) (rasterState [9] 4 4)
    (fun t => (recorded t, t.lastoff)) = some ((0x191, 1), 0xFFFFFFE4) := by decide
/-- E3. -/
theorem test_palword : after (.palword true 31 0 0) { State.reset with work := { Work.idle with entry := 1 } }
    (fun t => ((t.palAt 1).raw, t.work.entry)) = some (0x0000FC00, 2) := by decide
/-- R244: word 0 is discarded. -/
theorem test_palword_zero : after (.palword true 31 0 0) State.reset (fun t => ((t.palAt 0).raw, t.work.entry)) =
    some (0, 1) := by decide
/-- The example of R242. -/
theorem test_colour_triple : after (.colourTriple 31 0 0) { State.reset with work := { Work.idle with entry := 1 } }
    (fun t => ((t.palAt 1).raw, t.work.entry)) = some (0xFC00, 2) := by decide
/-- R242: a symbol above 31. -/
theorem test_colour_triple_range : after (.colourTriple 0 32 0) State.reset recorded = some (0x4C1, 0) := by
  decide

/-! Registers and the step. -/

/-- S3: the pixels of the end-to-end case. -/
theorem test_pixel_reads :
    (List.map (fun a => (regRead 0x0F { pictureState with rbufAddr := a }).1) [0, 1, 2, 3] : List Word) =
      [0, 0x01FF0000, 0x01FF0000, 0] := by decide
/-- F12, F24. -/
theorem test_forbidden_reads : (regRead 0x17 State.reset).1 = 0 ∧
    recorded (regRead 0x17 State.reset).2 = (0xF45, 0x17) ∧
    recorded (regRead 0x0E State.reset).2 = (0xF75, 0) := by decide
/-- F15, F18, F19, F28. -/
theorem test_writes : (nextOf (regWrite 0x01 2 State.reset)).map recorded = some (0xF55, 1) ∧
    (nextOf (regWrite 0x01 0x19 State.reset)).map (fun t => t.ctrl.word) = some 0x19 ∧
    (nextOf (regWrite 0x07 0x10000 State.reset)).map recorded = some (0xF55, 7) ∧
    (nextOf (regWrite 0x07 1 deltaSession)).map recorded = some (0xF65, 7) := by decide
/-- R246's table: `scale(16) = 131`. -/
theorem test_scale : (scale 16, scale 15, scale 30) = (131, 123, 246) := by decide
/-- A command, a shape bit, a token and a packed word placed for the next step, and run by it. -/
theorem test_placed_words_run :
    (nextOf (step (State.reset.withFetchWord 32 0x00000005))).map recorded = some (0xF35, 5) ∧
    (nextOf (step (State.reset.withFetchWord 8 0))).map (fun t => t.work.build.owed) = some [0] ∧
    (nextOf (step (State.reset.withFetchWord 32 0x00800001))).map raster = some [1] ∧
    (nextOf (step (State.reset.withFetchWord 16 0xFC00))).map (fun t => t.work.entry) = some 1 := by decide

/-! Witnesses: a state and operands that meet the hypotheses of each statement, one conjunct for each clause. -/

/-- A state with one host access to come. -/
def asks (a : Access) (s : State) : State := { s with pending := [a] }

/-- A state before a data operation. -/
def before (p : Phase) (s : State) : State := { s with work := { s.work with phase := p } }

/-- An outcome that has a next state is that next state. -/
theorem eq_next {o : Host.Outcome State Fault Refusal} (h : (nextOf o).isSome = true) :
    o = .next ((nextOf o).get h) := by
  cases o with
  | next t => rfl
  | fault f => cases h
  | refused r => cases h

theorem treeOk_none : TreeOk TreeMem.reset where
  sorted := by decide
  invalid := fun _ => rfl
  valid := fun h => by cases h

theorem treeOk_pair (a b : Byte) : TreeOk (pair a b) where
  sorted := by simp [pair]
  invalid := fun h => by cases h
  valid := fun _ => ⟨.leaf a, .leaf b, by simp [CodeTree.size], by simp [CodeTree.size, pair],
    by simp [CodeTree.laidAt, CodeTree.size, pair, cellsLookup]⟩

theorem inv_deltaSession (pending : List Access) (cur : PerRole Cursor) :
    Inv { deltaSession with pending := pending, cur := cur } where
  cfg := by show Config.wf Config.default; decide
  pmem := by show Memory.wf deltaSession.pmem; decide
  pmemBound := by show ∀ c ∈ deltaSession.pmem, c.1 < 2 ^ 24; decide
  palrom := by show Memory.wf State.reset.palrom; decide
  palromBound := fun c h => by cases h
  rbuf := by show Memory.wf State.reset.rbuf; decide
  rbufBound := fun c h => by cases h
  rbufValue := fun c h => by cases h
  pos := by show (0 : Nat) ≤ 6; decide
  capacity := by show (6 : Nat) ≤ 65536; decide
  running := fun _ => by show (0 : Nat) < 6; decide
  done := fun h => by cases h
  session := fun _ => ⟨rfl, rfl, rfl, fun h => by cases h⟩
  tree := fun t => match t with
    | .dy => treeOk_none
    | .dx => treeOk_pair 0 1
    | .run => treeOk_pair 0 5
    | .val => treeOk_pair 9 7
    | .col => treeOk_none
  entryZero := fun h => by cases h
  fault := { none := fun _ => ⟨rfl, rfl⟩, some := fun h => absurd rfl h }
  work := rfl

theorem inv_pictureState : Inv pictureState where
  cfg := by decide
  pmem := by show Memory.wf State.reset.pmem; decide
  pmemBound := fun c h => by cases h
  palrom := by show Memory.wf State.reset.palrom; decide
  palromBound := fun c h => by cases h
  rbuf := by show Memory.wf pictureState.rbuf; decide
  rbufBound := by show ∀ c ∈ pictureState.rbuf, c.1 < 4; decide
  rbufValue := by show ∀ c ∈ pictureState.rbuf, c.2.toNat < 16; decide
  pos := by show (4 : Nat) ≤ 4; decide
  capacity := by show (4 : Nat) ≤ 65536; decide
  running := fun h => by cases h
  done := fun _ => rfl
  session := fun h => by cases h
  tree := fun t => match t with
    | .dy => treeOk_none
    | .dx => treeOk_none
    | .run => treeOk_none
    | .val => treeOk_none
    | .col => treeOk_none
  entryZero := fun _ => by decide
  fault := { none := fun _ => ⟨rfl, rfl⟩, some := fun h => absurd rfl h }
  work := rfl

theorem test_witness_ResetLeavesRegisters : Reg.id.isPort = false ∧ Reg.rbufData.isPort = true := by decide

theorem test_witness_WaitsForHost : State.reset.work.phase = .idle ∧ State.reset.pending = [] := by decide

theorem test_witness_StepTakesHostAccess :
    (asks (.write 0x05 0x301) State.reset).work.phase = .idle ∧
    (asks (.write 0x05 0x301) State.reset).pending = [.write 0x05 0x301] ∧
    State.reset.fault.kind = 0 ∧ decoded 0 .cmd 0x301 = some (.build 3) ∧
    (asks (.read 0x02) State.reset).pending = [.read 0x02] ∧ (asks .rst State.reset).pending = [.rst] ∧
    (asks (.pokePmem 0xFFFFFF 7) State.reset).pending = [.pokePmem 0xFFFFFF 7] ∧
    (asks (.pokePalrom 0xFFFF 7) State.reset).pending = [.pokePalrom 0xFFFF 7] ∧
    State.reset.rstate ≠ .run ∧ 0xFFFFFF < State.reset.cfg.pmemBytes ∧ 0xFFFF < State.reset.cfg.palromWords ∧
    State.reset.cfg.pmemBytes ≤ 0x1000000 ∧ State.reset.cfg.palromWords ≤ 0x10000 ∧
    deltaSession.rstate = .run ∧ deltaSession.work.phase = .idle := by decide

theorem test_witness_StepRunsDataOperation :
    (before .shape headerState).fault.kind = 0 ∧ (before .shape headerState).work.phase = .shape ∧
    (before .path builtState).work.phase = .path ∧
    (before .token quadSession).work.phase = .token ∧ quadSession.ctrl.layout = .quad ∧
    decoded 4 .tokenQuad (tupleWord 0 0 0 0) = some (.copyQuad 0 0 0 0) ∧
    (before .token deltaSession).work.phase = .token ∧ deltaSession.ctrl.layout = .delta ∧
    decoded 3 .tokenDelta (tupleWord 0 0 0 0) = some (.litDelta 0) ∧
    (before .palword State.reset).work.phase = .palword ∧ State.reset.work.palNext < State.reset.cfg.palromWords ∧
    decoded 0 .palword ((Memory.read State.reset.palrom 0).setWidth 32) = some (.palword false 0 0 0) ∧
    (before .colour State.reset).work.phase = .colour ∧ State.reset.work.red.toNat ≤ 31 ∧
    State.reset.work.green.toNat ≤ 31 ∧ State.reset.work.blue.toNat ≤ 31 := by decide

theorem test_witness_CommandDecodeOrder :
    State.reset.fault.kind = 0 ∧ faultedState.fault.kind ≠ 0 ∧
    (0x00001001 : Word).extractLsb' 12 20 ≠ 0 ∧ 7 < ((0x00000008 : Word).extractLsb' 0 8).toNat ∧
    ((0x00000008 : Word).extractLsb' 0 8).toNat ≠ 0x0F ∧
    (0x00000501 : Word).extractLsb' 12 20 = 0 ∧ 1 ≤ ((0x00000501 : Word).extractLsb' 0 8).toNat ∧
    ((0x00000503 : Word).extractLsb' 0 8).toNat ≤ 3 ∧ 4 < ((0x00000501 : Word).extractLsb' 8 4).toNat ∧
    ((0x00000100 : Word).extractLsb' 0 8).toNat = 0 ∧ 4 ≤ ((0x00000104 : Word).extractLsb' 0 8).toNat ∧
    ((0x00000107 : Word).extractLsb' 0 8).toNat ≤ 7 ∧ ((0x0000010F : Word).extractLsb' 0 8).toNat = 0x0F ∧
    (0x00000100 : Word).extractLsb' 8 4 ≠ 0 ∧
    (Instr.rstep.format = .cmd ∧ Instr.rstep.wellFormed = true ∧
      (0x00000005 : Word) = encode State.reset.ctx .rstep ∧ State.reset.rstate ≠ .run) ∧
    (Instr.wellFormed (.build 4) = true ∧ (0x00000401 : Word) = encode State.reset.ctx (.build 4)) := by
  decide

theorem test_witness_CommandLegality :
    (State.reset.fault.kind = 0 ∧ Instr.rstep.format = .cmd ∧ Instr.rstep.wellFormed = true ∧
      ¬ CommandLegal State.reset .rstep) ∧
    (deltaSession.fault.kind = 0 ∧ deltaSession.rstate = .run ∧
      (nextOf (regWrite 0x05 0x00000005 deltaSession)).map (fun t => t.fault.kind) = some 0 ∧
      (nextOf (regWrite 0x0D 0xFFFFFFFF deltaSession)).map (fun t => t.fault.kind) = some 0 ∧
      (nextOf (regWrite 0x10 15 deltaSession)).map (fun t => t.fault.kind) = some 0) ∧
    (nextOf (regWrite 0x05 0x00000006 deltaSession)).map (fun t => t.rstate) = some .done ∧
    (nextOf (regWrite 0x05 0x0000000F deltaSession)).map (fun t => t.rstate) = some .idle :=
  ⟨⟨rfl, rfl, rfl, by unfold CommandLegal; decide⟩, ⟨rfl, rfl, by decide, by decide, by decide⟩, by decide, by decide⟩

theorem test_witness_FaultedBlockFrozen : faultedState.fault.kind ≠ 0 ∧ faultedState.rstate ≠ .done ∧
    ¬ ((0x05 : BitVec 8) = 0x05 ∧ (0x0000010F : Word) = 0x0000000F) := by decide

theorem test_witness_FirstFaultStays : faultedState.fault.kind ≠ 0 ∧
    (nextOf (step (asks (.write 0x07 5) faultedState))).isSome = true ∧
    (nextOf (step (asks .rst faultedState))).isSome = true := by decide

theorem test_witness_FaultEntry : State.reset.fault.kind = 0 ∧ faultedState.fault.kind ≠ 0 := by decide

theorem test_witness_ForbiddenAccesses : State.reset.fault.kind = 0 ∧ Reg.ofIndex 0x17 = none ∧
    Reg.ofIndex 0x66 = none ∧ Reg.status.access = .ro ∧ Reg.width.access = .rw ∧ deltaSession.fault.kind = 0 ∧
    deltaSession.rstate = .run ∧ Reg.width ≠ .rbufAddr ∧ Reg.width ≠ .lutIdx := by decide

theorem test_witness_RegisterWrites : State.reset.fault.kind = 0 ∧ Reg.width.access = .rw ∧
    State.reset.rstate ≠ .run ∧ LegalValue 0xFFFF .width ∧ ¬ LegalValue 0x10000 .width ∧
    LegalValue 0x19 .ctrl ∧ ¬ LegalValue 0x02 .ctrl ∧ ¬ LegalValue 0x0C .ctrl ∧ ¬ LegalValue 0x20 .ctrl ∧
    LegalValue 1 (.treeCfg .col) ∧ ¬ LegalValue 2 (.treeCfg .col) ∧ LegalValue 15 .lutIdx ∧ ¬ LegalValue 16 .lutIdx ∧
    LegalValue 0xFFFFFFFF (.curOff .dy) := by simp only [LegalValue]; decide

theorem test_witness_RasterReadPort : pictureState.rstate = .done ∧ pictureState.rbufAddr.toNat < pictureState.npix.toNat ∧
    (State.reset.fault.kind = 0 ∧
      ¬ (State.reset.rstate = .done ∧ State.reset.rbufAddr.toNat < State.reset.npix.toNat)) ∧
    (faultedState.fault.kind ≠ 0 ∧
      ¬ (faultedState.rstate = .done ∧ faultedState.rbufAddr.toNat < faultedState.npix.toNat)) := by decide

theorem test_witness_PixelReadPort : pictureState.palValid = true ∧ pictureState.rstate = .done ∧
    pictureState.rbufAddr.toNat < pictureState.npix.toNat ∧
    (Memory.read pictureState.rbuf pictureState.rbufAddr.toNat).toNat = (0 : BitVec 4).toNat ∧
    State.reset.palValid = false ∧ faultedState.palValid = false ∧ faultedState.fault.kind ≠ 0 := by decide

theorem test_witness_PaletteReadPorts : pictureState.palValid = true ∧ State.reset.palValid = false ∧
    State.reset.fault.kind = 0 ∧ faultedState.palValid = false ∧ faultedState.fault.kind ≠ 0 := by decide

theorem test_witness_LookupScales : Inv pictureState ∧ pictureState.palValid = true := ⟨inv_pictureState, rfl⟩

theorem test_witness_RdbitReadsOneBit : (bitState 0 16).fault.kind = 0 ∧ (bitState 0 16).rstate ≠ .run ∧
    bitFault (bitState 0 16) .run 0 = none ∧ bitFault (bitState 15 16) .run 15 = none ∧
    bitFault (bitState 16 16) .run 16 = some (4, 1) ∧ bitFault (bitState 11 11) .run 11 = some (1, 7) ∧
    bitFault { State.reset with cur := State.reset.cur.set .dy (Cursor.mk 0xFFFFFF 2 8 16) } .dy 8 = some (4, 2) := by
  decide

theorem test_witness_CursorsIndependent : Role.run ≠ .dx ∧ (bitState 0 16).fault.kind = 0 ∧
    (nextOf (exec (.rdbit (Role.sel .run)) (bitState 0 16))).isSome = true := by decide

theorem test_witness_CursorsMonotone : Inv (asks (.write 0x05 0x05) deltaSession) ∧
    (asks (.write 0x05 0x05) deltaSession).rstate = .run ∧
    (nextOf (step (asks (.write 0x05 0x05) deltaSession))).isSome = true ∧
    (asks (.write 0x05 0x05) deltaSession).pending.head? ≠ some .rst ∧
    (asks (.write 0x05 0x05) deltaSession).pending.head? ≠ some (.write 0x05 0x0000000F) :=
  ⟨inv_deltaSession _ _, by decide, by decide, by decide, by decide⟩

theorem test_witness_BuildStoresHeaderTree : headerState.fault.kind = 0 ∧ headerState.rstate ≠ .run ∧
    HeaderHolds headerState .dy tree5 ∧ 1 < tree5.size := by simp only [HeaderHolds]; decide

theorem test_witness_BuildAcceptsExactly : headerState.fault.kind = 0 ∧ headerState.rstate ≠ .run ∧
    HeaderHolds headerState .dy tree5 ∧ State.reset.fault.kind = 0 ∧ State.reset.rstate ≠ .run ∧
    after (.build 0) State.reset (fun t => t.fault.kind) = some 1 := by simp only [HeaderHolds]; decide

/-- P1's header with one shape bit and one entry too many, and the header of one leaf (B4). -/
theorem test_witness_BuildCornerFaults :
    (State.reset.hdr.get .dy).shapeBits = 0 ∧
    HeaderBegins { headerState with hdr := headerState.hdr.set .dy (Header.mk 0 6 1 4 .byte) } .dy tree5 ∧
    HeaderHolds { headerState with
      pmem := [(0, 0x80), (1, 5)]
      hdr := headerState.hdr.set .dy (Header.mk 0 1 1 1 .nibble) } .dy (.leaf 5) := by
  simp only [HeaderBegins, HeaderHolds]; decide

/-- P1's header in its five shape bits, and the reset header, of none. -/
theorem test_witness_BuildIsRepeatedShapes :
    (∃ u, headerState.fault.kind = 0 ∧ headerState.rstate ≠ .run ∧
      ShapeTimes .dy 5 { headerState with
        tree := headerState.tree.set .dy { nodes := [], count := 0, valid := false }
        work := { headerState.work with tree := .dy, build := .start } } u ∧
      u.fault.kind = 0 ∧ u.work.build.closed = true) ∧
    ∃ u, State.reset.fault.kind = 0 ∧ State.reset.rstate ≠ .run ∧
      ShapeTimes .dy 1 { State.reset with
        tree := State.reset.tree.set .dy { nodes := [], count := 0, valid := false }
        work := { State.reset.work with tree := .dy, build := .start } } u ∧ u.fault.kind ≠ 0 :=
  ⟨⟨_, rfl, by decide, ⟨rfl, rfl, _, eq_next (by decide), by decide, by decide, _, eq_next (by decide), by decide,
      by decide, _, eq_next (by decide), by decide, by decide, _, eq_next (by decide), by decide, by decide, _,
      eq_next (by decide), rfl⟩, by decide, by decide⟩,
    ⟨_, rfl, by decide, ⟨rfl, rfl, _, eq_next (by decide), rfl⟩, by decide⟩⟩

/-- B2 before its first and before its second shape bit. -/
theorem test_witness_ShapeOperations :
    headerState.fault.kind = 0 ∧ headerState.work.tree = .dy ∧
    BuildWork.start.nodes ≠ nodeMax (headerState.hdr.get .dy).domain ∧
    BuildWork.start.hoff < (headerState.hdr.get .dy).shapeBits.toNat ∧
    (headerState.hdr.get .dy).shapeBase.toNat + BuildWork.start.hoff / 8 < headerState.cfg.pmemBytes ∧
    BuildWork.start.used ≠ (headerState.hdr.get .dy).permCount.toNat ∧
    (headerState.hdr.get .dy).permBase.toNat + BuildWork.start.used < headerState.cfg.pmemBytes ∧
    ((headerState.hdr.get .dy).domain = .nibble →
      (Memory.read headerState.pmem ((headerState.hdr.get .dy).permBase.toNat + BuildWork.start.used)).toNat < 16) ∧
    BuildWork.start.owed = [] ∧
    { BuildWork.start with hoff := 1, nodes := 1, owed := [0] }.owed = [0] := by decide

/-- Node capacity (B12), no bit (B3), a bit outside PMEM (B17), no entry (B6), an entry outside PMEM (B18), a leaf
above 15 (B9). -/
theorem test_witness_ShapeOperationFaults :
    (31 : Nat) = nodeMax (State.reset.hdr.get .dy).domain ∧ (State.reset.hdr.get .dy).shapeBits.toNat ≤ 0 ∧
    State.reset.cfg.pmemBytes ≤ (Header.mk 0xFFFFFFFF 3 0 0 .nibble).shapeBase.toNat + 0 / 8 ∧
    0 = (Header.mk 0 1 0 0 .nibble).permCount.toNat ∧ 0 < (Header.mk 0 1 0 0 .nibble).shapeBits.toNat ∧
    State.reset.cfg.pmemBytes ≤ (Header.mk 0 1 0x1000000 2 .nibble).permBase.toNat + 0 ∧
    (Header.mk 0 5 0 3 .nibble).domain = .nibble ∧
    16 ≤ (Memory.read headerState.pmem ((Header.mk 0 5 0 3 .nibble).permBase.toNat + 0)).toNat := by decide

theorem test_witness_PathOperations : builtState.fault.kind = 0 ∧ builtState.work.tree = .dy ∧
    bitFault builtState .dy 0 = none ∧ nodeAt .dy builtState.work.node builtState = some (.inner 1 2) ∧
    bitFault State.reset .dy 0 = some (4, 1) ∧ bitFault headerState .dy 0 = none ∧
    nodeAt .dy headerState.work.node headerState = none := by decide

theorem treeHolds_builtState : TreeHolds builtState .dy tree5 :=
  ⟨rfl, by decide, by decide, by simp only [tree5, CodeTree.laidAt, CodeTree.size]; decide⟩

/-- The first symbol of C1. -/
theorem test_witness_DecodeReturnsSymbol : builtState.fault.kind = 0 ∧ builtState.rstate ≠ .run ∧
    TreeHolds builtState .dy tree5 ∧ tree5.follow [false] = some 5 ∧ StreamHolds builtState .dy [false] :=
  ⟨rfl, by decide, treeHolds_builtState, by decide, by simp only [StreamHolds]; decide⟩

/-- C1 ended inside its second code word. -/
theorem test_witness_DecodeBreaksOff : ∃ s : State, s.fault.kind = 0 ∧ s.rstate ≠ .run ∧ TreeHolds s .dy tree5 ∧
    tree5.follow ([true] ++ [true]) = some 9 ∧ [true] ≠ [] ∧ StreamHolds s .dy [true] ∧
    bitFault s .dy ((s.cur.get .dy).off.toNat + 1) = some (1, 7) :=
  ⟨{ builtState with cur := builtState.cur.set .dy (Cursor.mk 8 1 1 2) }, rfl, by decide, treeHolds_builtState,
    by decide, by decide, by simp only [StreamHolds]; decide, by decide⟩

theorem test_witness_DecodeBound : TreeOk (builtState.tree.get .dy) ∧
    (nextOf (exec (.decode (Role.sel .dy)) builtState)).isSome = true :=
  ⟨{ sorted := by decide
     invalid := fun h => by cases h
     valid := fun _ => ⟨.leaf 5, .node (.leaf 0) (.leaf 9), by decide, by decide,
       treeHolds_builtState.2.2.2⟩ }, by decide⟩

/-- The first symbol of C1, one bit, and P1's tree with a stream of no bits. -/
theorem test_witness_DecodeIsRepeatedPaths :
    (∃ u, builtState.fault.kind = 0 ∧ builtState.rstate ≠ .run ∧ (builtState.tree.get .dy).valid = true ∧
      TreeOk (builtState.tree.get .dy) ∧
      PathTimes .dy 1 { builtState with work := { builtState.work with tree := .dy, node := 0, sym := none } } u ∧
      u.fault.kind = 0 ∧ u.work.sym = some 5) ∧
    ∃ u, PathTimes .dy 1 { builtState with
      cur := State.reset.cur
      work := { builtState.work with tree := .dy, node := 0, sym := none } } u ∧ u.fault.kind ≠ 0 :=
  ⟨⟨_, rfl, by decide, rfl, test_witness_DecodeBound.1, ⟨rfl, rfl, _, eq_next (by decide), rfl⟩, by decide,
      by decide⟩,
    ⟨_, ⟨rfl, rfl, _, eq_next (by decide), rfl⟩, by decide⟩⟩

/-- The code words of P1's stream. -/
def codes5 : List (List Bool × Byte) :=
  [([false], 5), ([true, true], 9), ([true, false], 0), ([true, false], 0), ([false], 5)]

theorem test_witness_RoundTrip : headerState.fault.kind = 0 ∧ headerState.rstate ≠ .run ∧
    HeaderHolds headerState .dy tree5 ∧ 1 < tree5.size ∧ CodesOf tree5 codes5 ∧
    StreamHolds headerState .dy (codeBits codes5) := by
  simp only [HeaderHolds, CodesOf, StreamHolds]; decide

/-- F27's size fits exactly, F26's does not, F11 is not legal. -/
theorem test_witness_RstartOpensSession :
    (deltaSession.fault.kind = 0 ∧ CommandLegal { deltaSession with rstate := .idle } .rstart ∧
      256 * 256 ≤ deltaSession.cfg.rasterMax ∧ deltaSession.cfg.rasterMax < 256 * 257) ∧
    ¬ CommandLegal State.reset .rstart := by
  simp only [CommandLegal]; decide

/-- The instructions and tuples of T1, T20 (literals), T3, P3 (fills), T8, T10, T17 (copies). -/
theorem test_witness_tokens :
    tokenView 0 (.litDelta 9) = some ⟨0, 0, 0, 9, 0⟩ ∧ tokenView 64 (.litQuad 2 0 5) = some ⟨2, 0, 0, 5, 0⟩ ∧
    tokenView 0 (.fillDelta 5 9) = some ⟨0, 0, 5, 9, 0⟩ ∧
    (rasterState [] 5 0).bufpos.toNat + (5 : Byte).toNat ≤ (rasterState [] 5 0).npix.toNat ∧
    tokenView 4 (.fillQuad 0 128 3 2) = some ⟨0, 128, 3, 2, 0⟩ ∧
    tokenView 0 (.copyDelta 3 7 0) = some ⟨0, 3, 7, 0, 3⟩ ∧
    (rasterState [1, 2, 3] 10 0).bufpos.toNat + (7 : Byte).toNat ≤ (rasterState [1, 2, 3] 10 0).npix.toNat ∧
    (3 : Int) ≤ (rasterState [1, 2, 3] 10 0).bufpos.toNat ∧
    tokenView 4 (.copyQuad 1 127 2 0) = some ⟨1, 127, 2, 0, 3⟩ := by decide

/-- T15, T4, T18, T11: one token for each fault of the token statements. -/
theorem test_witness_token_faults :
    (tokenView 0 (.litDelta 16) = some ⟨0, 0, 0, 16, 0⟩ ∧ 16 ≤ (16 : Byte).toNat) ∧
    (tokenView 0 (.fillDelta 5 9) = some ⟨0, 0, 5, 9, 0⟩ ∧
      (rasterState [] 4 0).npix.toNat < (rasterState [] 4 0).bufpos.toNat + (5 : Byte).toNat) ∧
    (tokenView 4 (.copyQuad 0 100 1 7) = some ⟨0, 100, 1, 7, -28⟩ ∧
      (rasterState [9] 4 4).bufpos.toNat + (1 : Byte).toNat ≤ (rasterState [9] 4 4).npix.toNat) ∧
    (tokenView 0 (.copyDelta 4 1 5) = some ⟨0, 4, 1, 5, 4⟩ ∧
      ((rasterState [1, 2, 3] 12 0).bufpos.toNat : Int) < 4) := by decide

theorem test_witness_TokenProgress : (rasterState [1, 2, 3] 12 0).fault.kind = 0 ∧
    tokenView 0 (.copyDelta 4 0 5) = some ⟨0, 4, 0, 5, 4⟩ ∧
    (rasterState [1, 2, 3] 12 0).bufpos.toNat < (rasterState [1, 2, 3] 12 0).npix.toNat := by decide

/-- A tree of two leaves is held where `pair` stands. -/
theorem nextSymbol_pair {s : State} {t : Role} {a b : Byte} (ht : s.tree.get t = pair a b)
    (h : StreamHolds s t [false]) : NextSymbol s t a 1 :=
  ⟨pairTree a b, [false],
    ⟨by rw [ht]; rfl, by simp [pairTree, CodeTree.size], by simp [pairTree, CodeTree.size],
      by rw [ht]; simp [pairTree, CodeTree.laidAt, CodeTree.size, pair, cellsLookup]⟩, rfl, rfl, h⟩

/-- P2's first token. -/
theorem test_witness_RstepRunsToken : ∃ u, deltaSession.fault.kind = 0 ∧ deltaSession.rstate = .run ∧
    TokenAt deltaSession 0 0 0 9 u ∧
    decode deltaSession.ctx deltaSession.tokenFormat (tupleWord 0 0 0 9) = .ok (.litDelta 9) ∧
    deltaSession.assemble 0 0 = 0 ∧ (9 : Byte).toNat < 16 :=
  ⟨_, rfl, rfl, ⟨rfl, 1, 1, 1,
      nextSymbol_pair (b := 1) rfl (by simp only [StreamHolds]; decide),
      nextSymbol_pair (b := 5) rfl (by simp only [StreamHolds]; decide),
      nextSymbol_pair (b := 7) rfl (by simp only [StreamHolds]; decide), rfl⟩,
    rfl, by decide, by decide⟩

/-- A QUAD literal in the manner of P3, every code word `0`. -/
theorem test_witness_RstepRunsToken_quad : ∃ u, quadSession.fault.kind = 0 ∧ quadSession.rstate = .run ∧
    TokenAt quadSession 0 128 0 1 u ∧
    decode quadSession.ctx quadSession.tokenFormat (tupleWord 0 128 0 1) = .ok (.litQuad 0 128 1) :=
  ⟨_, rfl, rfl, ⟨1, 1, 1, 1,
      nextSymbol_pair (b := 1) rfl (by simp only [StreamHolds]; decide),
      nextSymbol_pair (b := 127) rfl (by simp only [StreamHolds]; decide),
      nextSymbol_pair (b := 3) rfl (by simp only [StreamHolds]; decide),
      nextSymbol_pair (b := 2) rfl (by simp only [StreamHolds]; decide), rfl⟩, rfl⟩

/-- P2 with cursors that were never set up. -/
theorem test_witness_RstepFaultWritesNothing : ∃ t, Inv { deltaSession with cur := .all .reset } ∧
    ({ deltaSession with cur := .all .reset } : State).fault.kind = 0 ∧
    ({ deltaSession with cur := .all .reset } : State).rstate = .run ∧
    exec .rstep { deltaSession with cur := .all .reset } = .next t ∧ t.fault.kind ≠ 0 :=
  ⟨_, inv_deltaSession [] _, rfl, rfl, eq_next (by decide), by decide⟩

/-- P2's two `RSTEP`. -/
theorem test_witness_RrunIsRepeatedRstep : ∃ u, deltaSession.fault.kind = 0 ∧ deltaSession.rstate = .run ∧
    deltaSession.bufpos.toNat < deltaSession.npix.toNat ∧ RstepTimes 2 deltaSession u ∧ u.rstate = .done :=
  ⟨_, rfl, rfl, by decide, ⟨rfl, rfl, _, eq_next (by decide),
    by decide, by decide, _, eq_next (by decide), rfl⟩, by decide⟩

theorem test_witness_RrunFillsRaster : Inv deltaSession ∧ deltaSession.fault.kind = 0 ∧ deltaSession.rstate = .run :=
  ⟨inv_deltaSession [] _, rfl, rfl⟩

/-- P5d: one fill of five bytes. -/
theorem test_witness_RrunFinalFill : ∃ s u : State, s.fault.kind = 0 ∧ s.rstate = .run ∧ TokenAt s 0 0 5 9 u ∧
    s.assemble 0 0 = 0 ∧ (5 : Byte) ≠ 0 ∧ (9 : Byte).toNat < 16 ∧ s.bufpos.toNat + (5 : Byte).toNat = s.npix.toNat :=
  ⟨{ deltaSession with npix := 5, tree := { deltaSession.tree with run := pair 5 0 } }, _, rfl, rfl,
    ⟨rfl, 1, 1, 1,
      nextSymbol_pair (b := 1) rfl (by simp only [StreamHolds]; decide),
      nextSymbol_pair (b := 0) rfl (by simp only [StreamHolds]; decide),
      nextSymbol_pair (b := 7) rfl (by simp only [StreamHolds]; decide), rfl⟩,
    by decide, by decide, by decide, by decide⟩

/-- E12 and E10: the last base that fits. -/
theorem test_witness_PaldecPacked : (packedState .raw15 0xFFF1).fault.kind = 0 ∧
    (packedState .raw15 0xFFF1).rstate ≠ .run ∧
    (0xFFF1 : Word) = (if (packedState .raw15 0xFFF1).ctrl.palSel then (packedState .raw15 0xFFF1).palBase1
      else (packedState .raw15 0xFFF1).palBase0) ∧
    (packedState .raw15 0xFFF1).ctrl.palMode = .raw15 ∧
    (0xFFF1 : Word).toNat + 15 ≤ (packedState .raw15 0xFFF1).cfg.palromWords ∧
    (packedState .raw16 0xFFF0).ctrl.palMode = .raw16 ∧
    (0xFFF0 : Word).toNat + 16 ≤ (packedState .raw16 0xFFF0).cfg.palromWords := by decide

/-- E11: the sixteenth word does not exist. -/
theorem test_witness_PaldecPackedFault : (packedState .raw16 0xFFF1).ctrl.palMode = .raw16 ∧
    (∀ j < 15, (0xFFF1 : Word).toNat + j < (packedState .raw16 0xFFF1).cfg.palromWords) ∧
    (packedState .raw16 0xFFF1).cfg.palromWords ≤ (0xFFF1 : Word).toNat + 15 ∧
    (packedState .raw15 0xFFF2).cfg.palromWords ≤ (0xFFF2 : Word).toNat + 14 := by decide

/-- P4's colour stream: (0, 31, 0), then 42 times 0. -/
def codes45 : List (List Bool × Byte) := [([true], 0), ([false], 31), ([true], 0)] ++ List.replicate 42 ([true], 0)

theorem treeHolds_pair {s : State} {t : Role} {a b : Byte} (ht : s.tree.get t = pair a b) :
    TreeHolds s t (pairTree a b) :=
  ⟨by rw [ht]; rfl, by simp [pairTree, CodeTree.size], by simp [pairTree, CodeTree.size],
    by rw [ht]; simp [pairTree, CodeTree.laidAt, CodeTree.size, pair, cellsLookup]⟩

theorem test_witness_PaldecHuffman : colourState.fault.kind = 0 ∧ colourState.rstate ≠ .run ∧
    colourState.ctrl.palMode = .huff ∧ TreeHolds colourState .col (pairTree 31 0) ∧ CodesOf (pairTree 31 0) codes45 ∧
    codes45.length = 45 ∧ (∀ x ∈ codes45, x.2.toNat ≤ 31) ∧
    StreamHolds (colourState.setCur .col { colourState.cur.get .col with off := 0, lim := 45 }) .col
      (codeBits codes45) :=
  ⟨rfl, by decide, rfl, treeHolds_pair rfl, by simp only [CodesOf]; decide, by decide,
    by decide, by simp only [StreamHolds]; decide⟩

/-- In the manner of E15, with the symbol 32 the second one. -/
theorem test_witness_PaldecColourRange : ∃ s : State, s.fault.kind = 0 ∧ s.rstate ≠ .run ∧ s.ctrl.palMode = .huff ∧
    TreeHolds s .col (pairTree 32 0) ∧ CodesOf (pairTree 32 0) ([([true], 0)] ++ [([false], 32)]) ∧
    31 < (32 : Byte).toNat ∧
    StreamHolds (s.setCur .col { s.cur.get .col with
      off := if s.ctrl.palSel then s.palBase1 else s.palBase0
      lim := if s.ctrl.palSel then s.palEnd1 else s.palEnd0 }) .col
      (codeBits ([([true], (0 : Byte))] ++ [([false], (32 : Byte))])) :=
  ⟨{ colourState with tree := { colourState.tree with col := pair 32 0 } }, rfl, by decide, rfl, treeHolds_pair rfl,
    by simp only [CodesOf]; decide, by decide, by simp only [StreamHolds]; decide⟩

theorem test_witness_PalwordStores : State.reset.fault.kind = 0 ∧ State.reset.work.entry = 0 ∧
    (nextEntry State.reset).fault.kind = 0 ∧ (nextEntry State.reset).work.entry ≠ 0 := by decide

/-- The counter at 1 for the storing clause, at 0 for the discarding one. -/
theorem test_witness_ColourTripleStores : (nextEntry State.reset).fault.kind = 0 ∧ (31 : Byte).toNat ≤ 31 ∧
    (nextEntry State.reset).work.entry ≠ 0 ∧ State.reset.fault.kind = 0 ∧ State.reset.work.entry = 0 ∧
    31 < (32 : Byte).toNat := by decide

/-- A session's step, and P4's finished picture read once. -/
theorem test_witness_StepKeepsInv : ∃ t, Inv (asks (.write 0x05 0x06) deltaSession) ∧
    step (asks (.write 0x05 0x06) deltaSession) = .next t ∧ t.rstate = .done :=
  ⟨_, inv_deltaSession _ _, eq_next (by decide), by decide⟩

theorem test_witness_StepNeverStops : Inv (asks (.write 0x05 0x06) deltaSession) ∧
    HostObeys (asks (.write 0x05 0x06) deltaSession) := ⟨inv_deltaSession _ _, trivial⟩

/-- An instruction of each kind that answers a next state. -/
theorem test_witness_ExecFrame : (nextOf (exec .rstep deltaSession)).isSome = true ∧
    (nextOf (exec (.build 0) headerState)).isSome = true ∧ (nextOf (exec (.rdbit 2) (bitState 0 16))).isSome = true ∧
    (nextOf (exec .left builtState)).isSome = true ∧ (nextOf (exec .paldec colourState)).isSome = true ∧
    Instr.rstep ≠ .sreset ∧ tokenView 3 .rstep = none := by decide

theorem test_witness_DecodeEncode : (Instr.copyQuad 255 255 255 255).wellFormed = true ∧
    (Instr.copyQuad 255 255 255 255).classHolds 0xFFFF = true ∧ (Instr.litQuad 0 128 0).classHolds 0 = true ∧
    (Instr.build 4).wellFormed = true := by decide

theorem test_witness_EncodeDecode : decode (ctx 4 .bgrHigh) .palword 0xFFFF = .ok (.palword true 31 31 31) ∧
    decode (ctx 4 .rgbHigh) .cmd 0x00000F01 = .ok (.build 15) := ⟨rfl, rfl⟩

end Sys2Proof.Tests
end

section
/-! SUPPORT. One host access at a time: what a command and an access of each kind keep of the invariant. -/

namespace Sys2Proof.Machine

/-- A word read as a command has the commands' format (R100). -/
theorem decodeCmd_format {w : Word} {i : Instr} (h : decodeCmd w = .ok i) : i.format = .cmd := by
  obtain ⟨-, hi, -⟩ := decodeCmd_ok h
  rcases hi with rfl | ⟨_, rfl⟩ | ⟨_, rfl⟩ | ⟨_, rfl⟩ | rfl | rfl | rfl | rfl | rfl <;> rfl

/-- The one word that decodes to `SRESET` (R102). -/
theorem decodeCmd_sreset_word {w : Word} (h : decodeCmd w = .ok .sreset) : w = 0x0000000F :=
  ((decodeCmd_ok h).2.2 .atReset).symm

/-- Every command answers a next state and keeps the invariant. -/
theorem exec_command_keeps {i : Instr} {s : State} (hi : i.format = .cmd) (h : Inv s) :
    ∃ u, exec i s = .next u ∧ Inv u := by
  cases i with
  | nop => exact ⟨s, rfl, h⟩
  | build sel => exact execBuild_keeps h
  | decode sel => exact execDecode_keeps h
  | rdbit sel => exact execRdbit_keeps h
  | rstart => exact execRstart_keeps h
  | rstep => exact execRstep_keeps h
  | rrun => exact execRrun_keeps h
  | paldec => exact execPaldec_keeps h
  | sreset => exact ⟨s.toReset, rfl, h.toReset⟩
  | _ => cases hi

/-- A register write answers a next state and keeps the invariant. -/
theorem regWrite_keeps {i : BitVec 8} {v : Word} {s : State} (h : Inv s) : ∃ u, regWrite i v s = .next u ∧ Inv u := by
  rcases regWrite_cases (rfl : regWrite i v s = _) with ⟨-, he⟩ | ⟨-, -, -, he⟩ | ⟨-, c, a, he⟩ | ⟨-, -, j, hj, he⟩ |
    ⟨-, t, r, -, -, -, hs, he⟩
  · exact ⟨s, he, h⟩
  · exact ⟨_, he, h.toReset⟩
  · exact ⟨_, he, h.raise _ _ _⟩
  · rw [he]; exact exec_command_keeps (decodeCmd_format hj) h
  · exact ⟨t, he, h.sets hs⟩

theorem Inv.regRead {s : State} (h : Inv s) (i : BitVec 8) : Inv (regRead i s).2 := by
  rcases regRead_state i s with he | ⟨c, a, -, he⟩ <;> rw [he]
  · exact h
  · exact h.raise _ _ _

/-- What a poke that does not stop leaves (R82): a state outside a session, at an address that exists. -/
theorem poke_next {bound a : Nat} {t s u : State} (h : poke bound a t s = .next u) :
    s.rstate ≠ .run ∧ a < bound ∧ u = t := by
  unfold poke at h
  split at h
  · cases h
  · rename_i hr
    split at h
    · cases h
    · rename_i ha
      cases h
      exact ⟨hr, Nat.not_le.1 ha, rfl⟩

theorem Inv.pokePmem {s : State} (h : Inv s) {a : Nat} (ha : a < s.cfg.pmemBytes) (v : Byte) :
    Inv { s with pmem := Memory.write s.pmem a v } := by
  refine { h with pmem := Memory.wf_write h.pmem a v, pmemBound := fun c hc => ?_, fault := ⟨h.fault.1, h.fault.2⟩ }
  rcases mem_write hc with ⟨rfl, -⟩ | hc
  · exact ha
  · exact h.pmemBound c hc

theorem Inv.pokePalrom {s : State} (h : Inv s) {a : Nat} (ha : a < s.cfg.palromWords) (v : Half) :
    Inv { s with palrom := Memory.write s.palrom a v } := by
  refine { h with palrom := Memory.wf_write h.palrom a v, palromBound := fun c hc => ?_,
                  fault := ⟨h.fault.1, h.fault.2⟩ }
  rcases mem_write hc with ⟨rfl, -⟩ | hc
  · exact ha
  · exact h.palromBound c hc

/-- Every host access keeps the invariant. -/
theorem access_keeps {a : Access} {s t : State} (h : Inv s) (ht : access a s = .next t) : Inv t := by
  cases a with
  | read i => cases ht; exact (h.regRead i).host _ _
  | write i v =>
    obtain ⟨u, hu, hi⟩ := regWrite_keeps (i := i) (v := v) h
    cases hu.symm.trans ht
    exact hi
  | rst => cases ht; exact h.toReset
  | pokePmem a v =>
    obtain ⟨-, ha, rfl⟩ := poke_next ht
    exact h.pokePmem ha v
  | pokePalrom a v =>
    obtain ⟨-, ha, rfl⟩ := poke_next ht
    exact h.pokePalrom ha v

/-! The step. -/

/-- Where no data operation is in progress, a step waits or takes the oldest access (R333, R274). -/
theorem step_idle {s : State} (h : s.work.phase = .idle) : step s = hostStep s := if_pos h

theorem Inv.phase_idle {s : State} (h : Inv s) : s.work.phase = .idle := by rw [h.work]; rfl

/-- Everything a step can do between data operations: nothing with no access pending, else the oldest access. -/
theorem step_cases {s t : State} (h : s.work.phase = .idle) (ht : step s = .next t) :
    (s.pending = [] ∧ t = s) ∨
      ∃ a rest, s.pending = a :: rest ∧ access a { s with pending := rest } = .next t := by
  rw [step_idle h, hostStep] at ht
  cases hp : s.pending with
  | nil => rw [hp] at ht; cases ht; exact .inl ⟨rfl, rfl⟩
  | cons a rest => rw [hp] at ht; exact .inr ⟨a, rest, rfl, ht⟩

/-- Settles O55: a step takes one host access, and each kind of access keeps the invariant. -/
theorem stepKeepsInv : Obligations.StepKeepsInv := by
  intro s t h ht
  rcases step_cases h.phase_idle ht with ⟨-, rfl⟩ | ⟨a, rest, -, ha⟩
  · exact h
  · exact access_keeps (h.host rest s.returned) ha

end Sys2Proof.Machine
end

section
/-! SUPPORT. Cursors in a session: every access but a reset leaves them where they are or moves them ahead. -/

namespace Sys2Proof.Machine

/-- A command that `RSTATE` forbids moves no cursor. -/
theorem issue_illegal_cur {i : Instr} {l : Bool} {b : State → Run Unit} {s t : State} (hl : l = false)
    (ht : issue i l b s = .next t) : t.cur = s.cur := by
  subst hl
  rcases issue_cases ht with ⟨-, he⟩ | ⟨-, -, he⟩ | ⟨-, hl, -⟩
  · cases he; rfl
  · cases he; exact raise_cur _ _ _ _
  · cases hl

theorem issueSel_illegal_cur {i : Instr} {sel : BitVec 4} {l : Role → Bool} {b : Role → State → Run Unit}
    {s t : State} (hl : ∀ c, l c = false) (ht : issueSel i sel l b s = .next t) : t.cur = s.cur := by
  rcases issueSel_cases ht with ⟨-, he⟩ | ⟨-, -, he⟩ | ⟨c, -, he⟩
  · cases he; rfl
  · cases he; exact raise_cur _ _ _ _
  · exact issue_illegal_cur (hl c) he

/-- A legal command of a session moves cursors ahead if its body does. -/
theorem issue_ahead {i : Instr} {l : Bool} {b : State → Run Unit} {s t : State}
    (hb : (b s).Meets (fun _ u => CursorsAhead s.cur u.cur) (fun u => CursorsAhead s.cur u.cur) (fun _ => False))
    (ht : issue i l b s = .next t) : CursorsAhead s.cur t.cur := by
  rcases issue_cases ht with ⟨-, he⟩ | ⟨-, -, he⟩ | ⟨-, -, he⟩
  · cases he; exact .refl _
  · cases he; rw [raise_cur]; exact .refl _
  · rcases hb.of_next he.symm with ⟨_, -, hu⟩ | ⟨-, hu⟩ <;> exact hu

theorem RasterMoves.ahead {s u : State} (h : RasterMoves s u) : CursorsAhead s.cur u.cur := by
  obtain ⟨c, m, p, lt, lo, hc, -, -, -, -, rfl⟩ := h
  exact hc

theorem TokenHalts.ahead {s u : State} (h : TokenHalts s u) : CursorsAhead s.cur u.cur := by
  obtain ⟨c, lt, lo, k, n, a, hc, -, -, rfl⟩ := h
  rw [raise_cur]; exact hc

theorem RasterHalts.ahead {s u : State} (h : RasterHalts s u) : CursorsAhead s.cur u.cur := by
  obtain ⟨w, hw, -, hu⟩ := h
  exact hw.ahead.trans hu.ahead

theorem rstepBody_ahead {s : State} (h : Inv s) (hr : s.rstate = .run) :
    (rstepBody s).Meets (fun _ u => CursorsAhead s.cur u.cur) (fun u => CursorsAhead s.cur u.cur)
      (fun _ => False) := by
  refine (rstepBody_cases (h.sessionReady hr) (h.running hr)).mono ?_ (fun _ ht => ht.ahead) (fun _ h => h)
  rintro _ u ⟨w, hw, -, rfl⟩
  split <;> exact hw.ahead

theorem rrunBody_ahead {s : State} (h : Inv s) (hr : s.rstate = .run) :
    (rrunBody s).Meets (fun _ u => CursorsAhead s.cur u.cur) (fun u => CursorsAhead s.cur u.cur)
      (fun _ => False) := by
  refine (rasterLoop_cases (h.sessionReady hr) h.pos (Nat.le_refl _)).mono ?_ (fun _ ht => ht.ahead) (fun _ h => h)
  rintro _ u ⟨w, hw, -, rfl⟩
  exact hw.ahead

/-- In a session a command that is no reset moves no cursor back (R31): all but `RSTEP` and `RRUN` are illegal (R275)
or touch no cursor. -/
theorem exec_ahead {i : Instr} {s t : State} (hi : i.format = .cmd) (hn : i ≠ .sreset) (h : Inv s)
    (hr : s.rstate = .run) (ht : exec i s = .next t) : CursorsAhead s.cur t.cur := by
  have of_eq : t.cur = s.cur → CursorsAhead s.cur t.cur := fun he => he ▸ .refl _
  cases i with
  | nop => cases ht; exact .refl _
  | build sel => exact of_eq (issueSel_illegal_cur (fun _ => by simp [hr]) ht)
  | decode sel => exact of_eq (issueSel_illegal_cur (fun _ => by simp [hr]) ht)
  | rdbit sel => exact of_eq (issueSel_illegal_cur (fun _ => by simp [hr]) ht)
  | rstart => exact of_eq (issue_illegal_cur (by simp [hr]) ht)
  | rstep => exact issue_ahead (rstepBody_ahead h hr) ht
  | rrun => exact issue_ahead (rrunBody_ahead h hr) ht
  | paldec => exact of_eq (issue_illegal_cur (by simp [hr]) ht)
  | sreset => exact absurd rfl hn
  | _ => cases hi

/-- In a session a register write that is not `SRESET` moves no cursor back (R23, R31). -/
theorem regWrite_ahead {i : BitVec 8} {v : Word} {s t : State} (h : Inv s) (hr : s.rstate = .run)
    (hn : ¬ (i = 0x05 ∧ v = 0x0000000F)) (ht : regWrite i v s = .next t) : CursorsAhead s.cur t.cur := by
  rcases regWrite_cases ht with ⟨-, he⟩ | ⟨-, hi, hv, -⟩ | ⟨-, c, a, he⟩ | ⟨-, hi, j, hj, he⟩ |
    ⟨-, u, r, -, -, -, hs, he⟩
  · cases he; exact .refl _
  · exact absurd ⟨hi, hv⟩ hn
  · cases he; rw [raise_cur]; exact .refl _
  · refine exec_ahead (decodeCmd_format hj) ?_ h hr he.symm
    rintro rfl
    exact hn ⟨hi, decodeCmd_sreset_word hj⟩
  · cases he; rw [(hs.locked hr).2]; exact .refl _

/-- In a session an access that is no reset moves no cursor back. -/
theorem access_ahead {a : Access} {s t : State} (h : Inv s) (hr : s.rstate = .run) (h1 : a ≠ .rst)
    (h2 : a ≠ .write 0x05 0x0000000F) (ht : access a s = .next t) : CursorsAhead s.cur t.cur := by
  cases a with
  | read i =>
    cases ht
    show CursorsAhead s.cur (regRead i s).2.cur
    rcases regRead_state i s with he | ⟨c, a, -, he⟩ <;> rw [he]
    · exact .refl _
    · rw [raise_cur]; exact .refl _
  | write i v => exact regWrite_ahead h hr (fun ⟨hi, hv⟩ => h2 (by rw [hi, hv])) ht
  | rst => exact absurd rfl h1
  | pokePmem a v => exact absurd hr (poke_next ht).1
  | pokePalrom a v => exact absurd hr (poke_next ht).1

/-- Settles O23: the step's one access moves cursors only ahead. -/
theorem cursorsMonotone : Obligations.CursorsMonotone := by
  intro s t h hr ht h1 h2
  show CursorsAhead s.cur t.cur
  rcases step_cases h.phase_idle ht with ⟨-, rfl⟩ | ⟨a, rest, hp, ha⟩
  · exact .refl _
  · rw [hp] at h1 h2
    exact access_ahead (s := { s with pending := rest }) (h.host rest s.returned) hr (fun he => h1 (congrArg some he))
      (fun he => h2 (congrArg some he)) ha

end Sys2Proof.Machine
end

section
/-! SUPPORT. The frame of the instructions: for each of them the pieces of the state it may touch, and that it leaves
the rest of the state as it is. -/

namespace Sys2Proof.Machine

/-! Pieces of the state, and agreement outside some of them. -/

/-- The pieces of the state that instructions other than `SRESET` change; the fault record apart, which any may. -/
inductive Piece where
  | cur | tree | session | raster | pal | palFlags | result | work

/-- Two states agree in a piece: `session` is NPIX and RSTATE, `raster` the raster with BUFPOS and the latches. -/
def Piece.Agrees (s t : State) : Piece → Prop
  | .cur => t.cur = s.cur
  | .tree => t.tree = s.tree
  | .session => t.npix = s.npix ∧ t.rstate = s.rstate
  | .raster => t.rbuf = s.rbuf ∧ t.bufpos = s.bufpos ∧ t.lasttok = s.lasttok ∧ t.lastoff = s.lastoff
  | .pal => t.pal = s.pal
  | .palFlags => t.palValid = s.palValid ∧ t.palShiny = s.palShiny
  | .result => t.result = s.result
  | .work => t.work = s.work

/-- What is the host's (R20, R49): parameters, memories, the interface, and the registers the host writes. -/
structure HostPart where
  cfg : Config
  pmem : List Host.Cell
  palrom : List (Nat × Half)
  pending : List Access
  returned : List Word
  hdr : PerRole Header
  width : BitVec 16
  height : BitVec 16
  ctrl : Ctrl
  rbufAddr : Word
  lutIdx : BitVec 4
  palBase0 : Word
  palBase1 : Word
  palEnd0 : Word
  palEnd1 : Word

/-- The host's part of a state. -/
def State.hostPart (s : State) : HostPart :=
  { cfg := s.cfg, pmem := s.pmem, palrom := s.palrom, pending := s.pending, returned := s.returned, hdr := s.hdr,
    width := s.width, height := s.height, ctrl := s.ctrl, rbufAddr := s.rbufAddr, lutIdx := s.lutIdx,
    palBase0 := s.palBase0, palBase1 := s.palBase1, palEnd0 := s.palEnd0, palEnd1 := s.palEnd1 }

/-- From `s` to `t` only the pieces listed and the fault record may have changed. -/
structure Framed (m : List Piece) (s t : State) : Prop where
  host : t.hostPart = s.hostPart
  agrees : ∀ p, p ∉ m → p.Agrees s t

section
variable {m n : List Piece} {s t u : State}

theorem Framed.refl (m : List Piece) (s : State) : Framed m s s :=
  ⟨rfl, fun p _ => by cases p <;> simp [Piece.Agrees]⟩

theorem Piece.Agrees.trans {p : Piece} (h1 : p.Agrees s t) (h2 : p.Agrees t u) : p.Agrees s u := by
  cases p <;> simp_all [Piece.Agrees]

theorem Framed.trans (h1 : Framed m s t) (h2 : Framed m t u) : Framed m s u :=
  ⟨h2.host.trans h1.host, fun p hp => (h1.agrees p hp).trans (h2.agrees p hp)⟩

theorem Framed.mono (h : Framed m s t) (hmn : m ⊆ n := by simp) : Framed n s t :=
  ⟨h.host, fun p hp => h.agrees p fun hm => hp (hmn hm)⟩

theorem Framed.raise (h : Framed m s t) (c : Cause) (w : BitVec 4) (a : Nat) : Framed m s (Machine.raise c w a t) := by
  refine h.trans ⟨by simp [State.hostPart], fun p _ => ?_⟩
  cases p <;> simp [Piece.Agrees]

/-! One lemma for each update the commands make. -/

theorem Framed.cur (c : PerRole Cursor) (hm : .cur ∈ m := by simp) : Framed m s { s with cur := c } :=
  ⟨rfl, fun p hp => by cases p <;> simp_all [Piece.Agrees]⟩

theorem Framed.setTree (r : Role) (x : TreeMem) (hm : .tree ∈ m := by simp) : Framed m s (s.setTree r x) :=
  ⟨rfl, fun p hp => by cases p <;> simp_all [Piece.Agrees]⟩

theorem Framed.session (x : Word) (r : RState) (hm : .session ∈ m := by simp) :
    Framed m s { s with npix := x, rstate := r } :=
  ⟨rfl, fun p hp => by cases p <;> simp_all [Piece.Agrees]⟩

theorem Framed.raster (b : List Host.Cell) (x lt lo : Word) (hm : .raster ∈ m := by simp) :
    Framed m s { s with rbuf := b, bufpos := x, lasttok := lt, lastoff := lo } :=
  ⟨rfl, fun p hp => by cases p <;> simp_all [Piece.Agrees]⟩

theorem Framed.pal (q : Vector PalEntry 16) (hm : .pal ∈ m := by simp) : Framed m s { s with pal := q } :=
  ⟨rfl, fun p hp => by cases p <;> simp_all [Piece.Agrees]⟩

theorem Framed.palFlags (v sh : Bool) (hm : .palFlags ∈ m := by simp) :
    Framed m s { s with palValid := v, palShiny := sh } :=
  ⟨rfl, fun p hp => by cases p <;> simp_all [Piece.Agrees]⟩

theorem Framed.result (v : Byte) (hm : .result ∈ m := by simp) : Framed m s { s with result := v } :=
  ⟨rfl, fun p hp => by cases p <;> simp_all [Piece.Agrees]⟩

theorem Framed.work (w : Work) (hm : .work ∈ m := by simp) : Framed m s { s with work := w } :=
  ⟨rfl, fun p hp => by cases p <;> simp_all [Piece.Agrees]⟩

end

/-! Commands in progress. -/

/-- However a command in progress goes on or ends, only the pieces listed differ from `s`. -/
def Run.Frames {α : Type} (r : Run α) (m : List Piece) (s : State) : Prop :=
  r.Meets (fun _ u => Framed m s u) (Framed m s) (fun _ => True)

section
variable {α β : Type} {m n : List Piece} {s t : State}

theorem Run.Frames.ok {a : α} (h : Framed m s t) : (Run.ok a t).Frames m s := h

theorem Run.Frames.raise (c : Cause) (w : BitVec 4) (a : Nat) : (Run.raise c w a s : Run α).Frames m s :=
  (Framed.refl m s).raise c w a

theorem Run.Frames.mono {r : Run α} (h : r.Frames m s) (hmn : m ⊆ n := by simp) : r.Frames n s :=
  Run.Meets.mono h (fun _ _ h => h.mono hmn) (fun _ h => h.mono hmn) (fun _ h => h)

/-- A step of a command, and what follows it from wherever the step has led. -/
theorem Run.Frames.bind {r : Run α} {f : α → State → Run β} (hr : r.Frames m s) (hf : ∀ a u, (f a u).Frames n u)
    (hmn : m ⊆ n := by simp) : (r.bind f).Frames n s := by
  refine Run.Meets.bind (Run.Meets.mono (hr.mono hmn) (fun a u hu => ?_) (fun _ h => h) (fun _ h => h))
  exact Run.Meets.mono (hf a u) (fun _ _ h => hu.trans h) (fun _ h => hu.trans h) (fun _ h => h)

/-- An update, and a command in progress from there. -/
theorem Run.Frames.after {r : Run α} (h : Framed m s t) (hr : r.Frames m t) : r.Frames m s :=
  Run.Meets.mono hr (fun _ _ hu => h.trans hu) (fun _ hu => h.trans hu) (fun _ h => h)

theorem issue_framed {i : Instr} {l : Bool} {b : State → Run Unit} (hb : (b s).Frames m s)
    (h : issue i l b s = .next t) : Framed m s t := by
  rcases issue_cases h with ⟨-, he⟩ | ⟨-, -, he⟩ | ⟨-, -, he⟩
  · cases he; exact .refl m s
  · cases he; exact (Framed.refl m s).raise _ _ _
  · rcases Run.Meets.of_next hb he.symm with ⟨_, -, hu⟩ | ⟨-, hu⟩ <;> exact hu

theorem issueSel_framed {i : Instr} {sel : BitVec 4} {l : Role → Bool} {b : Role → State → Run Unit}
    (hb : ∀ c, (b c s).Frames m s) (h : issueSel i sel l b s = .next t) : Framed m s t := by
  rcases issueSel_cases h with ⟨-, he⟩ | ⟨-, -, he⟩ | ⟨c, -, he⟩
  · cases he; exact .refl m s
  · cases he; exact (Framed.refl m s).raise _ _ _
  · exact issue_framed (hb c) he

theorem dataOp_framed {b : State → Run Unit} (hb : (b s).Frames m s) (h : dataOp b s = .next t) : Framed m s t := by
  by_cases hk : s.fault.kind = 0
  · rw [dataOp_of_none hk] at h
    rcases Run.Meets.of_next hb h with ⟨_, -, hu⟩ | ⟨-, hu⟩ <;> exact hu
  · rw [dataOp_of_faulted hk] at h
    cases h; exact .refl m s

end

/-! Cursors and trees. -/

theorem readBit_frames (c : Role) (s : State) : (readBit c s).Frames [.cur] s := by
  refine (readBit_cases c s).mono ?_ ?_ (fun _ _ => trivial)
  · rintro b u ⟨-, -, -, -, rfl⟩
    exact .cur _
  · rintro u ⟨k, -, rfl⟩
    exact (Framed.refl _ _).raise _ _ _

theorem rdbitBody_frames (c : Role) (s : State) : (rdbitBody c s).Frames [.cur, .result] s :=
  (readBit_frames c s).bind fun _ _ => .ok (.result _)

theorem takeBranch_frames (t : Role) (i : Nat) (p : Bool) (s : State) : (takeBranch t i p s).Frames [] s := by
  unfold takeBranch
  split
  · exact trivial
  · exact .ok (.refl _ _)

theorem traverse_frames (t : Role) (n i : Nat) (s : State) : (traverse t n i s).Frames [.cur] s := by
  induction n generalizing i s with
  | zero => exact trivial
  | succ n ih =>
    refine (readBit_frames t s).bind fun p s => (takeBranch_frames t i p s).bind fun x s => ?_
    split
    · exact .ok (.refl _ _)
    · exact ih _ _

theorem decodeSymbol_frames (t : Role) (s : State) : (decodeSymbol t s).Frames [.cur] s := traverse_frames _ _ _ _

theorem decodeBody_frames (t : Role) (s : State) : (decodeBody t s).Frames [.cur, .result] s :=
  (decodeSymbol_frames t s).bind fun _ _ => .ok (.result _)

theorem pathOp_frames (p : Bool) (s : State) : (pathOp p s).Frames [.cur, .work] s :=
  (readBit_frames _ s).bind fun _ u => (takeBranch_frames _ _ p u).bind fun _ _ => .ok (.work _)

theorem memRead_frames (a : Nat) (w : BitVec 4) (addr : Nat) (s : State) : (memRead a w addr s).Frames [] s := by
  unfold memRead
  split
  · exact .raise _ _ _
  · exact .ok (.refl _ _)

theorem beginNode_frames (t : Role) (b : BuildWork) (s : State) : (beginNode t b s).Frames [] s := by
  refine (beginNode_cases t b s).mono ?_ ?_ (fun _ _ => trivial)
  · rintro x u ⟨-, -, -, -, rfl⟩
    exact .refl _ _
  · rintro u ⟨k, -, rfl⟩
    exact (Framed.refl _ _).raise _ _ _

theorem permNext_frames (t : Role) (b : BuildWork) (s : State) : (permNext t b s).Frames [] s := by
  unfold permNext
  simp only
  split
  · exact .raise _ _ _
  · refine (memRead_frames _ _ _ s).bind fun v u => ?_
    split
    · exact .raise _ _ _
    · exact .ok (.refl _ _)

theorem closeLeaf_frames (t : Role) (i : Nat) (b : BuildWork) (s : State) : (closeLeaf t i b s).Frames [.tree] s := by
  refine (permNext_frames t b s).bind fun x s => ?_
  simp only
  split
  · exact .ok (Framed.setTree t _)
  · exact .ok ((Framed.setTree t _).trans (.setTree t _))

theorem buildStep_frames (t : Role) (b : BuildWork) (s : State) : (buildStep t b s).Frames [.tree] s := by
  refine (beginNode_frames t b s).bind fun x s => ?_
  split
  · exact closeLeaf_frames _ _ _ _
  · exact .ok (.refl _ _)

theorem buildLoop_frames (t : Role) (n : Nat) (b : BuildWork) (s : State) : (buildLoop t n b s).Frames [.tree] s := by
  induction n generalizing b s with
  | zero => exact trivial
  | succ n ih =>
    refine (buildStep_frames t b s).bind fun b s => ?_
    split
    · exact .ok (.refl _ _)
    · exact ih _ _

theorem finishBuild_frames (t : Role) (b : BuildWork) (s : State) : (finishBuild t b s).Frames [.tree] s := by
  unfold finishBuild
  simp only
  split
  · exact .raise _ _ _
  · split
    · exact .raise _ _ _
    · exact .ok (.setTree t _)

theorem buildTree_frames (t : Role) (s : State) : (buildTree t s).Frames [.tree] s :=
  .after (.setTree t _) ((buildLoop_frames t _ _ _).bind fun b u => finishBuild_frames t b u)

theorem execNode_framed {s t : State} (h : execNode s = .next t) : Framed [.tree, .work] s t := by
  refine dataOp_framed ?_ h
  exact (beginNode_frames _ _ s).bind fun _ _ => .ok (.work _)

theorem execLeaf_framed {s t : State} (h : execLeaf s = .next t) : Framed [.tree, .work] s t := by
  refine dataOp_framed ?_ h
  exact (beginNode_frames _ _ s).bind fun _ _ => (closeLeaf_frames _ _ _ _).bind fun _ _ => .ok (.work _)

/-! The palette. -/

theorem storeEntry_framed {m : List Piece} (i : BitVec 4) (e : PalEntry) (s : State) (hm : .pal ∈ m := by simp) :
    Framed m s (storeEntry i e s) := by
  unfold storeEntry
  split
  · exact .refl _ _
  · exact .pal _ hm

theorem checkColour_frames (v : Byte) (s : State) : (checkColour v s).Frames [] s := by
  unfold checkColour
  split
  · exact .raise _ _ _
  · exact .ok (.refl _ _)

theorem colourSymbol_frames (s : State) : (colourSymbol s).Frames [.cur] s :=
  (decodeSymbol_frames .col s).bind fun v u => (checkColour_frames v u).mono

theorem huffEntries_frames (n : Nat) (i : BitVec 4) (s : State) : (huffEntries n i s).Frames [.cur, .pal] s := by
  induction n generalizing i s with
  | zero => exact .ok (.refl _ _)
  | succ n ih =>
    exact (colourSymbol_frames s).bind fun _ s => (colourSymbol_frames s).bind fun _ s =>
      (colourSymbol_frames s).bind fun _ s => .after (storeEntry_framed _ _ s) (ih _ _)

theorem palRead_frames (a : Nat) (s : State) : (palRead a s).Frames [] s := by
  unfold palRead
  split
  · exact .raise _ _ _
  · exact .ok (.refl _ _)

theorem rawEntries_frames (n : Nat) (i : BitVec 4) (a : Nat) (s : State) : (rawEntries n i a s).Frames [.pal] s := by
  induction n generalizing i a s with
  | zero => exact .ok (.refl _ _)
  | succ n ih =>
    exact (palRead_frames a s).bind fun _ s => .after (storeEntry_framed _ _ s) (ih _ _ _)

theorem paldecMode_frames (s : State) : (paldecMode s).Frames [.cur, .pal] s := by
  unfold paldecMode
  split
  · exact .after (.cur _) (huffEntries_frames _ _ _)
  · exact (rawEntries_frames _ _ _ s).mono
  · exact (rawEntries_frames _ _ _ s).mono

theorem clearPalette_framed (s : State) : Framed [.cur, .pal, .palFlags] s (clearPalette s) :=
  (Framed.pal _).trans (.palFlags false s.palShiny)

theorem paldecBody_frames (s : State) : (paldecBody s).Frames [.cur, .pal, .palFlags] s :=
  .after (clearPalette_framed s) ((paldecMode_frames _).bind fun _ _ => .ok (.palFlags _ _))

theorem palwordBody_frames (i : BitVec 4) (e : PalEntry) (s : State) :
    (Run.ok () (nextEntry (storeEntry i e s))).Frames [.pal, .work] s :=
  .ok (.trans (storeEntry_framed i e s) (.work _))

theorem execPalword_framed {o : Bool} {r g b : BitVec 5} {s t : State} (h : execPalword o r g b s = .next t) :
    Framed [.pal, .work] s t := by
  refine dataOp_framed ?_ h
  exact palwordBody_frames _ _ s

theorem execColourTriple_framed {r g b : Byte} {s t : State} (h : execColourTriple r g b s = .next t) :
    Framed [.pal, .work] s t := by
  refine dataOp_framed ?_ h
  exact (checkColour_frames r s).bind fun _ u => (checkColour_frames g u).bind fun _ u =>
    (checkColour_frames b u).bind fun _ u => palwordBody_frames _ _ u

/-! The raster. -/

theorem rstartBody_frames (s : State) : (rstartBody s).Frames [.session, .raster] s := by
  unfold rstartBody
  simp only
  split
  · exact .raise _ _ _
  · exact .ok (.trans (.raster [] 0 0 0) (.session _ _))

theorem putByte_framed (v : Byte) (s : State) : Framed [.raster] s (s.putByte v) := .raster _ _ _ _

theorem copyBytes_framed (offset : Int) (n : Nat) (s : State) : Framed [.raster] s (copyBytes offset n s) := by
  induction n generalizing s with
  | zero => exact .refl _ _
  | succ n ih => exact (putByte_framed _ s).trans (ih _)

theorem applyFill_frames (n v : Byte) (s : State) : (applyFill n v s).Frames [.raster] s := by
  unfold applyFill
  split
  · exact .raise _ _ _
  · exact .ok (.raster _ _ _ _)

theorem applyCopy_frames (offset : Int) (n v : Byte) (s : State) : (applyCopy offset n v s).Frames [.raster] s := by
  unfold applyCopy
  split
  · exact .raise _ _ _
  · split
    · exact .raise _ _ _
    · split
      · exact .raise _ _ _
      · refine .ok ((copyBytes_framed offset n.toNat s).trans ?_)
        unfold putTrailing
        split
        · exact putByte_framed v _
        · exact .refl _ _

theorem runToken_frames (dy dx n v : Byte) (offset : Int) (s : State) :
    (runToken dy dx n v offset s).Frames [.raster] s := by
  refine .after (t := latchToken dy dx n v offset s) (.raster _ _ _ _) ?_
  unfold runToken
  simp only
  split
  · exact .raise _ _ _
  · split
    · exact .ok (putByte_framed v _)
    · split
      · exact applyFill_frames n v _
      · exact applyCopy_frames offset n v _

theorem fetchDy_frames (s : State) : (fetchDy s).Frames [.cur] s := by
  unfold fetchDy
  split
  · exact decodeSymbol_frames .dy s
  · exact .ok (.refl _ _)

theorem token_frames (s : State) : (token s).Frames [.cur, .raster] s :=
  (fetchDy_frames s).bind fun dy s => (decodeSymbol_frames .dx s).bind fun dx s =>
    (decodeSymbol_frames .run s).bind fun n s =>
      (decodeSymbol_frames .val s).bind fun v s => (runToken_frames dy dx n v _ s).mono

theorem rstepBody_frames (s : State) : (rstepBody s).Frames [.cur, .raster, .session] s := by
  refine (token_frames s).bind fun _ s => .ok ?_
  split
  · exact .session _ _
  · exact .refl _ _

theorem rasterLoop_frames (n : Nat) (s : State) : (rasterLoop n s).Frames [.cur, .raster, .session] s := by
  have hdone : ∀ u : State, (Run.ok () { u with rstate := .done }).Frames [.cur, .raster, .session] u :=
    fun u => .ok (.session _ _)
  induction n generalizing s with
  | zero =>
    unfold rasterLoop
    split
    · exact hdone s
    · exact trivial
  | succ n ih =>
    unfold rasterLoop
    split
    · exact hdone s
    · exact (token_frames s).bind fun _ u => ih u

/-! Every instruction. -/

/-- The pieces of the state each instruction may change. `SRESET`, which changes all and the host's registers too, is
kept apart. -/
def touches : Instr → List Piece
  | .nop => []
  | .build _ => [.tree]
  | .decode _ => [.cur, .result]
  | .rdbit _ => [.cur, .result]
  | .rstart => [.session, .raster]
  | .rstep => [.cur, .raster, .session]
  | .rrun => [.cur, .raster, .session]
  | .paldec => [.cur, .pal, .palFlags]
  | .sreset => []
  | .node => [.tree, .work]
  | .leaf => [.tree, .work]
  | .left => [.cur, .work]
  | .right => [.cur, .work]
  | .litDelta _ => [.raster]
  | .fillDelta _ _ => [.raster]
  | .copyDelta _ _ _ => [.raster]
  | .litQuad _ _ _ => [.raster]
  | .fillQuad _ _ _ _ => [.raster]
  | .copyQuad _ _ _ _ => [.raster]
  | .palword _ _ _ _ => [.pal, .work]
  | .colourTriple _ _ _ => [.pal, .work]

/-- An instruction that is not `SRESET` changes only what `touches` lists, and the fault record. -/
theorem exec_framed {i : Instr} {s t : State} (hi : i ≠ .sreset) (h : exec i s = .next t) :
    Framed (touches i) s t := by
  cases i with
  | nop => cases h; exact .refl _ _
  | build sel => exact issueSel_framed (fun c => buildTree_frames c s) h
  | decode sel => exact issueSel_framed (fun c => decodeBody_frames c s) h
  | rdbit sel => exact issueSel_framed (fun c => rdbitBody_frames c s) h
  | rstart => exact issue_framed (rstartBody_frames s) h
  | rstep => exact issue_framed (rstepBody_frames s) h
  | rrun => exact issue_framed (rasterLoop_frames _ s) h
  | paldec => exact issue_framed (paldecBody_frames s) h
  | sreset => exact absurd rfl hi
  | node => exact execNode_framed h
  | leaf => exact execLeaf_framed h
  | left => exact dataOp_framed (pathOp_frames false s) h
  | right => exact dataOp_framed (pathOp_frames true s) h
  | litDelta v => exact dataOp_framed (runToken_frames _ _ _ _ _ s) h
  | fillDelta n v => exact dataOp_framed (runToken_frames _ _ _ _ _ s) h
  | copyDelta d n v => exact dataOp_framed (runToken_frames _ _ _ _ _ s) h
  | litQuad dy dx v => exact dataOp_framed (runToken_frames _ _ _ _ _ s) h
  | fillQuad dy dx n v => exact dataOp_framed (runToken_frames _ _ _ _ _ s) h
  | copyQuad dy dx n v => exact dataOp_framed (runToken_frames _ _ _ _ _ s) h
  | palword o r g b => exact execPalword_framed h
  | colourTriple r g b => exact execColourTriple_framed h

section
variable {i : Instr}

theorem result_not_touched (h1 : ∀ c, i ≠ .rdbit c) (h2 : ∀ c, i ≠ .decode c) : .result ∉ touches i := by
  cases i <;> simp_all [touches]

theorem tree_not_touched (h1 : ∀ c, i ≠ .build c) (h2 : i ≠ .node) (h3 : i ≠ .leaf) : .tree ∉ touches i := by
  cases i <;> simp_all [touches]

theorem session_not_touched (h1 : i ≠ .rstart) (h2 : i ≠ .rstep) (h3 : i ≠ .rrun) : .session ∉ touches i := by
  cases i <;> simp_all [touches]

theorem raster_not_touched {w : BitVec 16} (h1 : i ≠ .rstart) (h2 : i ≠ .rstep) (h3 : i ≠ .rrun)
    (h4 : tokenView w i = none) : .raster ∉ touches i := by
  cases i <;> simp_all [touches, tokenView]

theorem pal_not_touched (h1 : i ≠ .paldec) (h2 : i.format ≠ .palword) (h3 : i.format ≠ .colour) :
    .pal ∉ touches i := by
  cases i <;> simp_all [touches, Instr.format]

theorem palFlags_not_touched (h1 : i ≠ .paldec) : .palFlags ∉ touches i := by
  cases i <;> simp_all [touches]

theorem cur_not_touched (h1 : ∀ c, i ≠ .rdbit c) (h2 : ∀ c, i ≠ .decode c) (h3 : i ≠ .left) (h4 : i ≠ .right)
    (h5 : i ≠ .rstep) (h6 : i ≠ .rrun) (h7 : i ≠ .paldec) : .cur ∉ touches i := by
  cases i <;> simp_all [touches]

theorem work_not_touched {w : BitVec 16} (h : i.format = .cmd ∨ tokenView w i ≠ none) : .work ∉ touches i := by
  cases i <;> simp_all [touches, Instr.format, tokenView]

end

/-- Settles O57: the frame of each instruction is what `touches` lists. -/
theorem execFrame : Obligations.ExecFrame := by
  intro i s t h
  by_cases hi : i = .sreset
  · subst hi
    cases h
    exact ⟨⟨rfl, rfl, rfl, rfl, rfl⟩, fun hn => absurd rfl hn⟩
  · have hf := exec_framed hi h
    have hh := hf.host
    simp only [State.hostPart, HostPart.mk.injEq] at hh
    obtain ⟨h1, h2, h3, h4, h5, hregs⟩ := hh
    refine ⟨⟨h1, h2, h3, h4, h5⟩, fun _ => ⟨hregs, ?_, ?_, ?_, ?_, ?_, ?_, ?_, ?_⟩⟩
    · exact fun n1 n2 => hf.agrees .result (result_not_touched n1 n2)
    · exact fun n1 n2 n3 => hf.agrees .tree (tree_not_touched n1 n2 n3)
    · exact fun n1 n2 n3 => hf.agrees .session (session_not_touched n1 n2 n3)
    · exact fun n1 n2 n3 n4 => hf.agrees .raster (raster_not_touched n1 n2 n3 n4)
    · exact fun n1 n2 n3 => hf.agrees .pal (pal_not_touched n1 n2 n3)
    · exact fun n1 => hf.agrees .palFlags (palFlags_not_touched n1)
    · exact fun n1 n2 n3 n4 n5 n6 n7 => hf.agrees .cur (cur_not_touched n1 n2 n3 n4 n5 n6 n7)
    · exact fun hw => hf.agrees .work (work_not_touched hw)

end Sys2Proof.Machine
end

section
/-! SUPPORT. The register file as the host sees it: what an access that is refused records, reserved bits, and that a
legal write is taken whole. -/

namespace Sys2Proof.Machine

/-! Refused accesses. -/

/-- R293: with no fault recorded, fault entry records the cause's codes and changes nothing else. -/
theorem raise_eq_faultedWith {c : Cause} {u : BitVec 4} {a : Nat} {s : State} (h : s.fault.kind = 0) :
    raise c u a s = s.faultedWith c.kind c.sub u (BitVec.ofNat 32 a) := raise_of_none h

/-- A fault of the interface whose `FADDR` is the index of the access (R291). -/
theorem raise_index {c : Cause} {i : BitVec 8} {s : State} (h : s.fault.kind = 0) :
    raise c noUnit i.toNat s = s.faultedWith c.kind c.sub 15 (i.setWidth 32) := by
  rw [raise_eq_faultedWith h, BitVec.ofNat_toNat]; rfl

section
variable {i : BitVec 8} {r : Reg} {v : Word} {s : State}

theorem regWrite_unmapped (h : s.fault.kind = 0) (hi : Reg.ofIndex i = none) :
    regWrite i v s = .next (raise .badRegister noUnit i.toNat s) := by
  rw [regWrite, if_neg (by simp [(State.not_faulted_iff s).2 h]), hi]

theorem regWrite_ro (h : s.fault.kind = 0) (hr : r.access = .ro) :
    regWrite r.index v s = .next (raise .badRegister noUnit r.index.toNat s) := by
  rw [regWrite, if_neg (by simp [(State.not_faulted_iff s).2 h]), Reg.ofIndex_index]
  simp only [hr]

theorem regWrite_rw (h : s.fault.kind = 0) (hr : r.access = .rw) :
    regWrite r.index v s = .next (plainWrite r r.index v s) := by
  rw [regWrite, if_neg (by simp [(State.not_faulted_iff s).2 h]), Reg.ofIndex_index]
  simp only [hr]

theorem plainWrite_locked (h : s.rstate = .run) (hr : unlockedInSession r = false) :
    plainWrite r i v s = raise .lockedRegister noUnit i.toNat s := if_pos ⟨h, hr⟩

theorem plainWrite_unlocked (h : s.rstate = .run → unlockedInSession r = true) :
    plainWrite r i v s = (setReg r v s).getD (raise .badValue noUnit i.toNat s) := by
  rw [plainWrite, if_neg fun ⟨hr, hu⟩ => by simp [h hr] at hu]
  cases setReg r v s <;> rfl

theorem unlockedInSession_iff : unlockedInSession r = true ↔ r = .rbufAddr ∨ r = .lutIdx := by
  simp [unlockedInSession]

theorem readGuard_of_not_port (h : r.isPort = false) : readGuard r s = none := by
  cases r with
  | rbufData => cases h
  | pixel => cases h
  | lutOut => cases h
  | lutRaw => cases h
  | _ => rfl

/-- A read of a register that is no read port returns its value and changes nothing (R272). -/
theorem regRead_not_port (h : r.isPort = false) : regRead r.index s = (regValue r s, s) :=
  regRead_good (readGuard_of_not_port h)

end

/-- Settles O14: each forbidden access is one branch of R272 or R273, and records its index. -/
theorem forbiddenAccesses : Obligations.ForbiddenAccesses := by
  intro s h
  refine ⟨fun i hi => ?_, fun i v hi => ?_, fun r v hr => ?_, ?_, fun r v hr hrun h1 h2 => ?_⟩
  · rw [regRead_unmapped hi, raise_index h]; rfl
  · rw [regWrite_unmapped h hi, raise_index h]; rfl
  · rw [regWrite_ro h hr, raise_index h]; rfl
  · exact regRead_not_port (r := .cmd) rfl
  · have hl : unlockedInSession r = false := by simp [← Bool.not_eq_true, unlockedInSession_iff, h1, h2]
    rw [regWrite_rw h hr, plainWrite_locked hrun hl, raise_index h]; rfl

/-! The raster read port. -/

theorem rasterReadable_iff {s : State} :
    s.rasterReadable = true ↔ s.rstate = .done ∧ s.rbufAddr.toNat < s.npix.toNat := by
  simp [State.rasterReadable]

theorem readGuard_rbufData_good {s : State} (h : s.rstate = .done ∧ s.rbufAddr.toNat < s.npix.toNat) :
    readGuard .rbufData s = none := if_pos (rasterReadable_iff.2 h)

theorem readGuard_rbufData_bad {s : State} (h : ¬ (s.rstate = .done ∧ s.rbufAddr.toNat < s.npix.toNat)) :
    readGuard .rbufData s = some s.rbufAddr.toNat := if_neg fun hr => h (rasterReadable_iff.1 hr)

/-- Settles O16: the two outcomes of the guard of `RBUF_DATA`, and the plain register `RBUF_ADDR`. -/
theorem rasterReadPort : Obligations.RasterReadPort := by
  refine ⟨rfl, fun s => ⟨regRead_not_port (r := .rbufAddr) rfl, fun v h => ?_, fun h1 h2 => ?_, fun h hb => ?_,
    fun h hb => ?_, fun v h => ?_⟩⟩
  · exact (regWrite_ro (r := .rbufData) h rfl).trans (by rw [raise_index h]; rfl)
  · exact regRead_good (readGuard_rbufData_good ⟨h1, h2⟩)
  · refine (regRead_guarded (readGuard_rbufData_bad hb)).trans ?_
    rw [raise_eq_faultedWith h, BitVec.ofNat_toNat, BitVec.setWidth_eq]; rfl
  · exact (regRead_guarded (readGuard_rbufData_bad hb)).trans (by rw [raise_of_recorded h])
  · exact (regWrite_rw (r := .rbufAddr) h rfl).trans (by rw [plainWrite_unlocked fun _ => rfl]; rfl)

/-! Reserved bits. -/

/-- A field of `m` bits put below bits that stand below bit `k`. -/
theorem append_toNat_lt {n m k : Nat} {x : BitVec n} (y : BitVec m) (h : x.toNat < 2 ^ k) :
    (x ++ y).toNat < 2 ^ (k + m) := by
  rw [BitVec.toNat_append]
  exact Nat.or_lt_two_pow (Nat.shiftLeft_lt h) (Nat.lt_of_lt_of_le y.isLt (Nat.pow_le_pow_right (by decide) (by omega)))

/-- Padding has no bit set. -/
theorem padding_toNat_lt (n : Nat) : (0 : BitVec n).toNat < 2 ^ 0 := by simp

theorem setWidth_toNat_lt {n m : Nat} (x : BitVec n) (h : n ≤ m) : (x.setWidth m).toNat < 2 ^ n := by
  rw [BitVec.toNat_setWidth_of_le h]; exact x.isLt

theorem Ctrl.word_toNat_lt (c : Ctrl) : c.word.toNat < 2 ^ 5 :=
  append_toNat_lt _ (append_toNat_lt _ (append_toNat_lt _ (padding_toNat_lt 27)))

theorem FaultReg.word_toNat_lt (f : FaultReg) : f.word.toNat < 2 ^ 12 :=
  append_toNat_lt _ (append_toNat_lt _ (append_toNat_lt _ (padding_toNat_lt 20)))

theorem PalEntry.pixel_toNat_lt (e : PalEntry) : e.pixel.toNat < 2 ^ 25 :=
  append_toNat_lt _ (append_toNat_lt _ (append_toNat_lt _ (append_toNat_lt _ (padding_toNat_lt 7))))

theorem PalEntry.raw_toNat_lt (e : PalEntry) : e.raw.toNat < 2 ^ 16 :=
  append_toNat_lt _ (append_toNat_lt _ (append_toNat_lt _ (append_toNat_lt _ (padding_toNat_lt 16))))

theorem State.statusWord_toNat_lt (s : State) : s.statusWord.toNat < 2 ^ 10 :=
  append_toNat_lt _ (append_toNat_lt _ (append_toNat_lt _ (append_toNat_lt _ (append_toNat_lt _ (append_toNat_lt _
    (append_toNat_lt _ (append_toNat_lt _ (append_toNat_lt _ (padding_toNat_lt 22)))))))))

theorem domainWord_toNat_lt (d : Domain) : (domainWord d).toNat < 2 := by cases d <;> decide

/-- R22: the reserved bits of every register with a field table read as 0. -/
theorem reserved_bits (s : State) :
    (regValue .ctrl s).toNat < 2 ^ 5 ∧ (regValue .status s).toNat < 2 ^ 10 ∧
    (regValue .fault s).toNat < 2 ^ 12 ∧ (regValue .result s).toNat < 2 ^ 8 ∧ (regValue .width s).toNat < 2 ^ 16 ∧
    (regValue .height s).toNat < 2 ^ 16 ∧ (regValue .lutIdx s).toNat < 2 ^ 4 ∧ (regValue .lutRaw s).toNat < 2 ^ 16 ∧
    (regValue .lutOut s).toNat < 2 ^ 25 ∧ (regValue .pixel s).toNat < 2 ^ 25 ∧
    ∀ t : Role, (regValue (.treeCfg t) s).toNat < 2 ∧ (regValue (.treeNodes t) s).toNat < 2 ^ 10 :=
  ⟨s.ctrl.word_toNat_lt, s.statusWord_toNat_lt, s.fault.word_toNat_lt, setWidth_toNat_lt _ (by decide),
    setWidth_toNat_lt _ (by decide), setWidth_toNat_lt _ (by decide), setWidth_toNat_lt _ (by decide),
    PalEntry.raw_toNat_lt _, PalEntry.pixel_toNat_lt _, PalEntry.pixel_toNat_lt _,
    fun _ => ⟨domainWord_toNat_lt _, setWidth_toNat_lt _ (by decide)⟩⟩

/-! Legal values (R22). -/

section
variable {v : Word}

/-- The bits from `n` on are 0 exactly where the word stands below bit `n`. -/
theorem extractLsb'_eq_zero_iff {n m : Nat} (h : n + m = 32) : v.extractLsb' n m = 0 ↔ v.toNat < 2 ^ n := by
  have hv : v.toNat < 2 ^ n * 2 ^ m := by rw [← Nat.pow_add, h]; exact v.isLt
  rw [← BitVec.toNat_inj, BitVec.extractLsb'_toNat, Nat.shiftRight_eq_div_pow,
    Nat.mod_eq_of_lt (Nat.div_lt_of_lt_mul hv)]
  exact Nat.div_eq_zero_iff_lt (Nat.two_pow_pos n)

theorem setWidth_setWidth_of_lt {n : Nat} (h : v.toNat < 2 ^ n) : (v.setWidth n).setWidth 32 = v := by
  apply BitVec.eq_of_toNat_eq
  rw [BitVec.toNat_setWidth, BitVec.toNat_setWidth, Nat.mod_eq_of_lt h, Nat.mod_eq_of_lt v.isLt]

theorem halfOfWord_legal (h : v.toNat < 2 ^ 16) : halfOfWord v = some (v.setWidth 16) :=
  if_pos ((extractLsb'_eq_zero_iff rfl).2 h)

theorem halfOfWord_illegal (h : ¬ v.toNat < 2 ^ 16) : halfOfWord v = none :=
  if_neg fun hx => h ((extractLsb'_eq_zero_iff rfl).1 hx)

theorem nibbleOfWord_legal (h : v.toNat < 2 ^ 4) : nibbleOfWord v = some (v.setWidth 4) :=
  if_pos ((extractLsb'_eq_zero_iff rfl).2 h)

theorem nibbleOfWord_illegal (h : ¬ v.toNat < 2 ^ 4) : nibbleOfWord v = none :=
  if_neg fun hx => h ((extractLsb'_eq_zero_iff rfl).1 hx)

theorem domainOfWord_legal (h : v.toNat < 2) : ∃ d, domainOfWord v = some d ∧ domainWord d = v := by
  have hv : v = 0 ∨ v = 1 := by bv_omega
  rcases hv with rfl | rfl
  · exact ⟨.nibble, rfl, rfl⟩
  · exact ⟨.byte, rfl, rfl⟩

theorem domainOfWord_illegal (h : ¬ v.toNat < 2) : domainOfWord v = none := by
  rw [domainOfWord, if_neg (by rintro rfl; exact h (by decide)), if_neg (by rintro rfl; exact h (by decide))]

/-- R25: the words of `CTRL` below bit 5, each refused or taken as it is. -/
theorem ctrlOfWord_below : ∀ n < 32, (ctrlOfWord (BitVec.ofNat 32 n)).map Ctrl.word =
    if n % 4 < 2 ∧ n / 4 % 4 < 3 then some (BitVec.ofNat 32 n) else none := by decide

theorem ctrlOfWord_legal (h : LegalValue v .ctrl) : ∃ c, ctrlOfWord v = some c ∧ c.word = v := by
  obtain ⟨h5, hl, hm⟩ := h
  have hw := ctrlOfWord_below v.toNat h5
  rw [if_pos ⟨hl, hm⟩, BitVec.ofNat_toNat, BitVec.setWidth_eq] at hw
  exact Option.map_eq_some_iff.1 hw

theorem ctrlOfWord_illegal (h : ¬ LegalValue v .ctrl) : ctrlOfWord v = none := by
  by_cases h5 : v.toNat < 2 ^ 5
  · have hw := ctrlOfWord_below v.toNat h5
    rw [if_neg fun hx => h ⟨h5, hx⟩, BitVec.ofNat_toNat, BitVec.setWidth_eq] at hw
    exact Option.map_eq_none_iff.1 hw
  · exact if_pos fun hx => h5 ((extractLsb'_eq_zero_iff rfl).1 hx)

end

/-! A register set. -/

section
variable {r q : Reg} {v : Word} {s t : State}

theorem setReg_illegal (h : ¬ LegalValue v r) : setReg r v s = none := by
  cases r with
  | ctrl => exact Option.map_eq_none_iff.2 (ctrlOfWord_illegal h)
  | width => exact Option.map_eq_none_iff.2 (halfOfWord_illegal h)
  | height => exact Option.map_eq_none_iff.2 (halfOfWord_illegal h)
  | lutIdx => exact Option.map_eq_none_iff.2 (nibbleOfWord_illegal h)
  | treeCfg t => exact Option.map_eq_none_iff.2 (domainOfWord_illegal h)
  | _ => exact absurd trivial h

/-- A legal value is taken, and the register reads as it. -/
theorem setReg_legal (s : State) (hr : r.access = .rw) (h : LegalValue v r) :
    ∃ t, setReg r v s = some t ∧ regValue r t = v := by
  cases r with
  | ctrl =>
    obtain ⟨c, hc, hw⟩ := ctrlOfWord_legal h
    exact ⟨{ s with ctrl := c }, by rw [setReg, hc]; rfl, hw⟩
  | width =>
    exact ⟨{ s with width := v.setWidth 16 }, by rw [setReg, halfOfWord_legal h]; rfl,
      setWidth_setWidth_of_lt (n := 16) h⟩
  | height =>
    exact ⟨{ s with height := v.setWidth 16 }, by rw [setReg, halfOfWord_legal h]; rfl,
      setWidth_setWidth_of_lt (n := 16) h⟩
  | lutIdx =>
    exact ⟨{ s with lutIdx := v.setWidth 4 }, by rw [setReg, nibbleOfWord_legal h]; rfl,
      setWidth_setWidth_of_lt (n := 4) h⟩
  | treeCfg t =>
    obtain ⟨d, hd, hw⟩ := domainOfWord_legal h
    exact ⟨_, by rw [setReg, hd]; rfl, by simpa [regValue] using hw⟩
  | rbufAddr => exact ⟨_, rfl, rfl⟩
  | palBase0 => exact ⟨_, rfl, rfl⟩
  | palBase1 => exact ⟨_, rfl, rfl⟩
  | palEnd0 => exact ⟨_, rfl, rfl⟩
  | palEnd1 => exact ⟨_, rfl, rfl⟩
  | curBase c => exact ⟨_, rfl, by simp [regValue]⟩
  | curLen c => exact ⟨_, rfl, by simp [regValue]⟩
  | curOff c => exact ⟨_, rfl, by simp [regValue]⟩
  | curEnd c => exact ⟨_, rfl, by simp [regValue]⟩
  | hdrShapeBase t => exact ⟨_, rfl, by simp [regValue]⟩
  | hdrShapeBits t => exact ⟨_, rfl, by simp [regValue]⟩
  | hdrPermBase t => exact ⟨_, rfl, by simp [regValue]⟩
  | hdrPermCount t => exact ⟨_, rfl, by simp [regValue]⟩
  | _ => cases hr

/-- A cursor set shows in no register whose field of the cursor is as before. -/
theorem regValue_setCur {c : Role} {x : Cursor} (hb : q = .curBase c → x.base = (s.cur.get c).base)
    (hl : q = .curLen c → x.len = (s.cur.get c).len) (ho : q = .curOff c → x.off = (s.cur.get c).off)
    (he : q = .curEnd c → x.lim = (s.cur.get c).lim) : regValue q (s.setCur c x) = regValue q s := by
  cases q with
  | curBase d => by_cases hd : d = c <;> simp_all [regValue, PerRole.get_set]
  | curLen d => by_cases hd : d = c <;> simp_all [regValue, PerRole.get_set]
  | curOff d => by_cases hd : d = c <;> simp_all [regValue, PerRole.get_set]
  | curEnd d => by_cases hd : d = c <;> simp_all [regValue, PerRole.get_set]
  | _ => rfl

/-- A header descriptor set shows in no register whose field of the descriptor is as before. -/
theorem regValue_setHdr {c : Role} {x : Header}
    (hsb : q = .hdrShapeBase c → x.shapeBase = (s.hdr.get c).shapeBase)
    (hsn : q = .hdrShapeBits c → x.shapeBits = (s.hdr.get c).shapeBits)
    (hpb : q = .hdrPermBase c → x.permBase = (s.hdr.get c).permBase)
    (hpn : q = .hdrPermCount c → x.permCount = (s.hdr.get c).permCount)
    (hd : q = .treeCfg c → x.domain = (s.hdr.get c).domain) : regValue q (s.setHdr c x) = regValue q s := by
  cases q with
  | hdrShapeBase d => by_cases hd : d = c <;> simp_all [regValue, PerRole.get_set]
  | hdrShapeBits d => by_cases hd : d = c <;> simp_all [regValue, PerRole.get_set]
  | hdrPermBase d => by_cases hd : d = c <;> simp_all [regValue, PerRole.get_set]
  | hdrPermCount d => by_cases hd : d = c <;> simp_all [regValue, PerRole.get_set]
  | treeCfg d => by_cases hd : d = c <;> simp_all [regValue, PerRole.get_set]
  | _ => rfl

/-- R22: no other register changes, the read ports apart. -/
theorem regValue_setReg_ne (h : setReg r v s = some t) (hq : q ≠ r) (hp : q.isPort = false) :
    regValue q t = regValue q s := by
  have hne : ∀ {P : Prop}, q = r → P := fun he => absurd he hq
  cases r with
  | ctrl =>
    obtain ⟨x, -, rfl⟩ := Option.map_eq_some_iff.1 h
    cases q with
    | ctrl => exact hne rfl
    | _ => rfl
  | width =>
    obtain ⟨x, -, rfl⟩ := Option.map_eq_some_iff.1 h
    cases q with
    | width => exact hne rfl
    | _ => rfl
  | height =>
    obtain ⟨x, -, rfl⟩ := Option.map_eq_some_iff.1 h
    cases q with
    | height => exact hne rfl
    | _ => rfl
  | rbufAddr =>
    cases h
    cases q with
    | rbufAddr => exact hne rfl
    | rbufData => cases hp
    | pixel => cases hp
    | _ => rfl
  | lutIdx =>
    obtain ⟨x, -, rfl⟩ := Option.map_eq_some_iff.1 h
    cases q with
    | lutIdx => exact hne rfl
    | lutOut => cases hp
    | lutRaw => cases hp
    | _ => rfl
  | palBase0 =>
    cases h
    cases q with
    | palBase0 => exact hne rfl
    | _ => rfl
  | palBase1 =>
    cases h
    cases q with
    | palBase1 => exact hne rfl
    | _ => rfl
  | palEnd0 =>
    cases h
    cases q with
    | palEnd0 => exact hne rfl
    | _ => rfl
  | palEnd1 =>
    cases h
    cases q with
    | palEnd1 => exact hne rfl
    | _ => rfl
  | curBase c => cases h; exact regValue_setCur hne (fun _ => rfl) (fun _ => rfl) (fun _ => rfl)
  | curLen c => cases h; exact regValue_setCur (fun _ => rfl) hne (fun _ => rfl) (fun _ => rfl)
  | curOff c => cases h; exact regValue_setCur (fun _ => rfl) (fun _ => rfl) hne (fun _ => rfl)
  | curEnd c => cases h; exact regValue_setCur (fun _ => rfl) (fun _ => rfl) (fun _ => rfl) hne
  | hdrShapeBase c =>
    cases h; exact regValue_setHdr hne (fun _ => rfl) (fun _ => rfl) (fun _ => rfl) (fun _ => rfl)
  | hdrShapeBits c =>
    cases h; exact regValue_setHdr (fun _ => rfl) hne (fun _ => rfl) (fun _ => rfl) (fun _ => rfl)
  | hdrPermBase c =>
    cases h; exact regValue_setHdr (fun _ => rfl) (fun _ => rfl) hne (fun _ => rfl) (fun _ => rfl)
  | hdrPermCount c =>
    cases h; exact regValue_setHdr (fun _ => rfl) (fun _ => rfl) (fun _ => rfl) hne (fun _ => rfl)
  | treeCfg c =>
    obtain ⟨x, -, rfl⟩ := Option.map_eq_some_iff.1 h
    exact regValue_setHdr (fun _ => rfl) (fun _ => rfl) (fun _ => rfl) (fun _ => rfl) hne
  | _ => cases h

end

theorem Reg.not_port_of_rw {r : Reg} (h : r.access = .rw) : r.isPort = false := by
  cases r <;> simp_all [Reg.access, Reg.isPort]

/-- Settles O15: reserved bits by the width of each register's fields, the write by whether its value is legal. -/
theorem registerWrites : Obligations.RegisterWrites := by
  refine ⟨reserved_bits, fun s r v hk hr hl => ?_⟩
  have hu : s.rstate = .run → unlockedInSession r = true := fun h => unlockedInSession_iff.2 (hl h)
  have hw : regWrite r.index v s = .next ((setReg r v s).getD (raise .badValue noUnit r.index.toNat s)) := by
    rw [regWrite_rw hk hr, plainWrite_unlocked hu]
  refine ⟨fun hv => ?_, fun hv => ?_⟩
  · rw [hw, setReg_illegal hv, Option.getD_none, raise_index hk]; rfl
  · obtain ⟨t, ht, hval⟩ := setReg_legal s hr hv
    have hread : regRead r.index t = (v, t) := by rw [regRead_not_port (Reg.not_port_of_rw hr), hval]
    refine ⟨t, by rw [hw, ht, Option.getD_some], hread, fun q hq hp => regValue_setReg_ne ht hq hp, ?_⟩
    obtain ⟨⟨_, _, _, _, _, _, _, _, _, _, _, rfl⟩, -⟩ := setReg_sets ht hu
    exact ⟨rfl, rfl, rfl, rfl, rfl, rfl, rfl, rfl, rfl⟩

/-! The status word. -/

/-- R28: the fields of `STATUS` bit by bit. -/
theorem State.statusWord_getLsbD (s : State) (i : Nat) : s.statusWord.getLsbD i =
    match i with
    | 0 => s.tree.dy.valid
    | 1 => s.tree.dx.valid
    | 2 => s.tree.run.valid
    | 3 => s.tree.val.valid
    | 4 => s.tree.col.valid
    | 5 => s.palValid
    | 6 => s.rstate.code.getLsbD 0
    | 7 => s.rstate.code.getLsbD 1
    | 8 => s.faulted
    | 9 => s.palShiny
    | _ => false := by
  simp only [State.statusWord, BitVec.getLsbD_append]
  rcases i with _ | _ | _ | _ | _ | _ | _ | _ | _ | _ | i <;> simp

theorem State.statusWord_rstate (s : State) : s.statusWord.extractLsb' 6 2 = s.rstate.code := by
  apply BitVec.eq_of_getLsbD_eq
  intro i hi
  rw [BitVec.getLsbD_extractLsb', decide_eq_true hi, Bool.true_and]
  have hc : i = 0 ∨ i = 1 := by omega
  rcases hc with rfl | rfl <;> exact s.statusWord_getLsbD _

/-- Settles O20: each field of `STATUS` is found at its place in the word. -/
theorem statusAndOutputs : Obligations.StatusAndOutputs := by
  intro s
  refine ⟨s.statusWord, regRead_not_port (r := .status) rfl, fun t => ?_, s.statusWord_getLsbD 5, ?_, ?_,
    s.statusWord_getLsbD 9, (extractLsb'_eq_zero_iff rfl).2 s.statusWord_toNat_lt, (s.statusWord_getLsbD 8).symm, ?_⟩
  · cases t <;> exact s.statusWord_getLsbD _
  · rw [s.statusWord_rstate]; cases s.rstate <;> rfl
  · rw [s.statusWord_getLsbD 8]; exact s.faulted_iff
  · simp [State.doneOut]

end Sys2Proof.Machine
end

section
/-! SUPPORT. `PALDEC` in the packed modes: its words read one by one, up to the first that does not exist. -/

namespace Sys2Proof.Machine

/-! A palette word read (R85). -/

theorem palRead_of_lt {a : Nat} {s : State} (h : a < s.cfg.palromWords) :
    palRead a s = .ok (Memory.read s.palrom a) s := if_neg (Nat.not_le.2 h)

theorem palRead_of_le {a : Nat} {s : State} (h : s.cfg.palromWords ≤ a) :
    palRead a s = Run.raise .palromAddress noUnit a s := if_pos h

/-! Entries from palette words (R243, R244). -/

/-- A stored entry changes the palette table alone. -/
theorem storeEntry_eq_pal (i : BitVec 4) (e : PalEntry) (s : State) :
    ∃ q, storeEntry i e s = { s with pal := q } := by
  unfold storeEntry
  split
  · exact ⟨s.pal, rfl⟩
  · exact ⟨_, rfl⟩

/-- A word that exists gives one entry, and the next word follows. -/
theorem rawEntries_succ_of_lt {n a : Nat} {i : BitVec 4} {s : State} (h : a < s.cfg.palromWords) :
    rawEntries (n + 1) i a s =
      rawEntries n (i + 1) (a + 1) (storeEntry i (demux s.cfg.packedOrder (Memory.read s.palrom a)) s) := by
  rw [rawEntries, palRead_of_lt h, Run.bind_ok]

/-- A word that does not exist ends the command. -/
theorem rawEntries_succ_of_le {n a : Nat} {i : BitVec 4} {s : State} (h : s.cfg.palromWords ≤ a) :
    rawEntries (n + 1) i a s = Run.raise .palromAddress noUnit a s := by
  rw [rawEntries, palRead_of_le h, Run.bind_raise]

/-- Where word `k` is the first that does not exist, it raises the fault, and only the table has changed. -/
theorem rawEntries_first_missing {n k a : Nat} {i : BitVec 4} {s : State} (hn : k < n)
    (hlow : ∀ j < k, a + j < s.cfg.palromWords) (hmiss : s.cfg.palromWords ≤ a + k) :
    ∃ q, rawEntries n i a s = Run.raise .palromAddress noUnit (a + k) { s with pal := q } := by
  induction k generalizing n i a s with
  | zero =>
    obtain ⟨n, rfl⟩ := Nat.exists_eq_add_one_of_ne_zero (Nat.ne_zero_of_lt hn)
    exact ⟨s.pal, rawEntries_succ_of_le hmiss⟩
  | succ k ih =>
    obtain ⟨n, rfl⟩ := Nat.exists_eq_add_one_of_ne_zero (Nat.ne_zero_of_lt hn)
    obtain ⟨q, hq⟩ := storeEntry_eq_pal i (demux s.cfg.packedOrder (Memory.read s.palrom a)) s
    have hnext : ∀ j, a + (j + 1) = a + 1 + j := by omega
    have hlow' : ∀ j < k, a + 1 + j < s.cfg.palromWords := fun j hj => hnext j ▸ hlow (j + 1) (Nat.succ_lt_succ hj)
    rw [hnext] at hmiss ⊢
    rw [rawEntries_succ_of_lt (a := a) (hlow 0 k.succ_pos), hq]
    exact ih (s := { s with pal := q }) (Nat.lt_of_succ_lt_succ hn) hlow' hmiss

/-! The command (R241). -/

/-- In the packed modes no tree has to be valid (R275), so that outside a session the command is legal. -/
theorem exec_paldec_of_packed {s : State} (hk : s.fault.kind = 0) (hr : s.rstate ≠ .run)
    (hm : s.ctrl.palMode ≠ .huff) : exec .paldec s = (paldecBody s).outcome := by
  have ht : paletteTreeValid s = true := by
    unfold paletteTreeValid
    split
    · exact absurd ‹_› hm
    · rfl
    · rfl
  have hl : (s.rstate != .run && paletteTreeValid s) = true := by simp [hr, ht]
  show issue .paldec (s.rstate != .run && paletteTreeValid s) paldecBody s = _
  rw [hl, issue_of_legal hk]

theorem paldecMode_raw15 {s : State} (hm : s.ctrl.palMode = .raw15) :
    paldecMode s = rawEntries 15 1 s.palBase.toNat s := by rw [paldecMode, hm]

theorem paldecMode_raw16 {s : State} (hm : s.ctrl.palMode = .raw16) :
    paldecMode s = rawEntries 16 0 s.palBase.toNat s := by rw [paldecMode, hm]

/-- Settles O48: the words before word `k` are stored, word `k` raises the fault, and `PALDEC` ends there with the
table invalid. -/
theorem paldecPackedFault : Obligations.PaldecPackedFault := by
  intro s base k hk hr hb hm hlow hmiss
  obtain ⟨q, hq⟩ : ∃ q, paldecMode (clearPalette s) =
      Run.raise .palromAddress noUnit (base.toNat + k) { s with pal := q, palValid := false } := by
    subst hb
    rcases hm with ⟨hm, hlt⟩ | ⟨hm, hlt⟩
    · rw [paldecMode_raw15 (s := clearPalette s) hm]
      exact rawEntries_first_missing hlt hlow hmiss
    · rw [paldecMode_raw16 (s := clearPalette s) hm]
      exact rawEntries_first_missing hlt hlow hmiss
  have hpacked : s.ctrl.palMode ≠ .huff := by rcases hm with ⟨hm, -⟩ | ⟨hm, -⟩ <;> simp [hm]
  refine ⟨q, ?_⟩
  rw [exec_paldec_of_packed hk hr hpacked, paldecBody, hq, Run.bind_raise, Run.outcome_raise]
  exact congrArg _ (raise_eq_faultedWith hk)

end Sys2Proof.Machine
end

section
/-! SUPPORT. Commands on the register interface: the words that decode to them (R101, R102), and in which order a word
written to `CMD` is checked (R103, R275). -/

namespace Sys2Proof

/-! The decoder and the words of R102. -/

section
variable {w : Word}

theorem encode_of_decodeCmd {i : Instr} (h : decodeCmd w = .ok i) (c : Ctx) : encode c i = w := (decodeCmd_ok h).2.2 c

/-- A word selects a command exactly when it is the word the encoder gives it. -/
theorem decodeCmd_eq_ok_iff (c : Ctx) {i : Instr} (hi : i.format = .cmd) : decodeCmd w = .ok i ↔ w = encode c i := by
  constructor
  · intro h
    exact (encode_of_decodeCmd h c).symm
  · rintro rfl
    exact decodeCmd_encode c hi

/-- R102, a command without selector: its mask keeps every bit. -/
theorem and_fullMask_eq_iff {m : Word} : w &&& 0xFFFFFFFF = m ↔ w = m := by
  rw [show (0xFFFFFFFF : Word) = BitVec.allOnes 32 from rfl, BitVec.and_allOnes]

/-- R101, R102: the mask `0xFFFFF0FF` takes the selector out of a command word. -/
theorem commandWord_and_selMask (op : Byte) (sel : BitVec 4) :
    commandWord op sel &&& 0xFFFFF0FF = commandWord op 0 :=
  calc commandWord op sel &&& 0xFFFFF0FF
      = ((0 : BitVec 20) ++ sel ++ op) &&& (BitVec.allOnes 20 ++ (0 : BitVec 4) ++ BitVec.allOnes 8) := rfl
    _ = ((0 : BitVec 20) &&& BitVec.allOnes 20) ++ (sel &&& 0) ++ (op &&& BitVec.allOnes 8) := by
      rw [BitVec.and_append, BitVec.and_append]
    _ = commandWord op 0 := by
      rw [BitVec.and_allOnes, BitVec.and_allOnes, show sel &&& 0 = 0 from BitVec.and_zero]; rfl

/-- R102, a command with a selector: what its mask leaves of a word fixes bits [31:12] and OP. -/
theorem and_selMask_eq_iff {op : Byte} {sel : BitVec 4} :
    w &&& 0xFFFFF0FF = commandWord op 0 ∧ w.extractLsb' 8 4 = sel ↔ w = commandWord op sel := by
  constructor
  · rintro ⟨h, rfl⟩
    have hu : w.extractLsb' 12 20 = 0 := by
      have := congrArg (BitVec.extractLsb' 12 20) h
      rwa [BitVec.extractLsb'_and, commandWord_upper,
        show BitVec.extractLsb' 12 20 (0xFFFFF0FF : Word) = BitVec.allOnes 20 from rfl, BitVec.and_allOnes] at this
    have hop : w.extractLsb' 0 8 = op := by
      have := congrArg (BitVec.extractLsb' 0 8) h
      rwa [BitVec.extractLsb'_and, commandWord_op,
        show BitVec.extractLsb' 0 8 (0xFFFFF0FF : Word) = BitVec.allOnes 8 from rfl, BitVec.and_allOnes] at this
    rw [← hop, commandWord_fields hu]
  · rintro rfl
    exact ⟨commandWord_and_selMask op sel, commandWord_sel op sel⟩

/-- R102: match and mask of a command without selector. -/
theorem decodeCmd_iff_fullMask {i : Instr} {m : Word} (hi : i.format = .cmd) (he : encode .atReset i = m) :
    decodeCmd w = .ok i ↔ w &&& 0xFFFFFFFF = m := by
  rw [decodeCmd_eq_ok_iff .atReset hi, he, and_fullMask_eq_iff]

/-- R102: match and mask of a command with a selector. -/
theorem decodeCmd_iff_selMask {i : Instr} {sel : BitVec 4} (op : Byte) {m : Word} (hi : i.format = .cmd)
    (he : encode .atReset i = commandWord op sel) (hm : commandWord op 0 = m) :
    decodeCmd w = .ok i ↔ w &&& 0xFFFFF0FF = m ∧ w.extractLsb' 8 4 = sel := by
  rw [decodeCmd_eq_ok_iff .atReset hi, he, ← hm, and_selMask_eq_iff]

/-- R103 step 1: bits [31:12] set, or an OP of no command. -/
theorem decodeCmd_badOpcode (h : w.extractLsb' 12 20 ≠ 0 ∨
    (7 < (w.extractLsb' 0 8).toNat ∧ (w.extractLsb' 0 8).toNat ≠ 0x0F)) : decodeCmd w = .error .badOpcode := by
  unfold decodeCmd
  by_cases hu : w.extractLsb' 12 20 = 0
  · obtain ⟨h7, h15⟩ := h.resolve_left (not_not_intro hu)
    simp only [hu, ne_eq, not_true, if_false]
    split
    case h_10 => rfl
    all_goals omega
  · exact if_pos hu

/-- R103 step 2: a command without selector, its SEL not 0. -/
theorem decodeCmd_badSelector (hu : w.extractLsb' 12 20 = 0)
    (hop : (w.extractLsb' 0 8).toNat = 0 ∨ (4 ≤ (w.extractLsb' 0 8).toNat ∧ (w.extractLsb' 0 8).toNat ≤ 7) ∨
      (w.extractLsb' 0 8).toNat = 0x0F)
    (hs : w.extractLsb' 8 4 ≠ 0) : decodeCmd w = .error .badSelector := by
  have hcases : (w.extractLsb' 0 8).toNat = 0 ∨ (w.extractLsb' 0 8).toNat = 4 ∨ (w.extractLsb' 0 8).toNat = 5 ∨
      (w.extractLsb' 0 8).toNat = 6 ∨ (w.extractLsb' 0 8).toNat = 7 ∨ (w.extractLsb' 0 8).toNat = 0x0F := by omega
  unfold decodeCmd
  simp only [hu, ne_eq, not_true, if_false]
  rcases hcases with h | h | h | h | h | h <;> rw [h] <;> exact if_neg hs

/-- R101: the commands with a selector keep it, every value of it. -/
theorem decodeCmd_selector (hu : w.extractLsb' 12 20 = 0) (h1 : 1 ≤ (w.extractLsb' 0 8).toNat)
    (h3 : (w.extractLsb' 0 8).toNat ≤ 3) :
    decodeCmd w = .ok (.build (w.extractLsb' 8 4)) ∨ decodeCmd w = .ok (.decode (w.extractLsb' 8 4)) ∨
      decodeCmd w = .ok (.rdbit (w.extractLsb' 8 4)) := by
  have hcases : (w.extractLsb' 0 8).toNat = 1 ∨ (w.extractLsb' 0 8).toNat = 2 ∨ (w.extractLsb' 0 8).toNat = 3 := by
    omega
  unfold decodeCmd
  simp only [hu, ne_eq, not_true, if_false]
  rcases hcases with h | h | h <;> rw [h]
  · exact .inl rfl
  · exact .inr (.inl rfl)
  · exact .inr (.inr rfl)

end

/-- Settles O7: a word decodes to a command exactly when it is the command's word, and the masks of R102 say so too. -/
theorem commandWords : Obligations.CommandWords := by
  intro w sel
  refine ⟨?nop, ?build, ?decode, ?rdbit, ?rstart, ?rstep, ?rrun, ?paldec, ?sreset⟩
  case build => exact decodeCmd_iff_selMask 1 rfl rfl rfl
  case decode => exact decodeCmd_iff_selMask 2 rfl rfl rfl
  case rdbit => exact decodeCmd_iff_selMask 3 rfl rfl rfl
  all_goals exact decodeCmd_iff_fullMask rfl rfl

end Sys2Proof

namespace Sys2Proof.Machine

/-! Commands: what decides whether they execute. -/

section
variable {s : State} {i : Instr} {w : Word}

/-- A fault of the interface whose `FADDR` is the word written (R103). -/
theorem raise_word {c : Cause} (h : s.fault.kind = 0) :
    raise c noUnit w.toNat s = s.faultedWith c.kind c.sub 15 w := by
  rw [raise_eq_faultedWith h, BitVec.ofNat_toNat, BitVec.setWidth_eq]; rfl

/-- A selector the spec admits (R102) is that of a role. -/
theorem exists_role_of_selectorOk {sel : BitVec 4} (h : selectorOk sel = true) : ∃ t : Role, sel = t.sel := by
  rcases Role.sel_cases sel with ht | ⟨-, hlt⟩
  · exact ht
  · exact absurd (of_decide_eq_true h) (Nat.not_le.2 hlt)

/-- The body of a command with a selector is issued where the selector is good. -/
theorem exec_eq_issue_of_issueSel {sel : BitVec 4} {l : Role → Bool} {b : Role → State → Run Unit}
    (he : exec i s = issueSel i sel l b s) (hw : selectorOk sel = true)
    (hl : ∀ t : Role, sel = t.sel → (l t = true ↔ CommandLegal s i)) :
    ∃ ok body, exec i s = issue i ok body s ∧ (ok = true ↔ CommandLegal s i) := by
  obtain ⟨t, rfl⟩ := exists_role_of_selectorOk hw
  exact ⟨_, _, he.trans issueSel_sel, hl t rfl⟩

/-- R275: every command but `NOP` and `SRESET` is issued under its condition. -/
theorem exec_eq_issue (hi : i.format = .cmd) (hw : i.wellFormed = true) (hn : i ≠ .nop) (hr : i ≠ .sreset) :
    ∃ ok body, exec i s = issue i ok body s ∧ (ok = true ↔ CommandLegal s i) := by
  cases i with
  | nop => exact absurd rfl hn
  | sreset => exact absurd rfl hr
  | build sel => exact exec_eq_issue_of_issueSel rfl hw fun _ _ => by simp [CommandLegal]
  | decode sel => exact exec_eq_issue_of_issueSel rfl hw fun t ht => by simp [CommandLegal, ht]
  | rdbit sel => exact exec_eq_issue_of_issueSel rfl hw fun _ _ => by simp [CommandLegal]
  | rstart =>
    exact ⟨_, _, rfl, by cases hl : s.ctrl.layout <;> simp [CommandLegal, sessionTreesValid, hl, and_assoc]⟩
  | rstep => exact ⟨_, _, rfl, by simp [CommandLegal]⟩
  | rrun => exact ⟨_, _, rfl, by simp [CommandLegal]⟩
  | paldec => exact ⟨_, _, rfl, by cases hm : s.ctrl.palMode <;> simp [CommandLegal, paletteTreeValid, hm]⟩
  | _ => cases hi

/-- R103 step 3, R275: a command whose condition fails raises BadState with its word, and changes nothing else. -/
theorem exec_of_not_legal (hk : s.fault.kind = 0) (hi : i.format = .cmd) (hw : i.wellFormed = true)
    (hl : ¬ CommandLegal s i) : exec i s = .next (s.faultedWith 5 3 15 (encode .atReset i)) := by
  have hn : i ≠ .nop := by rintro rfl; exact hl trivial
  have hr : i ≠ .sreset := by rintro rfl; exact hl trivial
  obtain ⟨ok, body, he, hok⟩ := exec_eq_issue (s := s) hi hw hn hr
  have hfalse : ok = false := Bool.eq_false_iff.2 (mt hok.1 hl)
  rw [he, hfalse, issue_of_illegal hk, raise_word hk]; rfl

/-! Words written to `CMD`. -/

theorem regWrite_cmd (hk : s.fault.kind = 0) : regWrite 0x05 w s = commandWrite w s := by
  rw [regWrite, if_neg (by simp [(State.not_faulted_iff s).2 hk])]; rfl

theorem regWrite_cmd_ok (hk : s.fault.kind = 0) (h : decodeCmd w = .ok i) : regWrite 0x05 w s = exec i s := by
  rw [regWrite_cmd hk, commandWrite, decode, h]

theorem regWrite_cmd_badOpcode (hk : s.fault.kind = 0) (h : decodeCmd w = .error .badOpcode) :
    regWrite 0x05 w s = .next (s.faultedWith 5 1 15 w) := by
  rw [regWrite_cmd hk, commandWrite, decode, h]
  exact congrArg _ (raise_word hk)

theorem regWrite_cmd_badSelector (hk : s.fault.kind = 0) (h : decodeCmd w = .error .badSelector) :
    regWrite 0x05 w s = .next (s.faultedWith 5 2 15 w) := by
  rw [regWrite_cmd hk, commandWrite, decode, h]
  exact congrArg _ (raise_word hk)

/-- R103 step 2: a selector above 4 names no stream, and the command itself refuses it. -/
theorem regWrite_cmd_selector_above (hk : s.fault.kind = 0) (hu : w.extractLsb' 12 20 = 0)
    (h1 : 1 ≤ (w.extractLsb' 0 8).toNat) (h3 : (w.extractLsb' 0 8).toNat ≤ 3) (hs : 4 < (w.extractLsb' 8 4).toNat) :
    regWrite 0x05 w s = .next (s.faultedWith 5 2 15 w) := by
  have hnone : Role.ofSel (w.extractLsb' 8 4) = none := by
    rcases Role.sel_cases (w.extractLsb' 8 4) with ⟨t, ht⟩ | ⟨hn, -⟩
    · rw [ht] at hs; cases t <;> exact absurd hs (by decide)
    · exact hn
  have refuses : ∀ {j l b}, decodeCmd w = .ok j → exec j s = issueSel j (w.extractLsb' 8 4) l b s →
      regWrite 0x05 w s = .next (s.faultedWith 5 2 15 w) := by
    intro j l b hj he
    rw [regWrite_cmd_ok hk hj, he, issueSel_none hk hnone, encode_of_decodeCmd hj, raise_word hk]; rfl
  rcases decodeCmd_selector hu h1 h3 with h | h | h
  · exact refuses h rfl
  · exact refuses h rfl
  · exact refuses h rfl

end

/-- Settles O8: each clause is one of the checks of R103, in its order; with a fault recorded `regWrite` looks at the
word `SRESET` only. -/
theorem commandDecodeOrder : Obligations.CommandDecodeOrder := by
  intro s w
  refine ⟨fun hk => ⟨fun h => ?_, fun hu h1 h3 hs => ?_, fun hu hop hs => ?_, fun i hi hw he hl => ?_,
    fun i hi hw he hl => ?_⟩, fun hk he => ?_, fun hk hne => ?_⟩
  · exact regWrite_cmd_badOpcode hk (decodeCmd_badOpcode h)
  · exact regWrite_cmd_selector_above hk hu h1 h3 hs
  · exact regWrite_cmd_badSelector hk (decodeCmd_badSelector hu hop hs)
  · have hd : decodeCmd w = .ok i := (decodeCmd_eq_ok_iff _ hi).2 he
    rw [regWrite_cmd_ok hk hd, exec_of_not_legal hk hi hw hl, encode_of_decodeCmd hd]
  · exact regWrite_cmd_ok hk ((decodeCmd_eq_ok_iff _ hi).2 he)
  · rw [regWrite, if_pos ((State.faulted_iff s).2 hk)]
    exact if_pos ⟨rfl, he⟩
  · rw [regWrite, if_pos ((State.faulted_iff s).2 hk)]
    exact if_neg fun h => hne h.2

end Sys2Proof.Machine
end

section
/-! SUPPORT. `DECODE` of the code word that comes next (R165, R166). -/

namespace Sys2Proof.Machine

/-- R275: `DECODE` of a valid tree runs outside a session. -/
theorem exec_decode_of_valid {s : State} {t : Role} (hk : s.fault.kind = 0) (hr : s.rstate ≠ .run)
    (hv : (s.tree.get t).valid = true) : exec (.decode t.sel) s = (decodeBody t s).outcome := by
  have hl : (s.rstate != .run && (s.tree.get t).valid) = true := by simp [hr, hv]
  show issueSel (.decode t.sel) t.sel (fun t => s.rstate != .run && (s.tree.get t).valid) decodeBody s = _
  rw [issueSel_sel, hl, issue_of_legal hk]

/-- R166: the next symbol of a stream goes to `RESULT`. -/
theorem NextSymbol.decodeBody {s : State} {t : Role} {v : Byte} {n : Nat} (h : NextSymbol s t v n) :
    decodeBody t s = .ok () { s.skipBits t n with result := v } := by
  rw [Machine.decodeBody, h.decode, Run.bind_ok]

/-- Settles O32: the code word is the next symbol of the stream, and `DECODE` keeps it in `RESULT`. -/
theorem decodeReturnsSymbol : Obligations.DecodeReturnsSymbol := by
  intro s t tr p v hk hr ht hf hs
  have hnext : NextSymbol s t v p.length := ⟨tr, p, ht, hf, rfl, hs⟩
  rw [exec_decode_of_valid hk hr ht.1, hnext.decodeBody]
  rfl

end Sys2Proof.Machine
end

section
/-! SUPPORT. `RDBIT` (R142): the three checks of R141 decide what `read_bit` answers, and nothing it reads or writes is
another cursor's (R143). -/

namespace Sys2Proof.Machine

section
variable {s : State} {c d : Role} {x : Cursor} {k u : BitVec 4}

/-! `read_bit` by the fault of R141. -/

/-- R141: the first check that fails is what `read_bit` records. -/
theorem readBit_of_bitFault (hk : s.fault.kind = 0) (h : bitFault s c (s.cur.get c).off.toNat = some (k, u)) :
    readBit c s = .halt (s.faultedWith k u (streamUnit c) (s.cur.get c).off) := by
  have recorded : ∀ {e : Cause}, e.kind = k → e.sub = u →
      (Run.raise e (streamUnit c) (s.cur.get c).off.toNat s : Run Bool) =
        .halt (s.faultedWith k u (streamUnit c) (s.cur.get c).off) := by
    rintro e rfl rfl
    rw [Run.raise, raise_eq_faultedWith hk, BitVec.ofNat_toNat, BitVec.setWidth_eq]
  unfold bitFault at h
  unfold readBit
  simp only
  split at h
  · cases h; rw [if_pos ‹_›]; exact recorded rfl rfl
  · rw [if_neg ‹_›]
    split at h
    · cases h; rw [if_pos ‹_›]; exact recorded rfl rfl
    · rw [if_neg ‹_›]
      split at h
      · cases h; rw [if_pos ‹_›]; exact recorded rfl rfl
      · cases h

/-- R141: the bit can be read where all three checks pass. -/
theorem bitFault_eq_none_iff {o : Nat} : bitFault s c o = none ↔
    o < 8 * (s.cur.get c).len.toNat ∧ (s.cur.get c).base.toNat + o / 8 < s.cfg.pmemBytes ∧
      o < (s.cur.get c).lim.toNat := by
  unfold bitFault
  split_ifs <;> simp <;> omega

theorem readBit_of_no_bitFault (h : bitFault s c (s.cur.get c).off.toNat = none) :
    readBit c s = .ok (pmemBit s.pmem (s.cur.get c).base.toNat (s.cur.get c).off.toNat) (s.skipBits c 1) := by
  obtain ⟨h1, h2, h3⟩ := bitFault_eq_none_iff.1 h
  exact readBit_ok h1 h2 h3

theorem State.skipBits_one (s : State) (c : Role) :
    s.skipBits c 1 = s.setCur c { s.cur.get c with off := (s.cur.get c).off + 1 } := by
  rw [State.skipBits, BitVec.ofNat_add, BitVec.ofNat_toNat, BitVec.setWidth_eq]; rfl

/-- R75 with R142: the byte `RESULT` gets from a bit of PMEM, as a number. -/
theorem resultByte_pmemBit (m : List Host.Cell) (base o : Nat) :
    (BitVec.ofBool (pmemBit m base o)).setWidth 8 =
      BitVec.ofNat 8 ((Memory.read m (base + o / 8)).toNat / 2 ^ (7 - o % 8) % 2) := by
  have hbyte : ∀ b : Bool, (BitVec.ofBool b).setWidth 8 = BitVec.ofNat 8 b.toNat := by decide
  rw [hbyte, pmemBit, BitVec.getLsbD, Nat.toNat_testBit]

/-! The command. -/

/-- R275: `RDBIT` runs outside a session. -/
theorem exec_rdbit_of_not_run (hk : s.fault.kind = 0) (hr : s.rstate ≠ .run) :
    exec (.rdbit c.sel) s = (rdbitBody c s).outcome := by
  have hl : (s.rstate != .run) = true := by simp [hr]
  show issueSel (.rdbit c.sel) c.sel (fun _ => s.rstate != .run) rdbitBody s = _
  rw [issueSel_sel, hl, issue_of_legal hk]

/-- R275: in a session `RDBIT` raises BadState with its word. -/
theorem exec_rdbit_of_run (hk : s.fault.kind = 0) (hr : s.rstate = .run) :
    exec (.rdbit c.sel) s = .next (s.faultedWith 5 3 15 (encode .atReset (.rdbit c.sel))) :=
  exec_of_not_legal hk rfl (by cases c <;> rfl) fun hl => hl hr

theorem exec_rdbit_of_bitFault (hk : s.fault.kind = 0) (hr : s.rstate ≠ .run)
    (h : bitFault s c (s.cur.get c).off.toNat = some (k, u)) :
    exec (.rdbit c.sel) s = .next (s.faultedWith k u (streamUnit c) (s.cur.get c).off) := by
  rw [exec_rdbit_of_not_run hk hr, rdbitBody, readBit_of_bitFault hk h, Run.bind_halt, Run.outcome_halt]

theorem exec_rdbit_of_no_bitFault (hk : s.fault.kind = 0) (hr : s.rstate ≠ .run)
    (h : bitFault s c (s.cur.get c).off.toNat = none) :
    exec (.rdbit c.sel) s = .next
      { s.skipBits c 1 with
        result := (BitVec.ofBool (pmemBit s.pmem (s.cur.get c).base.toNat (s.cur.get c).off.toNat)).setWidth 8 } := by
  rw [exec_rdbit_of_not_run hk hr, rdbitBody, readBit_of_no_bitFault h, Run.bind_ok, Run.outcome_ok]

/-! Another cursor set. -/

theorem State.setCur_get_ne (h : c ≠ d) : (s.setCur d x).cur.get c = s.cur.get c := PerRole.get_set_ne _ h x

/-- The checks of one cursor do not look at another. -/
theorem bitFault_setCur_ne (h : c ≠ d) (o : Nat) : bitFault (s.setCur d x) c o = bitFault s c o := by
  unfold bitFault
  rw [State.setCur_get_ne h, State.setCur_cfg]

theorem State.skipBits_setCur_ne (h : c ≠ d) (n : Nat) :
    (s.setCur d x).skipBits c n = (s.skipBits c n).setCur d x := by
  unfold State.skipBits
  rw [State.setCur_get_ne h]
  unfold State.setCur
  rw [PerRole.set_comm _ h.symm]

end

/-- Settles O21: `read_bit` either records the fault of R141 or answers the bit, which lies at `7 - (off & 7)`. -/
theorem rdbitReadsOneBit : Obligations.RdbitReadsOneBit := by
  intro s c hk hr
  refine ⟨fun k u h => exec_rdbit_of_bitFault hk hr h, fun h => ⟨?_, ?_⟩⟩
  · obtain ⟨-, -, hlim⟩ := bitFault_eq_none_iff.1 h
    exact Nat.lt_of_le_of_lt hlim (s.cur.get c).lim.isLt
  · rw [exec_rdbit_of_no_bitFault hk hr h, State.skipBits_one, resultByte_pmemBit]
    rfl

/-- Settles O22: in each of the three outcomes of `RDBIT c` (refused in a session, a fault of R141, a bit) setting
cursor `d` changes neither which outcome it is nor what it records. -/
theorem cursorsIndependent : Obligations.CursorsIndependent := by
  intro s t c d x hcd hk ht
  by_cases hr : s.rstate = .run
  · rw [exec_rdbit_of_run hk hr] at ht
    cases ht
    exact ⟨exec_rdbit_of_run (s := s.setCur d x) hk hr, rfl⟩
  · have hget : (s.setCur d x).cur.get c = s.cur.get c := State.setCur_get_ne hcd
    have hfault : bitFault (s.setCur d x) c ((s.setCur d x).cur.get c).off.toNat =
        bitFault s c (s.cur.get c).off.toNat := by rw [hget, bitFault_setCur_ne hcd]
    cases h : bitFault s c (s.cur.get c).off.toNat with
    | some ku =>
      rw [exec_rdbit_of_bitFault hk hr h] at ht
      cases ht
      refine ⟨?_, rfl⟩
      rw [exec_rdbit_of_bitFault (s := s.setCur d x) hk hr (hfault.trans h), hget]
      rfl
    | none =>
      rw [exec_rdbit_of_no_bitFault hk hr h] at ht
      cases ht
      refine ⟨?_, State.skipBits_get_ne s hcd.symm 1⟩
      rw [exec_rdbit_of_no_bitFault (s := s.setCur d x) hk hr (hfault.trans h), hget, State.skipBits_setCur_ne hcd]
      rfl

end Sys2Proof.Machine
end

section
/-! SUPPORT. `BUILD` as a command (R164), and three ends of it that record a fault: no shape bit, leftovers, a tree of
one leaf (R160). -/

namespace Sys2Proof.Machine

section
variable {s : State} {t : Role} {tr : CodeTree}

/-! The command. -/

/-- R275: `BUILD` runs outside a session. -/
theorem exec_build_of_not_run (hk : s.fault.kind = 0) (hr : s.rstate ≠ .run) :
    exec (.build t.sel) s = (buildTree t s).outcome := by
  have hl : (s.rstate != .run) = true := by simp [hr]
  show issueSel (.build t.sel) t.sel (fun _ => s.rstate != .run) buildTree s = _
  rw [issueSel_sel, hl, issue_of_legal hk]

/-- A build that raises leaves the fault record of its cause and tree memory `t` as it stood. -/
theorem exec_build_of_raise {c : Cause} {a : Nat} {m : TreeMem} (hk : s.fault.kind = 0) (hr : s.rstate ≠ .run)
    (h : buildTree t s = Run.raise c (headerUnit t) a (s.setTree t m)) :
    exec (.build t.sel) s = .next ((s.setTree t m).faultedWith c.kind c.sub (headerUnit t) (BitVec.ofNat 32 a)) := by
  rw [exec_build_of_not_run hk hr, h, Run.outcome_raise]
  exact congrArg _ (raise_eq_faultedWith hk)

/-! A header with no shape bit. -/

/-- R161: a node whose shape bit does not exist. -/
theorem beginNode_of_no_bit {b : BuildWork} (hn : b.nodes ≠ nodeMax (s.hdr.get t).domain)
    (h : (s.hdr.get t).shapeBits.toNat ≤ b.hoff) :
    beginNode t b s = Run.raise .shapeExhausted (headerUnit t) b.hoff s := by
  rw [beginNode, allocNode, if_neg hn, Run.bind_ok, hdrBit, if_pos h, Run.bind_raise]

/-- R160: the root's shape bit does not exist. -/
theorem buildTree_of_no_shapeBits (h : (s.hdr.get t).shapeBits = 0) :
    buildTree t s = Run.raise .shapeExhausted (headerUnit t) 0 (clearTree t s) := by
  have hroom : BuildWork.start.nodes ≠ nodeMax (s.hdr.get t).domain := by cases (s.hdr.get t).domain <;> decide
  have hnone : (s.hdr.get t).shapeBits.toNat ≤ BuildWork.start.hoff := by rw [h]; decide
  have hroot : beginNode t .start (clearTree t s) = Run.raise .shapeExhausted (headerUnit t) 0 (clearTree t s) :=
    beginNode_of_no_bit hroom hnone
  rw [buildTree, buildLoop, buildStep, hroot, Run.bind_raise, Run.bind_raise, Run.bind_raise]

/-! A header that begins with a code tree. -/

/-- A header that is a tree's begins with it. -/
theorem HeaderHolds.begins (h : HeaderHolds s t tr) : HeaderBegins s t tr := by
  obtain ⟨hbits, hcount, hrest⟩ := h
  exact ⟨hbits.ge, hcount.ge, hrest⟩

/-- The beginning of the header's shape bits as the build reads them. -/
theorem HeaderBegins.shapeFrom (h : HeaderBegins s t tr) : ShapeFrom s t 0 tr.shape := by
  intro j hj
  rw [CodeTree.shape_length] at hj
  obtain ⟨hbits, -, hread, -⟩ := h
  rw [Nat.zero_add]
  exact ⟨by omega, hread j hj⟩

/-- The beginning of the header's permutation as the build reads it. -/
theorem HeaderBegins.permFrom (h : HeaderBegins s t tr) : PermFrom s t 0 tr.leaves := by
  intro j hj
  obtain ⟨-, hcount, -, hread, -, hnibble⟩ := h
  obtain ⟨hmem, hval⟩ := hread j hj
  rw [Nat.zero_add]
  exact ⟨by omega, hmem, hval, fun hd => hnibble hd _ (List.mem_of_getElem? hval)⟩

/-- The values of a build at the moment its tree has closed. -/
def BuildWork.closing (tr : CodeTree) : BuildWork := { BuildWork.start.after tr with closed := true }

/-- Tree memory once a tree's nodes are stored, before the checks at the end of the build. -/
def TreeMem.unchecked (tr : CodeTree) : TreeMem := { nodes := tr.store 0 [], count := 0, valid := false }

/-- R160: the build of a header that begins with a tree comes to its end with that tree stored; the checks there
decide. -/
theorem HeaderBegins.buildTree_eq (h : HeaderBegins s t tr) :
    buildTree t s = finishBuild t (.closing tr) (s.setTree t (.unchecked tr)) := by
  obtain ⟨-, -, -, -, hsz, -⟩ := id h
  obtain ⟨n, hn⟩ : ∃ n, nodeMax (s.hdr.get t).domain + 1 = tr.size + n :=
    ⟨nodeMax (s.hdr.get t).domain + 1 - tr.size, by omega⟩
  have hloop := buildLoop_tree (t := t) (n := n) (b := .start) (s := clearTree t s) rfl
    (show 0 + tr.size ≤ _ by rw [Nat.zero_add]; exact hsz) h.shapeFrom h.permFrom
  have hstored : (clearTree t s).withNodes t (tr.store 0 ((clearTree t s).tree.get t).nodes) =
      s.setTree t (.unchecked tr) := by
    simp [clearTree, State.withNodes, State.setTree_setTree, TreeMem.unchecked]
  rw [buildTree, hn, hloop, ← hstored]
  rfl

/-- R160: bits or entries left over. -/
theorem HeaderBegins.buildTree_leftover (h : HeaderBegins s t tr)
    (hover : tr.size < (s.hdr.get t).shapeBits.toNat ∨ tr.leaves.length < (s.hdr.get t).permCount.toNat) :
    buildTree t s = Run.raise .trailingHeader (headerUnit t) tr.size (s.setTree t (.unchecked tr)) := by
  have hne : 0 + tr.size ≠ (s.hdr.get t).shapeBits.toNat ∨
      0 + tr.leaves.length ≠ (s.hdr.get t).permCount.toNat := by omega
  rw [h.buildTree_eq, finishBuild]
  refine (if_pos hne).trans ?_
  show Run.raise _ _ (0 + tr.size) _ = _
  rw [Nat.zero_add]

/-- R160: a tree of one leaf that the header describes exactly. -/
theorem HeaderHolds.buildTree_leaf {v : Byte} (h : HeaderHolds s t (.leaf v)) :
    buildTree t s = Run.raise .singleLeaf (headerUnit t) 1 (s.setTree t (.unchecked (.leaf v))) := by
  have hall : ¬ (1 ≠ (s.hdr.get t).shapeBits.toNat ∨ 1 ≠ (s.hdr.get t).permCount.toNat) := by
    obtain ⟨hbits, hcount, -⟩ := h
    rw [hbits, hcount]; simp [CodeTree.size, CodeTree.leaves]
  rw [h.begins.buildTree_eq, finishBuild]
  exact (if_neg hall).trans (if_pos rfl)

end

/-- Settles O26: the first shape bit is missing, or the tree closes and one of the two checks at the build's end
fails. -/
theorem buildCornerFaults : Obligations.BuildCornerFaults := by
  intro s t hk hr
  refine ⟨fun h => ?_, fun tr h hover => ?_, fun v h => ?_⟩
  · exact ⟨_, rfl, rfl, exec_build_of_raise hk hr (buildTree_of_no_shapeBits h)⟩
  · exact ⟨_, rfl, rfl, exec_build_of_raise hk hr (h.buildTree_leftover hover)⟩
  · exact ⟨_, rfl, rfl, exec_build_of_raise hk hr h.buildTree_leaf⟩

end Sys2Proof.Machine
end

section
/-! SUPPORT. How far `DECODE` moves its cursor (R168). -/

namespace Sys2Proof.Machine

/-- Cursor `c` of `u` is at most `n` bits past that of `s`. -/
def OffWithin (s : State) (c : Role) (n : Nat) (u : State) : Prop :=
  (u.cur.get c).off.toNat ≤ (s.cur.get c).off.toNat + n

theorem OffWithin.skipBits {s : State} {c : Role} {m n : Nat} (h : m ≤ n) : OffWithin s c n (s.skipBits c m) := by
  rw [OffWithin, State.skipBits_get_self, BitVec.toNat_ofNat]
  exact (Nat.mod_le _ _).trans (Nat.add_le_add_left h _)

theorem OffWithin.raise {s u : State} {c : Role} {n a : Nat} {k : Cause} {w : BitVec 4} (h : OffWithin s c n u) :
    OffWithin s c n (raise k w a u) := by
  rw [OffWithin, raise_cur]; exact h

section
variable {s u : State} {t : Role}

/-- R168: on a valid tree memory of `n` nodes `decode` takes at most `(n - 1) / 2` bits, whether it ends with a symbol
or with a fault. -/
theorem decodeSymbol_offWithin (ht : TreeOk (s.tree.get t)) (hv : (s.tree.get t).valid = true) :
    (decodeSymbol t s).Meets (fun _ => OffWithin s t (((s.tree.get t).count.toNat - 1) / 2))
      (OffWithin s t (((s.tree.get t).count.toNat - 1) / 2)) (fun _ => False) := by
  obtain ⟨l, r, hz, hcount, hl⟩ := ht.valid hv
  refine (decodeSymbol_cases hl hz).mono ?_ ?_ (fun _ h => h)
  · rintro v u ⟨p, hf, -, rfl⟩
    have hlen := CodeTree.follow_length hf
    exact .skipBits (by omega)
  · rintro u ⟨p, k, hin, -, -, rfl⟩
    have hlen := CodeTree.inside_length hin
    exact .raise (.skipBits (by omega))

/-- R166: keeping the symbol in `RESULT` moves no cursor. -/
theorem decodeBody_offWithin (ht : TreeOk (s.tree.get t)) (hv : (s.tree.get t).valid = true) :
    (decodeBody t s).Meets (fun _ => OffWithin s t (((s.tree.get t).count.toNat - 1) / 2))
      (OffWithin s t (((s.tree.get t).count.toNat - 1) / 2)) (fun _ => False) :=
  Run.Meets.bind (decodeSymbol_offWithin ht hv)

/-- R26: a tree memory counts at most 511 nodes. -/
theorem TreeOk.count_le {m : TreeMem} (h : TreeOk m) : m.count.toNat ≤ 511 := by
  cases hv : m.valid with
  | false => rw [h.invalid hv]; decide
  | true => obtain ⟨l, r, hz, hcount, -⟩ := h.valid hv; omega

/-- Everything `DECODE t` can answer: with a fault recorded or where it is not legal the cursors are as before. -/
theorem exec_decode_cases (h : exec (.decode t.sel) s = .next u) :
    u.cur = s.cur ∨ ((s.tree.get t).valid = true ∧ (decodeBody t s).outcome = .next u) := by
  have hi : issue (.decode t.sel) (s.rstate != .run && (s.tree.get t).valid) (decodeBody t) s = .next u :=
    issueSel_sel.symm.trans h
  obtain ⟨-, he⟩ | ⟨-, -, he⟩ | ⟨-, hl, he⟩ := issue_cases hi
  · cases he; exact .inl rfl
  · cases he; exact .inl (raise_cur _ _ _ _)
  · exact .inr ⟨(Bool.and_eq_true_iff.1 hl).2, he.symm⟩

/-- R168: how far `DECODE t` moves its cursor, whatever it answers. -/
theorem exec_decode_offWithin (ht : TreeOk (s.tree.get t)) (h : exec (.decode t.sel) s = .next u) :
    OffWithin s t (((s.tree.get t).count.toNat - 1) / 2) u := by
  obtain hsame | ⟨hv, hbody⟩ := exec_decode_cases h
  · rw [OffWithin, hsame]; exact Nat.le_add_right _ _
  · obtain ⟨-, -, hle⟩ | ⟨-, hle⟩ := (decodeBody_offWithin ht hv).of_next hbody
    · exact hle
    · exact hle

end

/-- Settles O34: a path of the tree is at most `(n - 1) / 2` bits long, and `n` is at most 511. -/
theorem decodeBound : Obligations.DecodeBound := by
  intro s u t ht h
  have hle : (u.cur.get t).off.toNat ≤ (s.cur.get t).off.toNat + ((s.tree.get t).count.toNat - 1) / 2 :=
    exec_decode_offWithin ht h
  have hcount := ht.count_le
  exact ⟨hle, by omega⟩

end Sys2Proof.Machine
end

section
/-! SUPPORT. `BUILD` and then `DECODE` again and again (R169). -/

namespace Sys2Proof.Machine

section
variable {s : State} {t : Role} {tr : CodeTree} {codes : List (List Bool × Byte)}

/-- R163: the tree that a build stores is held by tree memory `t`. -/
theorem HeaderHolds.treeHolds_built (h : HeaderHolds s t tr) (h1 : 1 < tr.size) : TreeHolds (s.built t tr) t tr := by
  obtain ⟨-, -, -, -, hsz, -⟩ := h
  have hget : (s.built t tr).tree.get t = { nodes := tr.store 0 [], count := BitVec.ofNat 10 tr.size, valid := true } :=
    PerRole.get_set_self _ _ _
  rw [TreeHolds, hget]
  exact ⟨rfl, h1, hsz.trans (nodeMax_le _), tr.laidAt_store 0 []⟩

/-- R164: `BUILD` of a header that describes a tree of at least two leaves. -/
theorem HeaderHolds.exec_build (h : HeaderHolds s t tr) (h1 : 1 < tr.size) (hk : s.fault.kind = 0)
    (hr : s.rstate ≠ .run) : exec (.build t.sel) s = .next (s.built t tr) := by
  rw [exec_build_of_not_run hk hr, buildTree_ok h h1, Run.outcome_ok]

/-- R169: one `DECODE` for each code word, on a tree memory that holds the tree. -/
theorem TreeHolds.decodesTo (ht : TreeHolds s t tr) (hc : CodesOf tr codes) (hs : StreamHolds s t (codeBits codes))
    (hk : s.fault.kind = 0) (hr : s.rstate ≠ .run) :
    ∃ u, DecodesTo t s (codes.map Prod.snd) u ∧
      (u.cur.get t).off.toNat = (s.cur.get t).off.toNat + (codes.map fun x => x.1.length).sum ∧ u.fault.kind = 0 := by
  induction codes generalizing s with
  | nil => exact ⟨s, rfl, rfl, hk⟩
  | cons x codes ih =>
    obtain ⟨hx, hcodes⟩ := List.forall_mem_cons.1 hc
    obtain ⟨hfirst, hrest⟩ : StreamHolds s t x.1 ∧ StreamHolds (s.skipBits t x.1.length) t (codeBits codes) :=
      hs.append
    have hoff : ((s.skipBits t x.1.length).cur.get t).off.toNat = (s.cur.get t).off.toNat + x.1.length := by
      rw [State.skipBits_get_self, BitVec.toNat_ofNat, Nat.mod_eq_of_lt hfirst.off_lt]
    obtain ⟨u, hu, hend, hku⟩ := ih (s := { s.skipBits t x.1.length with result := x.2 }) ht hcodes hrest hk hr
    refine ⟨u, ⟨_, decodeReturnsSymbol s t tr x.1 x.2 hk hr ht hx hfirst, rfl, hu⟩, ?_, hku⟩
    rw [hend, List.map_cons, List.sum_cons, ← Nat.add_assoc, ← hoff]

end

/-- Settles O35: `BUILD` stores the header's tree and touches neither stream nor session, and the `DECODE`s follow by
induction over the code words. -/
theorem roundTrip : Obligations.RoundTrip := by
  intro s t tr codes hk hr hh h1 hc hs
  obtain ⟨u, hu, hoff, hku⟩ := (hh.treeHolds_built h1).decodesTo hc hs hk hr
  exact ⟨_, u, hh.exec_build h1 hk hr, hu, hoff, hku⟩

end Sys2Proof.Machine
end

section
/-! SUPPORT. `RSTART` (R191). -/

namespace Sys2Proof.Machine

section
variable {s : State}

/-- R275: a legal `RSTART` runs. -/
theorem exec_rstart_of_legal (hk : s.fault.kind = 0) (hl : CommandLegal s .rstart) :
    exec .rstart s = (rstartBody s).outcome := by
  obtain ⟨hr, h1, h2, h3, h4⟩ := hl
  have ht : (s.rstate != .run && sessionTreesValid s) = true := by
    cases hq : s.ctrl.layout with
    | quad => simp [sessionTreesValid, hr, h1, h2, h3, hq, h4 hq]
    | delta => simp [sessionTreesValid, hr, h1, h2, h3, hq]
  show issue .rstart (s.rstate != .run && sessionTreesValid s) rstartBody s = _
  rw [ht, issue_of_legal hk]

/-- R191: a raster within `RASTER_MAX`. -/
theorem rstartBody_of_le (h : s.width.toNat * s.height.toNat ≤ s.cfg.rasterMax) :
    rstartBody s = .ok () { s with
      rbuf := [], npix := BitVec.ofNat 32 (s.width.toNat * s.height.toNat), bufpos := 0, lasttok := 0, lastoff := 0,
      rstate := if s.width.toNat * s.height.toNat = 0 then .done else .run } := if_neg (Nat.not_lt.2 h)

/-- R191: a raster larger than `RASTER_MAX`. -/
theorem rstartBody_of_lt (h : s.cfg.rasterMax < s.width.toNat * s.height.toNat) :
    rstartBody s = Run.raise .allocationFailure noUnit (s.width.toNat * s.height.toNat) s := if_pos h

end

/-- Settles O36: the command's condition and the size of the raster decide which of the three it is. -/
theorem rstartOpensSession : Obligations.RstartOpensSession := by
  intro s hk
  refine ⟨fun hl hle => ⟨[], ?_⟩, fun hl hlt => ?_, fun hl => ?_⟩
  · rw [exec_rstart_of_legal hk hl, rstartBody_of_le hle, Run.outcome_ok]
  · rw [exec_rstart_of_legal hk hl, rstartBody_of_lt hlt, Run.outcome_raise, raise_eq_faultedWith hk]
    rfl
  · exact exec_of_not_legal hk rfl rfl hl

end Sys2Proof.Machine
end

section
/-! SUPPORT. A token as an operation of its own (R195 to R199): what a literal, a fill and a copy write, and which check
raises where one fails. -/

namespace Sys2Proof.Machine

/-- R195 from the latch on, for the tuple of a token. -/
def TokenView.run (k : TokenView) (s : State) : Run Unit := runToken k.dy k.dx k.runlen k.value k.offset s

section
variable {s : State} {i : Instr} {k : TokenView}

/-- A token instruction runs the tuple it stands for. -/
theorem exec_of_tokenView (hk : s.fault.kind = 0) (hi : tokenView s.width i = some k) :
    exec i s = (k.run s).outcome := by
  have hd : exec i s = dataOp k.run s := by
    cases i with
    | litDelta v => cases hi; rfl
    | fillDelta n v => cases hi; rfl
    | copyDelta d n v => cases hi; rfl
    | litQuad dy dx v => cases hi; rfl
    | fillQuad dy dx n v => cases hi; rfl
    | copyQuad dy dx n v => cases hi; rfl
    | _ => cases hi
  rw [hd, dataOp_of_none hk]

/-- A token whose check fails at `BUFPOS` leaves the latches and the fault record. -/
theorem exec_of_tokenView_raise {c : Cause} {u : BitVec 4} (hk : s.fault.kind = 0)
    (hi : tokenView s.width i = some k) (h : k.run s = Run.raise c u s.bufpos.toNat (s.latched k)) :
    exec i s = .next ((s.latched k).faultedWith c.kind c.sub u s.bufpos) := by
  rw [exec_of_tokenView hk hi, h, Run.outcome_raise, raise_eq_faultedWith (s := s.latched k) hk, BitVec.ofNat_toNat,
    BitVec.setWidth_eq]

/-! The classes of tokens (R195, R113). -/

theorem TokenView.run_of_value (h : 16 ≤ k.value.toNat) :
    k.run s = Run.raise .valueRange (streamUnit .val) s.bufpos.toNat (s.latched k) := if_pos h

/-- R196: one byte at `BUFPOS`. -/
theorem TokenView.run_literal (hv : k.value.toNat < 16) (h0 : k.offset = 0) (hn : k.runlen = 0) :
    k.run s = .ok () { s.latched k with
      rbuf := Memory.write s.rbuf s.bufpos.toNat k.value
      bufpos := s.bufpos + 1 } := by
  have hput : k.run s = .ok () ((s.latched k).putByte k.value) :=
    (if_neg (Nat.not_le.2 hv)).trans (if_pos ⟨h0, hn⟩)
  rw [hput, State.putByte, BitVec.ofNat_add, BitVec.ofNat_toNat, BitVec.setWidth_eq]
  rfl

theorem TokenView.run_fill (hv : k.value.toNat < 16) (h0 : k.offset = 0) (hn : k.runlen ≠ 0) :
    k.run s = applyFill k.runlen k.value (s.latched k) :=
  (if_neg (Nat.not_le.2 hv)).trans ((if_neg fun h => hn h.2).trans (if_pos h0))

/-- R197: a run that fits. -/
theorem TokenView.run_fill_of_le (hv : k.value.toNat < 16) (h0 : k.offset = 0) (hn : k.runlen ≠ 0)
    (h : s.bufpos.toNat + k.runlen.toNat ≤ s.npix.toNat) :
    k.run s = .ok () { s.latched k with
      rbuf := fillCells s.rbuf s.bufpos.toNat k.value k.runlen.toNat
      bufpos := BitVec.ofNat 32 (s.bufpos.toNat + k.runlen.toNat) } :=
  (TokenView.run_fill hv h0 hn).trans (if_neg (Nat.not_lt.2 h))

theorem TokenView.run_copy (hv : k.value.toNat < 16) (h0 : k.offset ≠ 0) :
    k.run s = applyCopy k.offset k.runlen k.value (s.latched k) :=
  (if_neg (Nat.not_le.2 hv)).trans ((if_neg fun h => h0 h.1).trans (if_neg h0))

end

section
variable {s : State} {n v : Byte} {offset : Int}

/-! Checks of a fill and of a copy (R197, R198, R200). -/

theorem applyFill_of_lt (h : s.npix.toNat < s.bufpos.toNat + n.toNat) :
    applyFill n v s = Run.raise .runOverflow (streamUnit .run) s.bufpos.toNat s := if_pos h

theorem applyCopy_of_lt (h : s.npix.toNat < s.bufpos.toNat + n.toNat) :
    applyCopy offset n v s = Run.raise .runOverflow (streamUnit .run) s.bufpos.toNat s := if_pos h

theorem applyCopy_of_neg (h : s.bufpos.toNat + n.toNat ≤ s.npix.toNat) (hn : 1 ≤ n.toNat) (ho : offset < 0) :
    applyCopy offset n v s = Run.raise .backrefNotBehind (streamUnit .dx) s.bufpos.toNat s :=
  (if_neg (Nat.not_lt.2 h)).trans (if_pos ⟨hn, ho⟩)

theorem applyCopy_of_before (h : s.bufpos.toNat + n.toNat ≤ s.npix.toNat) (hn : 1 ≤ n.toNat)
    (ho : (s.bufpos.toNat : Int) < offset) :
    applyCopy offset n v s = Run.raise .backrefBeforeStart (streamUnit .dx) s.bufpos.toNat s := by
  have hpos : ¬ (1 ≤ n.toNat ∧ offset < 0) := by omega
  exact (if_neg (Nat.not_lt.2 h)).trans ((if_neg hpos).trans (if_pos ⟨hn, ho⟩))

theorem applyCopy_ok (h : s.bufpos.toNat + n.toNat ≤ s.npix.toNat)
    (ho : 1 ≤ n.toNat → 1 ≤ offset ∧ offset ≤ s.bufpos.toNat) :
    applyCopy offset n v s = .ok () (putTrailing v (copyBytes offset n.toNat s)) := by
  have hneg : ¬ (1 ≤ n.toNat ∧ offset < 0) := by omega
  have hbefore : ¬ (1 ≤ n.toNat ∧ (s.bufpos.toNat : Int) < offset) := by omega
  exact (if_neg (Nat.not_lt.2 h)).trans ((if_neg hneg).trans (if_neg hbefore))

end

section
variable {s : State} {n a : Nat} {v : Byte} {offset : Int}

theorem copyBytes_bufpos_toNat (h : s.bufpos.toNat + n < 2 ^ 32) :
    (copyBytes offset n s).bufpos.toNat = s.bufpos.toNat + n := by
  rw [copyBytes_eq, BitVec.toNat_ofNat, Nat.mod_eq_of_lt h]

theorem copyBytes_npix : (copyBytes offset n s).npix = s.npix := by rw [copyBytes_eq]

/-- A copy writes from `BUFPOS` on only. -/
theorem read_copyBytes_outside (h : s.bufpos.toNat + n < 2 ^ 32)
    (ha : a < s.bufpos.toNat ∨ s.bufpos.toNat + n ≤ a) :
    Memory.read (copyBytes offset n s).rbuf a = Memory.read s.rbuf a := by
  induction n generalizing s with
  | zero => rfl
  | succ n ih =>
    have hp := State.putByte_bufpos_toNat (s := s) (s.behind offset) (by omega)
    rw [copyBytes, ih (by omega) (by omega), State.putByte_rbuf, Memory.read_write, if_neg (by omega)]

/-- R83: each byte of a copy is the byte `offset` behind it, as the copy has left it. -/
theorem read_copyBytes_behind (h : s.bufpos.toNat + n < 2 ^ 32) (h1 : 1 ≤ offset) (h2 : offset ≤ s.bufpos.toNat)
    (ha : s.bufpos.toNat ≤ a) (ha' : a < s.bufpos.toNat + n) :
    Memory.read (copyBytes offset n s).rbuf a = Memory.read (copyBytes offset n s).rbuf (a - offset.toNat) := by
  obtain ⟨j, rfl⟩ := Nat.exists_eq_add_of_le ha
  have hone : 1 ≤ offset.toNat := by omega
  have hstart : offset.toNat ≤ s.bufpos.toNat := by omega
  rw [read_copyBytes hone hstart h, if_pos ⟨ha, ha'⟩, Nat.add_sub_cancel_left]
  rcases Nat.lt_or_ge j offset.toNat with hj | hj
  · rw [read_copyBytes_outside h (.inl (by omega)), Nat.mod_eq_of_lt hj]
    congr 1
    omega
  · rw [read_copyBytes hone hstart h, if_pos (by omega), Nat.mod_eq_sub_mod hj]
    congr 3
    omega

/-- R198, R199: a copy with its trailing value changes the raster and `BUFPOS` only. -/
theorem putTrailing_copyBytes_eq (h : s.bufpos.toNat + n < 2 ^ 32) :
    putTrailing v (copyBytes offset n s) = { s with
      rbuf := (putTrailing v (copyBytes offset n s)).rbuf
      bufpos := BitVec.ofNat 32
        (if s.bufpos.toNat + n < s.npix.toNat then s.bufpos.toNat + n + 1 else s.bufpos.toNat + n) } := by
  unfold putTrailing
  rw [copyBytes_bufpos_toNat h, copyBytes_npix]
  split
  · rw [State.putByte, copyBytes_bufpos_toNat h, copyBytes_eq]
  · exact copyBytes_eq offset n s

theorem read_putTrailing_copyBytes (h : s.bufpos.toNat + n < 2 ^ 32) :
    Memory.read (putTrailing v (copyBytes offset n s)).rbuf a =
      if a = s.bufpos.toNat + n ∧ s.bufpos.toNat + n < s.npix.toNat then v
      else Memory.read (copyBytes offset n s).rbuf a := by
  unfold putTrailing
  rw [copyBytes_bufpos_toNat h, copyBytes_npix]
  by_cases hroom : s.bufpos.toNat + n < s.npix.toNat
  · rw [if_pos hroom, State.putByte_rbuf, Memory.read_write, copyBytes_bufpos_toNat h]
    simp [hroom]
  · rw [if_neg hroom, if_neg fun h => hroom h.2]

/-- The trailing value stands behind the copied bytes, and takes none of their places. -/
theorem read_putTrailing_copyBytes_lt (h : s.bufpos.toNat + n < 2 ^ 32) (ha : a < s.bufpos.toNat + n) :
    Memory.read (putTrailing v (copyBytes offset n s)).rbuf a = Memory.read (copyBytes offset n s).rbuf a := by
  rw [read_putTrailing_copyBytes h, if_neg (by omega)]

end

/-- Settles O37: the value decides between the check of R195 and one byte put at `BUFPOS`. -/
theorem literalToken : Obligations.LiteralToken := by
  intro s i k hk hi h0 hn
  refine ⟨fun hv => ⟨Memory.write s.rbuf s.bufpos.toNat k.value, ?_, ?_, fun a ha => ?_⟩, fun hv => ?_⟩
  · rw [exec_of_tokenView hk hi, TokenView.run_literal hv h0 hn, Run.outcome_ok]
  · rw [Memory.read_write, if_pos rfl]
  · rw [Memory.read_write, if_neg ha]
  · exact exec_of_tokenView_raise hk hi (TokenView.run_of_value hv)

/-- Settles O38: the value and the end of the run decide between the checks and the bytes of `fillCells`. -/
theorem fillToken : Obligations.FillToken := by
  intro s i k hk hi h0 hn
  refine ⟨fun hv hle => ⟨fillCells s.rbuf s.bufpos.toNat k.value k.runlen.toNat, ?_, fun a h1 h2 => ?_,
    fun a ha => ?_⟩, fun hv => ?_, fun hv hlt => ?_⟩
  · rw [exec_of_tokenView hk hi, TokenView.run_fill_of_le hv h0 hn hle, Run.outcome_ok]
  · rw [read_fillCells, if_pos ⟨h1, h2⟩]
  · rw [read_fillCells, if_neg (by omega)]
  · exact exec_of_tokenView_raise hk hi (TokenView.run_of_value hv)
  · exact exec_of_tokenView_raise hk hi ((TokenView.run_fill hv h0 hn).trans (applyFill_of_lt hlt))

/-- Settles O39: the checks of R195 and R198 in their order, then the bytes of `copyBytes` and the trailing value. -/
theorem copyToken : Obligations.CopyToken := by
  intro s i k hk hi h0
  have hpos : k.runlen ≠ 0 ↔ 1 ≤ k.runlen.toNat := by bv_omega
  refine ⟨fun hv hle ho => ?_, fun hv => ?_, fun hv => ⟨fun hlt => ?_, fun hle hn ho => ?_, fun hle hn ho => ?_⟩⟩
  · rw [hpos] at ho
    have hfit : (s.latched k).bufpos.toNat + k.runlen.toNat < 2 ^ 32 := Nat.lt_of_le_of_lt hle s.npix.isLt
    refine ⟨(putTrailing k.value (copyBytes k.offset k.runlen.toNat (s.latched k))).rbuf, _, _, rfl, rfl, ?_,
      fun a ha ha' => ?_, fun hroom => ?_, fun a ha => ?_⟩
    · rw [exec_of_tokenView hk hi, TokenView.run_copy hv h0, applyCopy_ok (s := s.latched k) hle ho, Run.outcome_ok,
        putTrailing_copyBytes_eq hfit]
      rfl
    · obtain ⟨h1, h2⟩ := ho (by omega)
      have hback : a - k.offset.toNat < s.bufpos.toNat + k.runlen.toNat := Nat.lt_of_le_of_lt (Nat.sub_le _ _) ha'
      rw [read_putTrailing_copyBytes_lt hfit ha', read_putTrailing_copyBytes_lt hfit hback]
      exact read_copyBytes_behind hfit h1 h2 ha ha'
    · rw [read_putTrailing_copyBytes hfit]
      exact if_pos ⟨rfl, hroom⟩
    · have hcopied : a < s.bufpos.toNat ∨ s.bufpos.toNat + k.runlen.toNat ≤ a := by split_ifs at ha <;> omega
      have htrailing : ¬ (a = s.bufpos.toNat + k.runlen.toNat ∧ s.bufpos.toNat + k.runlen.toNat < s.npix.toNat) := by
        split_ifs at ha <;> omega
      rw [read_putTrailing_copyBytes hfit]
      exact (if_neg htrailing).trans (read_copyBytes_outside hfit hcopied)
  · exact exec_of_tokenView_raise hk hi (TokenView.run_of_value hv)
  · exact exec_of_tokenView_raise hk hi ((TokenView.run_copy hv h0).trans (applyCopy_of_lt hlt))
  · exact exec_of_tokenView_raise hk hi ((TokenView.run_copy hv h0).trans (applyCopy_of_neg hle (hpos.1 hn) ho))
  · exact exec_of_tokenView_raise hk hi ((TokenView.run_copy hv h0).trans (applyCopy_of_before hle (hpos.1 hn) ho))

/-- Settles O40: a token writes nothing and raises, or moves `BUFPOS` on. -/
theorem tokenProgress : Obligations.TokenProgress := by
  intro s i k hk hi hp
  have hN := s.npix.isLt
  obtain ⟨t, ht, ⟨-, -, m, p, hprog, rfl⟩ | ⟨-, c, w, -, rfl⟩⟩ := (runToken_cases (dy := k.dy) (dx := k.dx)
    (runlen := k.runlen) (value := k.value) (offset := k.offset) hp).outcome
  · obtain ⟨hlater, hbound, hkept, -⟩ := hprog
    have hm : p % 2 ^ 32 = p := Nat.mod_eq_of_lt (by omega)
    refine ⟨_, (exec_of_tokenView hk hi).trans ht, fun hf => absurd hk hf, fun _ => ?_⟩
    simp only [BitVec.toNat_ofNat, hm]
    exact ⟨hlater, hbound, hkept⟩
  · refine ⟨_, (exec_of_tokenView hk hi).trans ht, fun _ => ?_, fun hf => absurd hf (raise_kind_ne_zero _ _ _ _)⟩
    rw [raise_rbuf, raise_bufpos]
    exact ⟨rfl, rfl⟩

end Sys2Proof.Machine
end

section
/-! SUPPORT. `RSTEP` (R201): the token that the next symbols of the streams make, and what a fault leaves as it was. -/

namespace Sys2Proof.Machine

section
variable {s u : State} {i : Instr} {k : TokenView} {dy dx runlen value : Byte}

/-! The token fetched (R192, R193). -/

/-- R195: the tuple of the symbols fetched, with the offset in the layout in force. -/
def State.tokenOf (s : State) (dy dx runlen value : Byte) : TokenView := ⟨dy, dx, runlen, value, s.assemble dy dx⟩

/-- Fetching a token's symbols moves cursors only. -/
theorem TokenAt.eq_cur (h : TokenAt s dy dx runlen value u) : ∃ c, u = { s with cur := c } := by
  unfold TokenAt at h
  split at h
  · obtain ⟨a, b, c, d, -, -, -, -, rfl⟩ := h
    exact ⟨_, rfl⟩
  · obtain ⟨-, b, c, d, -, -, -, rfl⟩ := h
    exact ⟨_, rfl⟩

theorem fetchDy_of_quad (h : s.ctrl.layout = .quad) : fetchDy s = decodeSymbol .dy s := by rw [fetchDy, h]

theorem fetchDy_of_delta (h : s.ctrl.layout = .delta) : fetchDy s = .ok 0 s := by rw [fetchDy, h]

/-- R195: a token whose symbols can be read runs from the state after them. -/
theorem TokenAt.token_eq (h : TokenAt s dy dx runlen value u) :
    token s = (s.tokenOf dy dx runlen value).run u := by
  have hrun : runToken dy dx runlen value (u.assemble dy dx) u = (s.tokenOf dy dx runlen value).run u := by
    obtain ⟨c, rfl⟩ := h.eq_cur
    rfl
  rw [← hrun]
  unfold TokenAt at h
  cases hl : s.ctrl.layout with
  | quad =>
    rw [hl] at h
    obtain ⟨a, b, c, d, h0, h1, h2, h3, rfl⟩ := h
    have h1 := h1.of_skipBits (d := .dy) (m := a) (by decide)
    have h2 := (h2.of_skipBits (d := .dy) (m := a) (by decide)).of_skipBits (d := .dx) (m := b) (by decide)
    have h3 := (h3.of_skipBits (d := .dy) (m := a) (by decide)).of_skipBits (d := .dx) (m := b) (by decide)
    have h3 := h3.of_skipBits (d := .run) (m := c) (by decide)
    rw [token, fetchDy_of_quad hl, h0.decode, Run.bind_ok, h1.decode, Run.bind_ok, h2.decode, Run.bind_ok, h3.decode,
      Run.bind_ok]
  | delta =>
    rw [hl] at h
    obtain ⟨rfl, b, c, d, h1, h2, h3, rfl⟩ := h
    have h2 := h2.of_skipBits (d := .dx) (m := b) (by decide)
    have h3 := (h3.of_skipBits (d := .dx) (m := b) (by decide)).of_skipBits (d := .run) (m := c) (by decide)
    rw [token, fetchDy_of_delta hl, Run.bind_ok, h1.decode, Run.bind_ok, h2.decode, Run.bind_ok, h3.decode,
      Run.bind_ok]

/-- R113: decoding a QUAD tuple keeps the tuple. -/
theorem tokenView_of_decodeQuad {w : BitVec 16} (h : decodeQuad w (tupleWord dy dx runlen value) = .ok i) :
    tokenView w i = some ⟨dy, dx, runlen, value, offsetQuad w dy dx⟩ := by
  simp only [decodeQuad, tupleWord_dy, tupleWord_dx, tupleWord_runlen, tupleWord_value] at h
  split_ifs at h with hoff hrun
  · cases h; rw [hrun]; rfl
  · cases h; rfl
  · cases h; rfl

/-- R113: decoding a DELTA tuple keeps the tuple. -/
theorem tokenView_of_decodeDelta {w : BitVec 16} (h : decodeDelta (tupleWord dy dx runlen value) = .ok i) :
    tokenView w i = some ⟨dy, dx, runlen, value, offsetDelta dx⟩ := by
  simp only [decodeDelta, tupleWord_dy, tupleWord_dx, tupleWord_runlen, tupleWord_value] at h
  split_ifs at h with hdy hdx hrun
  · cases h; rw [not_not.1 hdy, hdx, hrun]; rfl
  · cases h; rw [not_not.1 hdy, hdx]; rfl
  · cases h; rw [not_not.1 hdy]; rfl

/-- The instruction that the symbols decode to stands for them, in the layout in force. -/
theorem tokenView_of_decode (h : decode s.ctx s.tokenFormat (tupleWord dy dx runlen value) = .ok i) :
    tokenView s.width i = some (s.tokenOf dy dx runlen value) := by
  unfold State.tokenOf State.assemble
  unfold State.tokenFormat at h
  cases hl : s.ctrl.layout with
  | quad => rw [hl] at h; exact tokenView_of_decodeQuad h
  | delta => rw [hl] at h; exact tokenView_of_decodeDelta h

/-- R195: the latches of a token whose offset is 0. -/
theorem State.latched_tokenOf (h : s.assemble dy dx = 0) :
    u.latched (s.tokenOf dy dx runlen value) =
      { u with lasttok := tupleWord dy dx runlen value, lastoff := 0 } := by
  rw [State.latched, State.tokenOf, h]
  rfl

/-- R196: a literal fetched, its whole effect. -/
theorem TokenAt.token_literal (h : TokenAt s dy dx 0 value u) (h0 : s.assemble dy dx = 0) (hv : value.toNat < 16) :
    token s = .ok () { u with
      lasttok := tupleWord dy dx 0 value, lastoff := 0
      rbuf := Memory.write s.rbuf s.bufpos.toNat value, bufpos := s.bufpos + 1 } := by
  rw [h.token_eq, TokenView.run_literal hv h0 rfl, State.latched_tokenOf h0]
  obtain ⟨c, rfl⟩ := h.eq_cur
  rfl

/-- R197: a fill fetched whose run fits, its whole effect. -/
theorem TokenAt.token_fill (h : TokenAt s dy dx runlen value u) (h0 : s.assemble dy dx = 0) (hn : runlen ≠ 0)
    (hv : value.toNat < 16) (hle : s.bufpos.toNat + runlen.toNat ≤ s.npix.toNat) :
    token s = .ok () { u with
      lasttok := tupleWord dy dx runlen value, lastoff := 0
      rbuf := fillCells s.rbuf s.bufpos.toNat value runlen.toNat
      bufpos := BitVec.ofNat 32 (s.bufpos.toNat + runlen.toNat) } := by
  have hfits : u.bufpos.toNat + runlen.toNat ≤ u.npix.toNat := by obtain ⟨c, rfl⟩ := h.eq_cur; exact hle
  rw [h.token_eq, TokenView.run_fill_of_le hv h0 hn hfits, State.latched_tokenOf h0]
  obtain ⟨c, rfl⟩ := h.eq_cur
  rfl

/-! How a token ends. -/

/-- A copy ends with a fault recorded or the record as it was. -/
theorem applyCopy_fault (offset : Int) (n v : Byte) (s : State) :
    (applyCopy offset n v s).Meets (fun _ t => t.fault = s.fault) (fun t => t.fault.kind ≠ 0) (fun _ => False) := by
  have hok : (putTrailing v (copyBytes offset n.toNat s)).fault = s.fault := by
    rw [copyBytes_eq, putTrailing]
    split <;> rfl
  unfold applyCopy
  split
  · exact raise_kind_ne_zero _ _ _ _
  · split
    · exact raise_kind_ne_zero _ _ _ _
    · split
      · exact raise_kind_ne_zero _ _ _ _
      · exact hok

/-- A token outside a session too never stops, and ends with a fault recorded or the record as it was. -/
theorem TokenView.run_fault (k : TokenView) (s : State) :
    (k.run s).Meets (fun _ t => t.fault = s.fault) (fun t => t.fault.kind ≠ 0) (fun _ => False) := by
  have recorded : ∀ (c : Cause) (w : BitVec 4), (Run.raise c w s.bufpos.toNat (s.latched k) : Run Unit).Meets
      (fun _ t => t.fault = s.fault) (fun t => t.fault.kind ≠ 0) (fun _ => False) :=
    fun c w => raise_kind_ne_zero c w _ _
  rcases Nat.lt_or_ge k.value.toNat 16 with hv | hv
  · by_cases h0 : k.offset = 0
    · by_cases hn : k.runlen = 0
      · rw [TokenView.run_literal hv h0 hn]
        rfl
      · rcases Nat.lt_or_ge s.npix.toNat (s.bufpos.toNat + k.runlen.toNat) with hlt | hle
        · rw [TokenView.run_fill hv h0 hn, applyFill_of_lt (s := s.latched k) hlt]
          exact recorded _ _
        · rw [TokenView.run_fill_of_le hv h0 hn hle]
          rfl
    · rw [TokenView.run_copy hv h0]
      exact applyCopy_fault _ _ _ (s.latched k)
  · rw [TokenView.run_of_value hv]
    exact recorded _ _

/-! The command. -/

/-- R275: `RSTEP` runs in a session. -/
theorem exec_rstep_of_run (hk : s.fault.kind = 0) (hr : s.rstate = .run) :
    exec .rstep s = (rstepBody s).outcome := by
  have hl : (s.rstate == .run) = true := by simp [hr]
  show issue .rstep (s.rstate == .run) rstepBody s = _
  rw [hl, issue_of_legal hk]

theorem rstepBody_of_ok (h : token s = .ok () u) :
    rstepBody s = .ok () (if u.bufpos = u.npix then { u with rstate := .done } else u) := by
  rw [rstepBody, h, Run.bind_ok]

theorem rstepBody_of_halt (h : token s = .halt u) : rstepBody s = .halt u := by
  rw [rstepBody, h, Run.bind_halt]

/-- The faults of a token's own checks are neither those of PMEM nor that of a stream at its end (R200, R291). -/
theorem tokenFault_codes {c : Cause} {w : BitVec 4} (h : tokenFault c w) : ¬ (c.kind = 4 ∨ c.sub = 7) := by
  rcases h with ⟨rfl, -⟩ | ⟨rfl, -⟩ | ⟨rfl, -⟩ | ⟨rfl, -⟩ <;> decide

end

/-- Settles O41: the instruction and `RSTEP` run the same tuple from the same state. -/
theorem rstepRunsToken : Obligations.RstepRunsToken := by
  intro s u dy dx runlen value i hk hr hat hd
  have hku : u.fault.kind = 0 := by obtain ⟨c, rfl⟩ := hat.eq_cur; exact hk
  have hi : tokenView u.width i = some (s.tokenOf dy dx runlen value) := by
    obtain ⟨c, rfl⟩ := hat.eq_cur
    exact tokenView_of_decode hd
  obtain ⟨t, ht, ⟨⟨⟩, hok, hf⟩ | ⟨hhalt, hf⟩⟩ := ((s.tokenOf dy dx runlen value).run_fault u).outcome
  · refine ⟨t, (exec_of_tokenView hku hi).trans ht, ?_⟩
    have hkt : t.fault.kind = 0 := by rw [hf, hku]
    rw [exec_rstep_of_run hk hr, rstepBody_of_ok (hat.token_eq.trans hok), Run.outcome_ok]
    simp only [hkt, true_and]
  · refine ⟨t, (exec_of_tokenView hku hi).trans ht, ?_⟩
    rw [exec_rstep_of_run hk hr, rstepBody_of_halt (hat.token_eq.trans hhalt), Run.outcome_halt,
      if_neg fun h => hf h.1]

/-- Settles O42: the token is a literal, and one byte later the raster is full or not. -/
theorem rstepLiteral : Obligations.RstepLiteral := by
  intro s u dy dx value hk hr hat h0 hv
  have hlit := hat.token_literal h0 hv
  obtain ⟨c, rfl⟩ := hat.eq_cur
  refine ⟨Memory.write s.rbuf s.bufpos.toNat value, ?_, ?_, fun a ha => ?_⟩
  · rw [exec_rstep_of_run hk hr, rstepBody_of_ok hlit, Run.outcome_ok]
    by_cases hfull : s.bufpos + 1 = s.npix
    · simp only [hfull, if_true]
    · simp only [hfull, if_false, ← hr]
  · rw [Memory.read_write, if_pos rfl]
  · rw [Memory.read_write, if_neg ha]

/-- Settles O43: a token that goes on has no fault recorded; how one ends with a fault says what it leaves. -/
theorem rstepFaultWritesNothing : Obligations.RstepFaultWritesNothing := by
  intro s t hinv hk hr ht hf
  rw [exec_rstep_of_run hk hr] at ht
  obtain ⟨-, -, w, hw, -, rfl⟩ | ⟨-, c, lt, lo, e, n, a, -, he, hlatch, rfl⟩ :=
    (rstepBody_cases (hinv.sessionReady hr) (hinv.running hr)).of_next ht
  · obtain ⟨c, m, p, lt, lo, -, -, -, -, -, rfl⟩ := hw
    refine absurd ?_ hf
    split <;> exact hk
  · have hfault : (raise e n a { s with cur := c, lasttok := lt, lastoff := lo }).fault = ⟨e.kind, e.sub, n⟩ := by
      rw [raise_of_none (s := { s with cur := c, lasttok := lt, lastoff := lo }) hk]
    rw [hfault, raise_rbuf, raise_bufpos, raise_npix, raise_rstate, raise_lasttok, raise_lastoff]
    refine ⟨rfl, rfl, rfl, hr, fun hcodes => hlatch ?_⟩
    exact he.resolve_left fun h => tokenFault_codes h hcodes

end Sys2Proof.Machine
end

section
/-! SUPPORT. `RRUN` (R202): its loop does what repeated `RSTEP`s do, and ends with the raster full or with a fault. -/

namespace Sys2Proof.Machine

/-! What decoding a symbol leaves as it was, whatever the tree memory holds. -/

/-- A command in progress that moves cursors only, ends with a fault recorded, or stops. -/
def Run.Fetches {α : Type} (r : Run α) (s : State) : Prop :=
  r.Meets (fun _ u => ∃ c, u = { s with cur := c }) (fun u => u.fault.kind ≠ 0) (fun _ => True)

section
variable {α β : Type} {s : State}

/-- What follows a command in progress that moves cursors only. -/
theorem Run.Fetches.bind {r : Run α} {f : α → State → Run β} {Q : β → State → Prop} (hr : r.Fetches s)
    (hf : ∀ a c, (f a { s with cur := c }).Meets Q (fun u => u.fault.kind ≠ 0) (fun _ => True)) :
    (r.bind f).Meets Q (fun u => u.fault.kind ≠ 0) (fun _ => True) := by
  refine Run.Meets.bind (Run.Meets.mono hr ?_ (fun _ h => h) (fun _ h => h))
  rintro a _ ⟨c, rfl⟩
  exact hf a c

theorem readBit_fetches (t : Role) (s : State) : (readBit t s).Fetches s := by
  refine (readBit_cases t s).mono ?_ ?_ (fun _ _ => trivial)
  · rintro b _ ⟨-, -, -, -, rfl⟩
    exact ⟨_, rfl⟩
  · rintro _ ⟨k, -, rfl⟩
    exact raise_kind_ne_zero _ _ _ _

theorem takeBranch_fetches (t : Role) (i : Nat) (p : Bool) (s : State) : (takeBranch t i p s).Fetches s := by
  unfold takeBranch
  split
  · trivial
  · exact ⟨s.cur, rfl⟩

theorem traverse_fetches (t : Role) (n i : Nat) (s : State) : (traverse t n i s).Fetches s := by
  induction n generalizing i s with
  | zero => trivial
  | succ n ih =>
    refine (readBit_fetches t s).bind fun p _ => (takeBranch_fetches t i p _).bind fun x c => ?_
    split
    · exact ⟨c, rfl⟩
    · exact ih x.1 { s with cur := c }

theorem decodeSymbol_fetches (t : Role) (s : State) : (decodeSymbol t s).Fetches s := traverse_fetches t _ 0 s

theorem fetchDy_fetches (s : State) : (fetchDy s).Fetches s := by
  cases hl : s.ctrl.layout with
  | quad => rw [fetchDy_of_quad hl]; exact decodeSymbol_fetches .dy s
  | delta => rw [fetchDy_of_delta hl]; exact ⟨s.cur, rfl⟩

end

/-! One token of the loop. -/

/-- R203 for one token: it moves `BUFPOS` on, not past `NPIX`, in the same session with the same fault record. -/
structure Advances (s w : State) : Prop where
  later : s.bufpos.toNat < w.bufpos.toNat
  bound : w.bufpos.toNat ≤ w.npix.toNat
  npix : w.npix = s.npix
  rstate : w.rstate = s.rstate
  fault : w.fault = s.fault

/-- A token advances, ends with a fault recorded, or stops. -/
theorem token_advances {s : State} (hp : s.bufpos.toNat < s.npix.toNat) :
    (token s).Meets (fun _ => Advances s) (fun u => u.fault.kind ≠ 0) (fun _ => True) := by
  refine (fetchDy_fetches s).bind fun dy _ => (decodeSymbol_fetches .dx _).bind fun dx _ =>
    (decodeSymbol_fetches .run _).bind fun runlen _ => (decodeSymbol_fetches .val _).bind fun value c => ?_
  refine (runToken_cases (s := { s with cur := c }) hp).mono ?_ ?_ (fun _ _ => trivial)
  · rintro _ _ ⟨m, p, ⟨hlater, hbound, -, -⟩, rfl⟩
    have hm : (BitVec.ofNat 32 p).toNat = p :=
      (BitVec.toNat_ofNat p 32).trans (Nat.mod_eq_of_lt (Nat.lt_of_le_of_lt hbound s.npix.isLt))
    exact ⟨hm.symm ▸ hlater, hm.symm ▸ hbound, rfl, rfl, rfl⟩
  · rintro _ ⟨k, w, -, rfl⟩
    exact raise_kind_ne_zero _ _ _ _

/-! The loop. -/

section
variable {s u : State} {k n : Nat}

theorem rasterLoop_of_full (h : s.bufpos = s.npix) : rasterLoop n s = .ok () { s with rstate := .done } := by
  cases n <;> exact if_pos h

theorem rasterLoop_succ (h : s.bufpos ≠ s.npix) :
    rasterLoop (n + 1) s = (token s).bind fun _ w => rasterLoop n w := if_neg h

/-- No further `RSTEP` is issued once the session is DONE or a fault is recorded. -/
theorem RstepTimes.eq_of_ended (h : RstepTimes k s u) (hs : s.rstate = .run → s.fault.kind ≠ 0) : u = s := by
  cases k with
  | zero => exact h
  | succ k =>
    obtain ⟨hr, hk, -⟩ := h
    exact absurd hk (hs hr)

/-- R202: the loop, within its bound, answers what the `RSTEP`s up to the end of the session lead to. -/
theorem RstepTimes.rasterLoop_outcome (h : RstepTimes k s u) (hend : u.rstate = .done ∨ u.fault.kind ≠ 0)
    (hk : s.fault.kind = 0) (hr : s.rstate = .run) (hp : s.bufpos.toNat < s.npix.toNat)
    (hn : s.npix.toNat - s.bufpos.toNat ≤ n) : (rasterLoop n s).outcome = .next u := by
  induction k generalizing s n with
  | zero =>
    cases h
    rcases hend with hd | hf
    · rw [hr] at hd; cases hd
    · exact absurd hk hf
  | succ k ih =>
    obtain ⟨-, -, m, hm, hrest⟩ := h
    obtain ⟨n, rfl⟩ : ∃ n', n = n' + 1 := ⟨n - 1, by omega⟩
    have hadv := token_advances hp
    rw [exec_rstep_of_run hk hr] at hm
    rw [rasterLoop_succ fun he => by rw [he] at hp; exact Nat.lt_irrefl _ hp]
    cases htok : token s with
    | ok x w =>
      rw [htok] at hadv
      obtain ⟨hlater, hbound, hnp, hrs, hf⟩ := hadv
      rw [rstepBody_of_ok htok] at hm
      cases hm
      rw [Run.bind_ok]
      by_cases hfull : w.bufpos = w.npix
      · rw [if_pos hfull] at hrest
        rw [rasterLoop_of_full hfull, hrest.eq_of_ended nofun]
        rfl
      · rw [if_neg hfull] at hrest
        have hlt : w.bufpos.toNat < w.npix.toNat :=
          Nat.lt_of_le_of_ne hbound fun he => hfull (BitVec.eq_of_toNat_eq he)
        exact ih hrest (by rw [hf, hk]) (by rw [hrs, hr]) hlt (by rw [hnp]; omega)
    | halt w =>
      rw [htok] at hadv
      rw [rstepBody_of_halt htok] at hm
      cases hm
      rw [Run.bind_halt, hrest.eq_of_ended fun _ => hadv]
      rfl
    | stop e =>
      rw [rstepBody, htok] at hm
      cases hm

/-! The command. -/

/-- R275: `RRUN` runs in a session, its loop bounded by the bytes still to write (R203). -/
theorem exec_rrun_of_run (hk : s.fault.kind = 0) (hr : s.rstate = .run) :
    exec .rrun s = (rasterLoop (s.npix.toNat - s.bufpos.toNat) s).outcome := by
  have hl : (s.rstate == .run) = true := by simp [hr]
  show issue .rrun (s.rstate == .run) rrunBody s = _
  rw [hl, issue_of_legal hk, rrunBody]

end

/-- Settles O44: in a session by induction over the `RSTEP`s, outside one by the command's condition. -/
theorem rrunIsRepeatedRstep : Obligations.RrunIsRepeatedRstep := by
  refine ⟨fun s u k hk hr hp ht hend => ?_, fun s hk hr => ?_⟩
  · rw [exec_rrun_of_run hk hr]
    exact ht.rasterLoop_outcome hend hk hr hp (Nat.le_refl _)
  · exact exec_of_not_legal hk rfl rfl hr

/-- Settles O45: the loop ends within its bound, and the two ways it can end are told apart by the fault record. -/
theorem rrunFillsRaster : Obligations.RrunFillsRaster := by
  intro s hinv hk hr
  rw [exec_rrun_of_run hk hr]
  obtain ⟨u, hu, ⟨-, -, w, hw, hfull, rfl⟩ | ⟨-, w, hw, hlt, c, lt, lo, e, x, a, -, -, -, rfl⟩⟩ :=
    (rasterLoop_cases (hinv.sessionReady hr) hinv.pos (Nat.le_refl _)).outcome
  · obtain ⟨c, m, p, lt, lo, -, -, -, hkept, -, rfl⟩ := hw
    exact ⟨_, hu, rfl, hkept, fun _ => ⟨rfl, hfull⟩, fun hf => absurd hk hf⟩
  · obtain ⟨c, m, p, lt, lo, -, -, -, hkept, -, rfl⟩ := hw
    refine ⟨_, hu, ?_⟩
    rw [raise_npix, raise_rbuf, raise_rstate, raise_bufpos]
    exact ⟨rfl, hkept, fun hf => absurd hf (raise_kind_ne_zero _ _ _ _), fun _ => ⟨hr, hlt⟩⟩

/-- Settles O46: one round of the loop runs the fill, and the next finds the raster full. -/
theorem rrunFinalFill : Obligations.RrunFinalFill := by
  intro s u dy dx runlen value hk hr hat h0 hn hv hend
  obtain ⟨n, hlen⟩ : ∃ n, runlen.toNat = n + 1 :=
    Nat.exists_eq_add_one_of_ne_zero fun hz => hn (BitVec.eq_of_toNat_eq hz)
  have hfuel : s.npix.toNat - s.bufpos.toNat = n + 1 := by omega
  have hne : s.bufpos ≠ s.npix := fun he => by rw [he] at hend; omega
  have hfull : BitVec.ofNat 32 (s.bufpos.toNat + runlen.toNat) = s.npix := by
    rw [hend, BitVec.ofNat_toNat, BitVec.setWidth_eq]
  have htok := hat.token_fill h0 hn hv (Nat.le_of_eq hend)
  obtain ⟨c, rfl⟩ := hat.eq_cur
  refine ⟨fillCells s.rbuf s.bufpos.toNat value runlen.toNat, ?_, fun a h1 h2 => ?_, fun a ha => ?_⟩
  · rw [exec_rrun_of_run hk hr, hfuel, rasterLoop_succ hne, htok, Run.bind_ok, rasterLoop_of_full hfull,
      Run.outcome_ok, ← hfull]
  · rw [read_fillCells, if_pos ⟨h1, by omega⟩]
  · rw [read_fillCells, if_neg (by omega)]

end Sys2Proof.Machine
end

section
/-! SUPPORT. The palette as the host reads it (R246 to R249), and where the channels of a packed word lie (R245). -/

namespace Sys2Proof.Machine

/-! Words of fields side by side. -/

/-- A field of `m` bits below another, as a number. -/
theorem append_toNat {n m : Nat} (x : BitVec n) (y : BitVec m) : (x ++ y).toNat = 2 ^ m * x.toNat + y.toNat := by
  rw [BitVec.toNat_append, ← Nat.shiftLeft_add_eq_or_of_lt y.isLt, Nat.shiftLeft_eq, Nat.mul_comm]

theorem scale_toNat (v : BitVec 5) : (scale v).toNat = v.toNat * 8 * 255 / 248 :=
  Nat.mod_eq_of_lt (by have := v.isLt; omega)

/-- R117: the fields of an entry as `LUT_OUT` and `PIXEL` show it. -/
theorem PalEntry.pixel_toNat (e : PalEntry) : e.pixel.toNat =
    2 ^ 24 * e.opaq.toNat + 2 ^ 16 * (scale e.r).toNat + 2 ^ 8 * (scale e.g).toNat + (scale e.b).toNat := by
  simp only [PalEntry.pixel, append_toNat, BitVec.toNat_ofBool, BitVec.ofNat_eq_ofNat, BitVec.toNat_ofNat]
  omega

/-- R38: the fields of an entry as `LUT_RAW` shows it. -/
theorem PalEntry.raw_toNat (e : PalEntry) : e.raw.toNat =
    2 ^ 15 * e.opaq.toNat + 2 ^ 10 * e.r.toNat + 2 ^ 5 * e.g.toNat + e.b.toNat := by
  simp only [PalEntry.raw, append_toNat, BitVec.toNat_ofBool, BitVec.ofNat_eq_ofNat, BitVec.toNat_ofNat]
  omega

/-- Settles O19: one truncating division gives the scale and its table, and the pixel's fields lie side by side. -/
theorem lookupScales : Obligations.LookupScales := by
  refine ⟨fun v => ⟨scale_toNat v, ?_⟩, by decide, by decide, fun s i => (s.palAt i).pixel_toNat, fun s h hv => ?_⟩
  · rw [scale_toNat]
    omega
  · rw [State.lookup, h.entryZero hv]
    rfl

/-! The read ports. -/

section
variable {s : State} {r : Reg} {a : Word}

/-- R37, R38: a guarded read that fails, with no fault recorded yet. -/
theorem regRead_guarded_none (hk : s.fault.kind = 0) (hg : readGuard r s = some a.toNat) :
    regRead r.index s = (0, s.faultedWith 5 7 15 a) := by
  rw [regRead_guarded hg, raise_word hk]
  rfl

/-- R294: a guarded read that fails records nothing where a fault is recorded. -/
theorem regRead_guarded_recorded {n : Nat} (hk : s.fault.kind ≠ 0) (hg : readGuard r s = some n) :
    regRead r.index s = (0, s) := by
  rw [regRead_guarded hg, raise_of_recorded hk]

theorem pixelReadable_iff : (s.palValid && s.rasterReadable) = true ↔
    s.palValid = true ∧ s.rstate = .done ∧ s.rbufAddr.toNat < s.npix.toNat := by
  rw [Bool.and_eq_true, rasterReadable_iff]

theorem readGuard_pixel_good (h : s.palValid = true ∧ s.rstate = .done ∧ s.rbufAddr.toNat < s.npix.toNat) :
    readGuard .pixel s = none := if_pos (pixelReadable_iff.2 h)

theorem readGuard_pixel_bad (h : ¬ (s.palValid = true ∧ s.rstate = .done ∧ s.rbufAddr.toNat < s.npix.toNat)) :
    readGuard .pixel s = some s.rbufAddr.toNat := if_neg (mt pixelReadable_iff.1 h)

theorem readGuard_lut_good (h : s.palValid = true) :
    readGuard .lutOut s = none ∧ readGuard .lutRaw s = none := ⟨if_pos h, if_pos h⟩

theorem readGuard_lut_bad (h : s.palValid = false) :
    readGuard .lutOut s = some (s.lutIdx.setWidth 32).toNat ∧
      readGuard .lutRaw s = some (s.lutIdx.setWidth 32).toNat := by
  have hn : ¬ s.palValid = true := by simp [h]
  rw [BitVec.toNat_setWidth_of_le (by decide)]
  exact ⟨if_neg hn, if_neg hn⟩

/-- R249: a raster byte below 16 is the index of the entry that `PIXEL` shows. -/
theorem regValue_pixel {i : BitVec 4} (h : s.rasterByte.toNat = i.toNat) : regValue .pixel s = s.lookup i := by
  have hi : s.rasterByte.setWidth 4 = i := by bv_omega
  rw [regValue, hi]

end

/-- Settles O17: the two outcomes of the guard of `PIXEL`, the bad one with and without a fault recorded. -/
theorem pixelReadPort : Obligations.PixelReadPort := by
  refine fun s => ⟨fun i hv hd hlt hi => ?_, fun hk hbad => ?_, fun hk hbad => ?_⟩
  · rw [← regValue_pixel (s := s) hi]
    exact regRead_good (r := .pixel) (readGuard_pixel_good ⟨hv, hd, hlt⟩)
  · exact regRead_guarded_none (r := .pixel) hk (readGuard_pixel_bad hbad)
  · exact regRead_guarded_recorded (r := .pixel) hk (readGuard_pixel_bad hbad)

/-- Settles O18: the guard of both ports is `PAL_VALID`. -/
theorem paletteReadPorts : Obligations.PaletteReadPorts := by
  refine fun s => ⟨fun hv => ?_, fun hv => ?_, fun hv hk => ?_, fun hv hk => ?_⟩
  · exact regRead_good (r := .lutOut) (readGuard_lut_good hv).1
  · have hread : regRead 0x12 s = ((s.palAt s.lutIdx).raw, s) :=
      regRead_good (r := .lutRaw) (readGuard_lut_good hv).2
    rw [hread]
    exact ⟨rfl, PalEntry.raw_toNat _⟩
  · obtain ⟨hout, hraw⟩ := readGuard_lut_bad hv
    exact ⟨regRead_guarded_none (r := .lutOut) hk hout, regRead_guarded_none (r := .lutRaw) hk hraw⟩
  · obtain ⟨hout, hraw⟩ := readGuard_lut_bad hv
    exact ⟨regRead_guarded_recorded (r := .lutOut) hk hout, regRead_guarded_recorded (r := .lutRaw) hk hraw⟩

/-! The channels of a packed word. -/

section
variable {w : Half}

/-- A channel of five bits as a number. -/
theorem channel_toNat (w : Half) (k : Nat) : (w.extractLsb' k 5).toNat = w.toNat / 2 ^ k % 32 := by
  rw [BitVec.extractLsb'_toNat, Nat.shiftRight_eq_div_pow]

/-- R115: the opaque flag is the top bit. -/
theorem opaqueBit_iff : w.getLsbD 15 = true ↔ 2 ^ 15 ≤ w.toNat := by
  have hmsb : w.getLsbD 15 = w.msb := (BitVec.msb_eq_getLsbD_last w).symm
  rw [hmsb, BitVec.msb_eq_decide, decide_eq_true_iff]

/-- The decoder and the demultiplexer read the same channels of a 16-bit word, in both orders. -/
theorem decodePalword_setWidth (order : PackedOrder) : decodePalword order (w.setWidth 32) =
    .ok (.palword (demux order w).opaq (demux order w).r (demux order w).g (demux order w).b) := by
  have hupper : (w.setWidth 32).extractLsb' 16 16 = 0 := by
    apply BitVec.eq_of_getLsbD_eq
    intro i hi
    simp
  have hflag : (w.setWidth 32).getLsbD 15 = w.getLsbD 15 := by simp
  have hch : ∀ k, k + 5 ≤ 32 → (w.setWidth 32).extractLsb' k 5 = w.extractLsb' k 5 :=
    fun k hk => BitVec.extractLsb'_setWidth_of_le hk
  unfold decodePalword
  rw [hupper, hflag, hch 10 (by decide), hch 5 (by decide), hch 0 (by decide)]
  cases order <;> rfl

end

/-- Settles O53: each channel is five bits of the word, and the decoder reads them there too. -/
theorem demuxChannels : Obligations.DemuxChannels := by
  intro w
  have hlow : (w.extractLsb' 0 5).toNat = w.toNat % 32 := by rw [channel_toNat, Nat.pow_zero, Nat.div_one]
  exact ⟨channel_toNat w 10, channel_toNat w 5, hlow, opaqueBit_iff,
    channel_toNat w 10, channel_toNat w 5, hlow, opaqueBit_iff, fun c => decodePalword_setWidth c.order⟩

end Sys2Proof.Machine
end

section
/-! SUPPORT. The palette's data operations, `PALWORD` and the colour triple: one entry stored at the entry counter, or
the first colour symbol above 31 refused (R242 to R245). -/

namespace Sys2Proof.Machine

/-! One entry stored. -/

section
variable {s : State}

/-- An entry set in the table and read back (R29). -/
theorem setPal_pal_getElem (s : State) (i : BitVec 4) (e : PalEntry) (j : Fin 16) :
    (s.setPal i e).pal[j] = if j.val = i.toNat then e else s.pal[j] := by
  simp only [State.setPal_pal, Fin.getElem_fin, Vector.getElem_set, eq_comm]

/-- R243, R244: an operation at entry 0 stores nothing, and the counter goes to 1. -/
theorem nextEntry_storeEntry_of_zero (h : s.work.entry = 0) (e : PalEntry) :
    nextEntry (storeEntry s.work.entry e s) = { s with work := { s.work with entry := 1 } } := by
  have hstore : storeEntry s.work.entry e s = s := if_pos h
  rw [hstore, nextEntry, h]
  rfl

/-- R242, R243: an operation at another entry stores it, and the counter goes on. -/
theorem nextEntry_storeEntry_of_ne (h : s.work.entry ≠ 0) (e : PalEntry) :
    nextEntry (storeEntry s.work.entry e s) = { s with
      pal := (s.setPal s.work.entry e).pal, work := { s.work with entry := s.work.entry + 1 } } := by
  rw [storeEntry_of_ne h]
  rfl

theorem exec_palword_of_none {o : Bool} {r g b : BitVec 5} (hk : s.fault.kind = 0) : exec (.palword o r g b) s =
    .next (nextEntry (storeEntry s.work.entry { opaq := o, r := r, g := g, b := b } s)) := by
  show execPalword o r g b s = _
  rw [execPalword, dataOp_of_none hk]
  rfl

end

/-- Settles O51: the word goes to the entry the counter is at, and to none at entry 0. -/
theorem palwordStores : Obligations.PalwordStores := by
  refine fun s o r g b hk => ⟨fun h0 => ?_, fun h0 => ⟨_, ?_, setPal_pal_getElem s s.work.entry _⟩⟩
  · rw [exec_palword_of_none hk, nextEntry_storeEntry_of_zero h0]
  · rw [exec_palword_of_none hk, nextEntry_storeEntry_of_ne h0]

/-! Colour symbols checked (R242). -/

section
variable {s : State} {r g b v : Byte}

theorem checkColour_of_le (h : v.toNat ≤ 31) : checkColour v s = .ok v s := if_neg (Nat.not_lt.2 h)

/-- R242: a command in progress ended by ColorRange, with the colour cursor's offset. -/
def colourOverflow {α : Type} (s : State) : Run α :=
  Run.raise .colorRange (streamUnit .col) (s.cur.get .col).off.toNat s

@[simp] theorem colourOverflow_bind {α β : Type} (s : State) (f : α → State → Run β) :
    (colourOverflow s : Run α).bind f = colourOverflow s := rfl

theorem colourOverflow_outcome {α : Type} (hk : s.fault.kind = 0) :
    (colourOverflow s : Run α).outcome = .next (s.faultedWith 1 12 4 (s.cur.get .col).off) := by
  rw [colourOverflow, Run.outcome_raise, raise_eq_faultedWith hk, BitVec.ofNat_toNat, BitVec.setWidth_eq]
  rfl

theorem checkColour_of_gt (h : 31 < v.toNat) : checkColour v s = colourOverflow s := if_pos h

/-- U12: the one value of HUFF_OPAQUE makes every entry opaque. -/
theorem huffOpacity_eq_true (p : HuffOpaque) : huffOpacity p = true := by
  cases p
  rfl

/-- R242: the entry three colour symbols make. -/
def tripleEntry (r g b : Byte) : PalEntry :=
  { opaq := true, r := r.setWidth 5, g := g.setWidth 5, b := b.setWidth 5 }

theorem storeTriple_eq (i : BitVec 4) (r g b : Byte) (s : State) :
    storeTriple i r g b s = storeEntry i (tripleEntry r g b) s := by
  rw [storeTriple, huffOpacity_eq_true]
  rfl

/-- A triple of good symbols is stored. -/
theorem exec_colourTriple_of_le (hk : s.fault.kind = 0) (hr : r.toNat ≤ 31) (hg : g.toNat ≤ 31) (hb : b.toNat ≤ 31) :
    exec (.colourTriple r g b) s = .next (nextEntry (storeEntry s.work.entry (tripleEntry r g b) s)) := by
  show execColourTriple r g b s = _
  rw [execColourTriple, dataOp_of_none hk]
  simp only [checkColour_of_le, hr, hg, hb, Run.bind_ok, Run.outcome_ok, storeTriple_eq]

/-- The first symbol above 31 ends a triple, and those before it have changed nothing. -/
theorem exec_colourTriple_of_gt (hk : s.fault.kind = 0) (h : 31 < r.toNat ∨ 31 < g.toNat ∨ 31 < b.toNat) :
    exec (.colourTriple r g b) s = .next (s.faultedWith 1 12 4 (s.cur.get .col).off) := by
  show execColourTriple r g b s = _
  rw [execColourTriple, dataOp_of_none hk, ← colourOverflow_outcome hk]
  by_cases hr : 31 < r.toNat
  · rw [checkColour_of_gt hr, colourOverflow_bind]
  rw [checkColour_of_le (Nat.not_lt.1 hr), Run.bind_ok]
  by_cases hg : 31 < g.toNat
  · rw [checkColour_of_gt hg, colourOverflow_bind]
  have hb : 31 < b.toNat := (h.resolve_left hr).resolve_left hg
  rw [checkColour_of_le (Nat.not_lt.1 hg), Run.bind_ok, checkColour_of_gt hb, colourOverflow_bind]

end

/-- Settles O52: three good symbols are an entry, as for `PALWORD`; else the first that is not ends the operation. -/
theorem colourTripleStores : Obligations.ColourTripleStores := by
  refine fun s r g b hk => ⟨fun hr hg hb h0 => ⟨_, ?_, setPal_pal_getElem s s.work.entry (tripleEntry r g b)⟩,
    fun hr hg hb h0 => ?_, exec_colourTriple_of_gt hk⟩
  · rw [exec_colourTriple_of_le hk hr hg hb, nextEntry_storeEntry_of_ne h0]
  · rw [exec_colourTriple_of_le hk hr hg hb, nextEntry_storeEntry_of_zero h0]

end Sys2Proof.Machine
end

section
/-! SUPPORT. `PALDEC` in HUFF mode: the colour symbols read one by one, three of them an entry, up to the first above 31
(R241, R242). -/

namespace Sys2Proof.Machine

/-! The colour stream (R242). -/

/-- The palette table replaced. -/
def State.withPal (s : State) (q : Vector PalEntry 16) : State := { s with pal := q }

/-- Tree 4 holds a code tree, and cursor 4 stands before a list of its code words. -/
structure ColourStream (s : State) (tr : CodeTree) (codes : List (List Bool × Byte)) : Prop where
  tree : TreeHolds s .col tr
  words : CodesOf tr codes
  bits : StreamHolds s .col (codeBits codes)

section
variable {s : State} {tr : CodeTree} {x r g b : List Bool × Byte} {codes : List (List Bool × Byte)}

theorem codeBits_nil : codeBits [] = [] := rfl

theorem codeBits_cons : codeBits (x :: codes) = x.1 ++ codeBits codes := rfl

theorem ColourStream.first (h : ColourStream s tr (x :: codes)) : tr.follow x.1 = some x.2 ∧ StreamHolds s .col x.1 :=
  ⟨h.words x List.mem_cons_self, (StreamHolds.append h.bits).1⟩

/-- The stream after its first code word. -/
theorem ColourStream.tail (h : ColourStream s tr (x :: codes)) :
    ColourStream (s.skipBits .col x.1.length) tr codes :=
  ⟨h.tree, (List.forall_mem_cons.1 h.words).2, (StreamHolds.append h.bits).2⟩

/-- R242 `color_symbol()` on the first code word of the stream. -/
theorem ColourStream.colourSymbol (h : ColourStream s tr (x :: codes)) :
    colourSymbol s = checkColour x.2 (s.skipBits .col x.1.length) := by
  obtain ⟨hf, hs⟩ := h.first
  have hnext : NextSymbol s .col x.2 x.1.length := ⟨tr, x.1, h.tree, hf, rfl, hs⟩
  rw [Machine.colourSymbol, hnext.decode, Run.bind_ok]

/-- A good symbol is returned. -/
theorem ColourStream.colourSymbol_of_le (h : ColourStream s tr (x :: codes)) (hx : x.2.toNat ≤ 31) :
    Machine.colourSymbol s = .ok x.2 (s.skipBits .col x.1.length) := by
  rw [h.colourSymbol, checkColour_of_le hx]

/-- A symbol above 31 raises ColorRange with the offset after it. -/
theorem ColourStream.colourSymbol_of_gt (h : ColourStream s tr (x :: codes)) (hx : 31 < x.2.toNat) :
    Machine.colourSymbol s = colourOverflow (s.skipBits .col x.1.length) := by
  rw [h.colourSymbol, checkColour_of_gt hx]

/-- The cursor moved over the first code word and then over others. -/
theorem ColourStream.skipBits_cons (h : ColourStream s tr (x :: codes)) (more : List (List Bool × Byte)) :
    s.skipBits .col (codeBits (x :: more)).length =
      (s.skipBits .col x.1.length).skipBits .col (codeBits more).length := by
  rw [State.skipBits_skipBits s .col h.first.2.off_lt, codeBits_cons, List.length_append]

/-- The colour stream does not depend on the palette table. -/
theorem ColourStream.withPal (h : ColourStream s tr codes) (q : Vector PalEntry 16) :
    ColourStream (s.withPal q) tr codes := ⟨h.tree, h.words, h.bits⟩

end

/-! The entries of a Huffman-coded palette (R242). -/

section
variable {s : State} {tr : CodeTree} {r g b last : List Bool × Byte} {codes : List (List Bool × Byte)} {n k : Nat}

/-- The cursor moved over one, two or three code words, one after another. -/
theorem ColourStream.skipBits_one (h : ColourStream s tr (r :: codes)) :
    s.skipBits .col (codeBits [r]).length = s.skipBits .col r.1.length := by
  rw [h.skipBits_cons, codeBits_nil, List.length_nil, State.skipBits_zero]

theorem ColourStream.skipBits_two (h : ColourStream s tr (r :: g :: codes)) :
    s.skipBits .col (codeBits [r, g]).length = (s.skipBits .col r.1.length).skipBits .col g.1.length := by
  rw [h.skipBits_cons, h.tail.skipBits_one]

theorem ColourStream.skipBits_three (h : ColourStream s tr (r :: g :: b :: codes)) :
    s.skipBits .col (codeBits [r, g, b]).length =
      ((s.skipBits .col r.1.length).skipBits .col g.1.length).skipBits .col b.1.length := by
  rw [h.skipBits_cons, h.tail.skipBits_two]

/-- The cursor moved over three code words and then over others. -/
theorem ColourStream.skipBits_more (h : ColourStream s tr (r :: g :: b :: codes))
    (more : List (List Bool × Byte)) : s.skipBits .col (codeBits (r :: g :: b :: more)).length =
      (s.skipBits .col (codeBits [r, g, b]).length).skipBits .col (codeBits more).length := by
  rw [h.skipBits_three, h.skipBits_cons, h.tail.skipBits_cons, h.tail.tail.skipBits_cons]

/-- The stream after its first three code words. -/
theorem ColourStream.drop_three (h : ColourStream s tr (r :: g :: b :: codes)) :
    ColourStream (s.skipBits .col (codeBits [r, g, b]).length) tr codes := by
  rw [h.skipBits_three]
  exact h.tail.tail.tail

/-- Three good symbols are one entry, and the next entry follows. -/
theorem ColourStream.huffEntries_succ {i : BitVec 4} (h : ColourStream s tr (r :: g :: b :: codes))
    (hr : r.2.toNat ≤ 31) (hg : g.2.toNat ≤ 31) (hb : b.2.toNat ≤ 31) :
    huffEntries (n + 1) i s = huffEntries n (i + 1)
      (storeEntry i (tripleEntry r.2 g.2 b.2) (s.skipBits .col (codeBits [r, g, b]).length)) := by
  rw [huffEntries, h.colourSymbol_of_le hr, Run.bind_ok, h.tail.colourSymbol_of_le hg, Run.bind_ok,
    h.tail.tail.colourSymbol_of_le hb, Run.bind_ok, storeTriple_eq, h.skipBits_three]

/-- Triple `k` of a list of code words. -/
def TripleAt (codes : List (List Bool × Byte)) (k : Nat) (r g b : List Bool × Byte) : Prop :=
  codes[3 * k]? = some r ∧ codes[3 * k + 1]? = some g ∧ codes[3 * k + 2]? = some b

/-- The triples that follow the first are those of the rest of the list. -/
theorem TripleAt.of_succ {r' g' b' : List Bool × Byte} (h : TripleAt (r' :: g' :: b' :: codes) (k + 1) r g b) :
    TripleAt codes k r g b := h

/-- Three symbols for each entry, so three code words while an entry is left. -/
theorem exists_three_of_length (h : codes.length = 3 * (n + 1)) : ∃ r g b rest, codes = r :: g :: b :: rest := by
  match codes, h with
  | r :: g :: b :: rest, _ => exact ⟨r, g, b, rest, rfl⟩

/-- As many triples of good symbols as entries: entry `i + k` is triple `k`, and those below entry `i` are as
before. -/
theorem ColourStream.huffEntries_ok {i : Nat} (h : ColourStream s tr codes) (hle : ∀ x ∈ codes, x.2.toNat ≤ 31)
    (hlen : codes.length = 3 * n) (hi : 1 ≤ i) (hn : i + n ≤ 16) :
    ∃ q, huffEntries n (BitVec.ofNat 4 i) s = .ok () ((s.skipBits .col (codeBits codes).length).withPal q) ∧
      (∀ j : Fin 16, j.val < i → q[j] = s.pal[j]) ∧
      ∀ (j : Fin 16) (k : Nat) (r g b : List Bool × Byte), j.val = i + k → TripleAt codes k r g b →
        q[j] = tripleEntry r.2 g.2 b.2 := by
  induction n generalizing i s codes with
  | zero =>
    obtain rfl : codes = [] := List.eq_nil_of_length_eq_zero hlen
    refine ⟨s.pal, ?_, fun _ _ => rfl, fun _ _ _ _ _ _ ht => by cases ht.1⟩
    rw [codeBits_nil, List.length_nil, State.skipBits_zero]
    rfl
  | succ n ih =>
    obtain ⟨r, g, b, codes, rfl⟩ := exists_three_of_length hlen
    simp only [List.forall_mem_cons] at hle
    obtain ⟨hr, hg, hb, hle⟩ := hle
    have hidx : (BitVec.ofNat 4 i).toNat = i := Nat.mod_eq_of_lt (by omega)
    have hne : BitVec.ofNat 4 i ≠ 0 := fun h0 => Nat.ne_of_gt hi (hidx.symm.trans (congrArg BitVec.toNat h0))
    have hnext : BitVec.ofNat 4 i + 1 = BitVec.ofNat 4 (i + 1) := (BitVec.ofNat_add i 1).symm
    obtain ⟨q, hrun, hlow, hentry⟩ := ih (i := i + 1)
      (s := (s.skipBits .col (codeBits [r, g, b]).length).setPal (BitVec.ofNat 4 i) (tripleEntry r.2 g.2 b.2))
      (h.drop_three.withPal _) hle (by simp only [List.length_cons] at hlen; omega) (by omega) (by omega)
    refine ⟨q, ?_, fun j hj => ?_, fun j k r' g' b' hj ht => ?_⟩
    · rw [h.huffEntries_succ hr hg hb, storeEntry_of_ne hne, hnext, hrun, h.skipBits_more codes]
      rfl
    · rw [hlow j (by omega), setPal_pal_getElem, if_neg (by omega)]
      rfl
    · cases k with
      | zero =>
        obtain ⟨h0, h1, h2⟩ := ht
        cases h0
        cases h1
        cases h2
        rw [hlow j (by omega), setPal_pal_getElem, if_pos (by omega)]
      | succ k => exact hentry j k r' g' b' (by omega) ht.of_succ

/-- The first symbol above 31 ends the entries right after it; of the rest only the table has changed. -/
theorem ColourStream.huffEntries_overflow {i : BitVec 4} (h : ColourStream s tr (codes ++ [last]))
    (hle : ∀ x ∈ codes, x.2.toNat ≤ 31) (hlast : 31 < last.2.toNat) (hlen : codes.length < 3 * n) :
    ∃ q, huffEntries n i s =
      colourOverflow ((s.skipBits .col (codeBits (codes ++ [last])).length).withPal q) := by
  induction n generalizing i s codes with
  | zero => omega
  | succ n ih =>
    match codes with
    | [] =>
      refine ⟨s.pal, ?_⟩
      rw [huffEntries, h.colourSymbol_of_gt hlast, colourOverflow_bind]
      exact congrArg colourOverflow h.skipBits_one.symm
    | [r] =>
      obtain ⟨hr, -⟩ := List.forall_mem_cons.1 hle
      refine ⟨s.pal, ?_⟩
      rw [huffEntries, h.colourSymbol_of_le hr, Run.bind_ok, h.tail.colourSymbol_of_gt hlast, colourOverflow_bind]
      exact congrArg colourOverflow h.skipBits_two.symm
    | [r, g] =>
      simp only [List.forall_mem_cons] at hle
      obtain ⟨hr, hg, -⟩ := hle
      refine ⟨s.pal, ?_⟩
      rw [huffEntries, h.colourSymbol_of_le hr, Run.bind_ok, h.tail.colourSymbol_of_le hg, Run.bind_ok,
        h.tail.tail.colourSymbol_of_gt hlast, colourOverflow_bind]
      exact congrArg colourOverflow h.skipBits_three.symm
    | r :: g :: b :: codes =>
      simp only [List.forall_mem_cons] at hle
      obtain ⟨hr, hg, hb, hle⟩ := hle
      obtain ⟨p, hp⟩ := storeEntry_eq_pal i (tripleEntry r.2 g.2 b.2) (s.skipBits .col (codeBits [r, g, b]).length)
      obtain ⟨q, hrun⟩ := ih (i := i + 1) (h.drop_three.withPal p) hle (by simp only [List.length_cons] at hlen; omega)
      refine ⟨q, ?_⟩
      rw [h.huffEntries_succ hr hg hb, hp]
      exact hrun.trans (congrArg (fun u => colourOverflow (u.withPal q)) (h.skipBits_more (codes ++ [last])).symm)

end

/-! The command (R241). -/

section
variable {s : State}

/-- R275: a legal `PALDEC` runs. -/
theorem exec_paldec_of_legal (hk : s.fault.kind = 0) (hl : CommandLegal s .paldec) :
    exec .paldec s = (paldecBody s).outcome := by
  obtain ⟨hr, ht⟩ := hl
  have hok : (s.rstate != .run && paletteTreeValid s) = true := by
    cases hm : s.ctrl.palMode with
    | huff => simp [paletteTreeValid, hr, hm, ht hm]
    | raw15 => simp [paletteTreeValid, hr, hm]
    | raw16 => simp [paletteTreeValid, hr, hm]
  show issue .paldec (s.rstate != .run && paletteTreeValid s) paldecBody s = _
  rw [hok, issue_of_legal hk]

theorem paldecMode_huff (hm : s.ctrl.palMode = .huff) :
    paldecMode s = huffEntries 15 1 (loadColourCursor s) := by rw [paldecMode, hm]

/-- R242: cursor 4 set to the palette's start and end, and moved on from there. -/
theorem loadColourCursor_skipBits (s : State) (n : Nat) : (loadColourCursor s).skipBits .col n = { s with
    cur := s.cur.set .col { s.cur.get .col with
      off := BitVec.ofNat 32 (s.palBase.toNat + n), lim := s.palEnd } } := by
  simp only [State.skipBits, State.setCur, loadColourCursor, PerRole.get_set_self, PerRole.set_set]

end

/-- Settles O49: from the cleared table and the cursor at the palette's start, 15 entries take the 45 symbols. -/
theorem paldecHuffman : Obligations.PaldecHuffman := by
  intro s tr codes hk hr hm ht hc hlen hle hs
  have hstream : ColourStream (loadColourCursor (clearPalette s)) tr codes := ⟨ht, hc, hs⟩
  obtain ⟨q, hrun, hlow, hentry⟩ := hstream.huffEntries_ok (n := 15) (i := 1) hle hlen (by decide) (by decide)
  refine ⟨q, ?_, ?_, fun i r g b hi hr hg hb => hentry i (i.val - 1) r g b (by omega) ⟨hr, hg, hb⟩⟩
  · rw [exec_paldec_of_legal hk ⟨hr, fun _ => ht.1⟩, paldecBody, paldecMode_huff (s := clearPalette s) hm,
      show (1 : BitVec 4) = BitVec.ofNat 4 1 from rfl, hrun, Run.bind_ok, Run.outcome_ok, loadColourCursor_skipBits]
    rfl
  · exact (hlow 0 (by decide)).trans (setPal_pal_getElem s 0 .clear 0)

/-- Settles O50: the entries before the symbol are stored, the symbol raises ColorRange, and `PALDEC` ends there with
the table invalid. -/
theorem paldecColourRange : Obligations.PaldecColourRange := by
  intro s tr codes last hk hr hm ht hc hlen hle hlast hs
  have hstream : ColourStream (loadColourCursor (clearPalette s)) tr (codes ++ [last]) := ⟨ht, hc, hs⟩
  obtain ⟨q, hrun⟩ := hstream.huffEntries_overflow (n := 15) (i := 1) hle hlast hlen
  refine ⟨q, _, rfl, ?_⟩
  rw [exec_paldec_of_legal hk ⟨hr, fun _ => ht.1⟩, paldecBody, paldecMode_huff (s := clearPalette s) hm, hrun,
    colourOverflow_bind, loadColourCursor_skipBits]
  exact colourOverflow_outcome hk

end Sys2Proof.Machine
end

section
/-! SUPPORT. The system's own commands and accesses: `NOP` (R270), the step taken for each kind of host access (R5, R274),
and which writes a session admits and which end it (R275). -/

namespace Sys2Proof.Machine

/-- R102, R270: the word 0 is `NOP`, and with a fault recorded it is ignored like every word but that of `SRESET`. -/
theorem regWrite_cmd_zero (s : State) : regWrite 0x05 0x00000000 s = .next s := by
  by_cases hk : s.fault.kind = 0
  · exact regWrite_cmd_ok (i := .nop) hk rfl
  · obtain ⟨-, -, hignored⟩ := commandDecodeOrder s 0x00000000
    exact hignored hk (by decide)

/-- Settles O3: `NOP` is the identity, and the word 0 selects it or is ignored. -/
theorem nopChangesNothing : Obligations.NopChangesNothing := fun s => ⟨rfl, regWrite_cmd_zero s⟩

/-! The oldest access (R274). -/

section
variable {s t : State} {a : Access} {rest : List Access} {bound n : Nat}

theorem step_pending (h : s.work.phase = .idle) (hp : s.pending = a :: rest) :
    step s = access a { s with pending := rest } := by rw [step_idle h, hostStep, hp]

/-- R82: the host owns its memories outside a session. -/
theorem poke_inside (hr : s.rstate ≠ .run) (hn : n < bound) : poke bound n t s = .next t := by
  rw [poke, if_neg hr, if_neg (Nat.not_le.2 hn)]

theorem poke_in_session (hr : s.rstate = .run) : poke bound n t s = .fault .pokeDuringSession := if_pos hr

theorem poke_outside (hr : s.rstate ≠ .run) (hn : bound ≤ n) : poke bound n t s = .fault .pokeOutsideMemory := by
  rw [poke, if_neg hr, if_pos hn]

end

/-- Settles O5: the step is the oldest access, a command written is `exec` of it, and a poke ends as R82 says. -/
theorem stepTakesHostAccess : Obligations.StepTakesHostAccess := by
  intro s rest h
  refine ⟨?write, ?command, ?read, ?reset, ?pmem, ?palrom, ?pmemSession, ?palromSession, ?pmemOutside, ?palromOutside⟩
  case write => exact fun i v hp => step_pending h hp
  case command => exact fun w i hp hk hd => (step_pending h hp).trans (regWrite_cmd_ok hk hd)
  case read => exact fun i hp => step_pending h hp
  case reset => exact fun hp => step_pending h hp
  case pmem => exact fun a v hp hr ha => (step_pending h hp).trans (poke_inside hr ha)
  case palrom => exact fun a v hp hr ha => (step_pending h hp).trans (poke_inside hr ha)
  case pmemSession => exact fun a v hp hr => (step_pending h hp).trans (poke_in_session hr)
  case palromSession => exact fun a v hp hr => (step_pending h hp).trans (poke_in_session hr)
  case pmemOutside => exact fun a v hp hr ha => (step_pending h hp).trans (poke_outside hr ha)
  case palromOutside => exact fun a v hp hr ha => (step_pending h hp).trans (poke_outside hr ha)

/-! Commands in a session (R275). -/

/-- R102: the word of a command does not depend on what the state adds to decoding. -/
theorem encode_command_ctx {i : Instr} (hi : i.format = .cmd) (c : Ctx) : encode .atReset i = encode c i :=
  encode_of_decodeCmd (decodeCmd_encode c hi) .atReset

/-- A fault of the interface is all that is left of a write: some cause recorded, nothing else changed. -/
def Refuses (o : Host.Outcome State Fault Refusal) (s : State) : Prop := ∃ c a, o = .next (raise c noUnit a s)

section
variable {i : Instr} {s t : State}

theorem issue_refuses {b : State → Run Unit} {l : Bool} (hk : s.fault.kind = 0) (hl : l = false) :
    Refuses (issue i l b s) s := by
  subst hl
  exact ⟨_, _, issue_of_illegal hk⟩

/-- A command whose condition fails whatever its selector names is refused, also where the selector names nothing. -/
theorem issueSel_refuses {sel : BitVec 4} {b : Role → State → Run Unit} {l : Role → Bool} (hk : s.fault.kind = 0)
    (hl : ∀ c, l c = false) : Refuses (issueSel i sel l b s) s := by
  rcases issueSel_cases (rfl : issueSel i sel l b s = _) with ⟨hf, -⟩ | ⟨-, -, he⟩ | ⟨c, -, he⟩
  · exact absurd hk hf
  · exact ⟨_, _, he⟩
  · exact he ▸ issue_refuses hk (hl c)

/-- R275: in a session every command is refused but `NOP`, `RSTEP`, `RRUN` and `SRESET`. -/
theorem exec_in_session (hk : s.fault.kind = 0) (hr : s.rstate = .run) (hi : i.format = .cmd) :
    (i = .nop ∨ i = .rstep ∨ i = .rrun ∨ i = .sreset) ∨ Refuses (exec i s) s := by
  have hnot : (s.rstate != .run) = false := by simp [hr]
  cases i with
  | nop => exact .inl (.inl rfl)
  | rstep => exact .inl (.inr (.inl rfl))
  | rrun => exact .inl (.inr (.inr (.inl rfl)))
  | sreset => exact .inl (.inr (.inr (.inr rfl)))
  | build sel => exact .inr (issueSel_refuses hk fun _ => hnot)
  | decode sel => exact .inr (issueSel_refuses hk fun _ => by rw [hnot, Bool.false_and])
  | rdbit sel => exact .inr (issueSel_refuses hk fun _ => hnot)
  | rstart => exact .inr (issue_refuses hk (by rw [hnot, Bool.false_and]))
  | paldec => exact .inr (issue_refuses hk (by rw [hnot, Bool.false_and]))
  | _ => cases hi

/-! How a session ends. -/

/-- The session of `s` goes on in `u`, or `u` is DONE with the raster full. -/
def KeepsOrFills (s u : State) : Prop := u.rstate = s.rstate ∨ (u.rstate = .done ∧ u.bufpos = u.npix)

/-- However a command in progress goes on or ends, the session of `s` goes on or has filled its raster. -/
def Run.KeepsSession (r : Run Unit) (s : State) : Prop :=
  r.Meets (fun _ => KeepsOrFills s) (KeepsOrFills s) (fun _ => True)

/-- A token neither opens nor ends a session, whatever state it starts from. -/
theorem token_rstate (s : State) :
    (token s).Meets (fun _ u => u.rstate = s.rstate) (fun u => u.rstate = s.rstate) (fun _ => True) := by
  have of_framed : ∀ u, Framed [.cur, .raster] s u → u.rstate = s.rstate := fun u hu =>
    (hu.agrees .session (by simp)).2
  exact Run.Meets.mono (token_frames s) (fun _ => of_framed) of_framed (fun _ h => h)

theorem rstepBody_keepsSession (s : State) : (rstepBody s).KeepsSession s := by
  refine Run.Meets.bind ((token_rstate s).mono (fun _ u hu => ?_) (fun _ hu => .inl hu) (fun _ h => h))
  show KeepsOrFills s (if u.bufpos = u.npix then { u with rstate := .done } else u)
  split
  · rename_i hfull
    exact .inr ⟨rfl, hfull⟩
  · exact .inl hu

theorem rasterLoop_keepsSession (n : Nat) (s : State) : (rasterLoop n s).KeepsSession s := by
  induction n generalizing s with
  | zero =>
    by_cases hfull : s.bufpos = s.npix
    · rw [rasterLoop_of_full hfull]
      exact .inr ⟨rfl, hfull⟩
    · rw [rasterLoop, if_neg hfull]
      trivial
  | succ n ih =>
    by_cases hfull : s.bufpos = s.npix
    · rw [rasterLoop_of_full hfull]
      exact .inr ⟨rfl, hfull⟩
    · rw [rasterLoop_succ hfull]
      refine Run.Meets.bind ((token_rstate s).mono (fun _ w hw => ?_) (fun _ hu => .inl hu) (fun _ h => h))
      have trans : ∀ u, KeepsOrFills w u → KeepsOrFills s u := fun u hu => hu.imp_left fun he => he.trans hw
      exact Run.Meets.mono (ih w) (fun _ => trans) trans (fun _ h => h)

theorem Run.KeepsSession.done {r : Run Unit} (h : r.KeepsSession s) (hr : s.rstate = .run)
    (ht : r.outcome = .next t) (hend : t.rstate ≠ .run) : t.rstate = .done ∧ t.bufpos = t.npix := by
  have hkf : KeepsOrFills s t := by rcases Run.Meets.of_next h ht with ⟨_, -, hu⟩ | ⟨-, hu⟩ <;> exact hu
  exact hkf.resolve_left fun he => hend (he.trans hr)

/-- R201, R202, R275: only a word for one of three commands ends a session, that of `SRESET` or, with the raster full,
of `RSTEP` or `RRUN`. -/
theorem exec_ends_session {w : Word} (hk : s.fault.kind = 0) (hr : s.rstate = .run) (hd : decodeCmd w = .ok i)
    (ht : exec i s = .next t) (hend : t.rstate ≠ .run) :
    w = 0x0000000F ∨ ((w = 0x00000005 ∨ w = 0x00000006) ∧ t.rstate = .done ∧ t.bufpos = t.npix) := by
  have hw : w = encode .atReset i := (encode_of_decodeCmd hd .atReset).symm
  rcases exec_in_session hk hr (decodeCmd_format hd) with (rfl | rfl | rfl | rfl) | ⟨c, a, he⟩
  · cases ht
    exact absurd hr hend
  · rw [exec_rstep_of_run hk hr] at ht
    exact .inr ⟨.inl hw, (rstepBody_keepsSession s).done hr ht hend⟩
  · rw [exec_rrun_of_run hk hr] at ht
    exact .inr ⟨.inr hw, (rasterLoop_keepsSession _ s).done hr ht hend⟩
  · exact .inl hw
  · cases he.symm.trans ht
    rw [raise_rstate] at hend
    exact absurd hr hend

/-- R275: the words of the commands that a session admits. -/
theorem exec_admitted_in_session {w : Word} (hk : s.fault.kind = 0) (hr : s.rstate = .run)
    (hd : decodeCmd w = .ok i) (ht : exec i s = .next t) (hgood : t.fault.kind = 0) :
    w = 0x00000000 ∨ w = 0x00000005 ∨ w = 0x00000006 ∨ w = 0x0000000F := by
  have hw : w = encode .atReset i := (encode_of_decodeCmd hd .atReset).symm
  rcases exec_in_session hk hr (decodeCmd_format hd) with (rfl | rfl | rfl | rfl) | ⟨c, a, he⟩
  · exact .inl hw
  · exact .inr (.inl hw)
  · exact .inr (.inr (.inl hw))
  · exact .inr (.inr (.inr hw))
  · cases he.symm.trans ht
    exact absurd hgood (raise_kind_ne_zero _ _ _ _)

/-! Writes in a session (R23, R275). -/

variable {x : BitVec 8} {v : Word}

theorem regWrite_admitted_in_session (hk : s.fault.kind = 0) (hr : s.rstate = .run) (ht : regWrite x v s = .next t)
    (hgood : t.fault.kind = 0) :
    (x = 0x05 ∧ (v = 0x00000000 ∨ v = 0x00000005 ∨ v = 0x00000006 ∨ v = 0x0000000F)) ∨ x = 0x0D ∨ x = 0x10 := by
  rcases regWrite_cases ht with ⟨hf, -⟩ | ⟨hf, -⟩ | ⟨-, c, a, he⟩ | ⟨-, hx, j, hj, he⟩ | ⟨-, w, r, hx, hopen, -⟩
  · exact absurd hk hf
  · exact absurd hk hf
  · cases he
    exact absurd hgood (raise_kind_ne_zero _ _ _ _)
  · exact .inl ⟨hx, exec_admitted_in_session hk hr hj he.symm hgood⟩
  · rcases hopen hr with rfl | rfl
    · exact .inr (.inl hx.symm)
    · exact .inr (.inr hx.symm)

theorem regWrite_ends_session (hr : s.rstate = .run) (ht : regWrite x v s = .next t) (hend : t.rstate ≠ .run) :
    x = 0x05 ∧ (v = 0x0000000F ∨ ((v = 0x00000005 ∨ v = 0x00000006) ∧ t.rstate = .done ∧ t.bufpos = t.npix)) := by
  rcases regWrite_cases ht with ⟨-, he⟩ | ⟨-, hx, hv, -⟩ | ⟨-, c, a, he⟩ | ⟨hk, hx, j, hj, he⟩ |
    ⟨-, w, r, -, -, -, ⟨hset, -⟩, he⟩
  · cases he
    exact absurd hr hend
  · exact ⟨hx, .inl hv⟩
  · cases he
    rw [raise_rstate] at hend
    exact absurd hr hend
  · exact ⟨hx, exec_ends_session hk hr hj he.symm hend⟩
  · obtain ⟨ctrl, width, height, rbufAddr, lutIdx, b0, b1, e0, e1, cur, hdr, rfl⟩ := hset
    cases he
    exact absurd hr hend

end

/-- Settles O9: a command that is not legal is refused with its word, and in a session every write is one of those that
`regWrite_cases` tells apart. -/
theorem commandLegality : Obligations.CommandLegality := by
  refine ⟨fun s i hk hi hw hl => ?_, fun s t x v hk hr ht hgood => ?_, fun s t x v hr ht hend => ?_⟩
  · rw [exec_of_not_legal hk hi hw hl, encode_command_ctx hi s.ctx]
  · exact regWrite_admitted_in_session hk hr ht hgood
  · exact regWrite_ends_session hr ht hend

end Sys2Proof.Machine
end

section
/-! SUPPORT. The block with a fault recorded: what each access, instruction and step still does (R294, R295). -/

namespace Sys2Proof.Machine

/-! Nothing but `SRESET` has an effect (R295). -/

section
variable {s t : State}

/-- R295: a register write is ignored, that of `SRESET` to `CMD` apart. -/
theorem regWrite_of_recorded {i : BitVec 8} {v : Word} (hk : s.fault.kind ≠ 0)
    (hn : ¬ (i = 0x05 ∧ v = 0x0000000F)) : regWrite i v s = .next s := by
  rw [regWrite, if_pos ((State.faulted_iff s).2 hk)]
  exact if_neg hn

/-- R102, R295: the write of the word of `SRESET` to `CMD` performs it. -/
theorem regWrite_sreset_of_recorded (hk : s.fault.kind ≠ 0) : regWrite 0x05 0x0000000F s = exec .sreset s := by
  rw [regWrite, if_pos ((State.faulted_iff s).2 hk)]
  exact if_pos ⟨rfl, rfl⟩

/-- R294: a read changes nothing, since a fault it raises is not recorded. -/
theorem regRead_state_of_recorded (hk : s.fault.kind ≠ 0) (i : BitVec 8) : (regRead i s).2 = s := by
  rcases regRead_state i s with he | ⟨c, a, -, he⟩
  · exact he
  · rw [he, raise_of_recorded hk]

/-- R295, log 16: an instruction is a command, which is then not issued, or a data operation, which is then not
performed. -/
theorem exec_of_recorded (hk : s.fault.kind ≠ 0) {i : Instr} (hi : i ≠ .sreset) : exec i s = .next s := by
  cases i with
  | nop => rfl
  | sreset => exact absurd rfl hi
  | build | decode | rdbit => exact issueSel_of_faulted hk
  | rstart | rstep | rrun | paldec => exact issue_of_faulted hk
  | left | right => exact dataOp_of_faulted hk
  | litDelta | fillDelta | copyDelta | litQuad | fillQuad | copyQuad => exact dataOp_of_faulted hk
  | node => rw [exec, execNode, dataOp_of_faulted hk]
  | leaf => rw [exec, execLeaf, dataOp_of_faulted hk]
  | palword => rw [exec, execPalword, dataOp_of_faulted hk]
  | colourTriple => rw [exec, execColourTriple, dataOp_of_faulted hk]

/-- R37: outside DONE the two raster read ports return 0 and record nothing. -/
theorem regRead_rasterPorts_of_recorded (hk : s.fault.kind ≠ 0) (hd : s.rstate ≠ .done) :
    regRead 0x0E s = (0, s) ∧ regRead 0x0F s = (0, s) :=
  ⟨regRead_guarded_recorded (r := .rbufData) hk (readGuard_rbufData_bad fun ⟨h, _⟩ => hd h),
    regRead_guarded_recorded (r := .pixel) hk (readGuard_pixel_bad fun ⟨_, h, _⟩ => hd h)⟩

end

/-- Settles O10: writes and instructions are refused before they look at anything but the fault record, and what a read
would record is dropped. -/
theorem faultedBlockFrozen : Obligations.FaultedBlockFrozen := by
  intro s hk
  refine ⟨?write, ?sreset, ?readState, ?good, ?guarded, ?unmapped, ?ports, ?instr⟩
  case write => exact fun i v hn => regWrite_of_recorded hk hn
  case sreset => exact regWrite_sreset_of_recorded hk
  case readState => exact fun i => regRead_state_of_recorded hk i
  case good => exact fun r hg => by rw [regRead_good hg]
  case guarded => exact fun r a hg => by rw [regRead_guarded hg]
  case unmapped => exact fun i hi => by rw [regRead_unmapped hi]
  case ports => exact regRead_rasterPorts_of_recorded hk
  case instr => exact fun i hi => exec_of_recorded hk hi

/-! The record stays until a reset (R294, R296). -/

/-- The fault record of `s` and its address stand in `t`. -/
def KeepsFault (s t : State) : Prop := t.fault = s.fault ∧ t.faddr = s.faddr

section
variable {s t : State}

theorem KeepsFault.refl (s : State) : KeepsFault s s := ⟨rfl, rfl⟩

/-- R330: after a reset no fault is recorded. -/
theorem State.toReset_fault_kind (s : State) : s.toReset.fault.kind = 0 := rfl

/-- Log 16: before a data operation the step does nothing but leave the phase. -/
theorem dataStep_of_recorded (hk : s.fault.kind ≠ 0) : dataStep s = .next s.leavePhase :=
  if_pos ((State.faulted_iff s).2 hk)

/-- What an access leaves of the fault record: all of it, or nothing where the access is a reset. -/
theorem access_of_recorded {a : Access} (hk : s.fault.kind ≠ 0) (ht : access a s = .next t) :
    KeepsFault s t ∨ ((a = .rst ∨ a = .write 0x05 0x0000000F) ∧ t.fault.kind = 0) := by
  cases a with
  | read i =>
    cases ht
    have hs : KeepsFault s (regRead i s).2 := by rw [regRead_state_of_recorded hk i]; exact .refl s
    exact .inl hs
  | write i v =>
    change regWrite i v s = .next t at ht
    by_cases hw : i = 0x05 ∧ v = 0x0000000F
    · obtain ⟨rfl, rfl⟩ := hw
      rw [regWrite_sreset_of_recorded hk] at ht
      cases ht
      exact .inr ⟨.inr rfl, s.toReset_fault_kind⟩
    · rw [regWrite_of_recorded hk hw] at ht
      cases ht
      exact .inl (.refl s)
  | rst =>
    cases ht
    exact .inr ⟨.inl rfl, s.toReset_fault_kind⟩
  | pokePmem a v =>
    obtain ⟨-, -, rfl⟩ := poke_next ht
    exact .inl ⟨rfl, rfl⟩
  | pokePalrom a v =>
    obtain ⟨-, -, rfl⟩ := poke_next ht
    exact .inl ⟨rfl, rfl⟩

end

/-- Settles O11: a step is the oldest access, which clears the record only as a reset, or it leaves a data phase. -/
theorem firstFaultStays : Obligations.FirstFaultStays := by
  intro s t hk ht
  by_cases hp : s.work.phase = .idle
  · rcases step_cases hp ht with ⟨-, rfl⟩ | ⟨a, rest, hq, ha⟩
    · exact .inl (KeepsFault.refl _)
    · rw [hq]
      rcases access_of_recorded (s := { s with pending := rest }) hk ha with hkeep | ⟨hr, h0⟩
      · exact .inl hkeep
      · exact .inr ⟨hr.imp (congrArg some) (congrArg some), h0⟩
  · have hstep : step s = dataStep s := if_neg hp
    rw [hstep, dataStep_of_recorded hk] at ht
    cases ht
    exact .inl ⟨rfl, rfl⟩

end Sys2Proof.Machine
end

section
/-! SUPPORT. Reset and what follows it (R330 to R333), and that no input of the host stops the block (R338): the state
after reset as its registers show it, a reset from every state, and the answer to each access that R82 allows. -/

namespace Sys2Proof.Machine

/-! A step that always answers (R333, R338). -/

section
variable {s : State} {a : Access} {rest : List Access} {n : Nat}

/-- R333: with no access pending and no data operation in progress the block waits. -/
theorem step_waits (h : s.work.phase = .idle) (hp : s.pending = []) : step s = .next s := by
  rw [step_idle h, hostStep, hp]

/-- R82 where the next access writes PMEM. -/
theorem hostObeys_pokePmem {v : Byte} (hp : s.pending = .pokePmem n v :: rest) :
    HostObeys s ↔ s.rstate ≠ .run ∧ n < s.cfg.pmemBytes := by rw [HostObeys, hp]

/-- R82 where the next access writes PALROM. -/
theorem hostObeys_pokePalrom {v : Half} (hp : s.pending = .pokePalrom n v :: rest) :
    HostObeys s ↔ s.rstate ≠ .run ∧ n < s.cfg.palromWords := by rw [HostObeys, hp]

/-- R338: every access that R82 allows answers a next state. -/
theorem access_answers (h : Inv s) (ho : HostObeys s) (hp : s.pending = a :: rest) :
    ∃ t, access a { s with pending := rest } = .next t := by
  cases a with
  | read i => exact ⟨_, rfl⟩
  | write i v =>
    obtain ⟨t, ht, -⟩ := regWrite_keeps (i := i) (v := v) (h.host rest s.returned)
    exact ⟨t, ht⟩
  | rst => exact ⟨_, rfl⟩
  | pokePmem n v =>
    obtain ⟨hr, hn⟩ := (hostObeys_pokePmem hp).1 ho
    exact ⟨_, poke_inside hr hn⟩
  | pokePalrom n v =>
    obtain ⟨hr, hn⟩ := (hostObeys_pokePalrom hp).1 ho
    exact ⟨_, poke_inside hr hn⟩

end

/-- Settles O56: with nothing pending the block waits, and the oldest access is one that R82 allows. -/
theorem stepNeverStops : Obligations.StepNeverStops := by
  intro s h ho
  cases hp : s.pending with
  | nil => exact ⟨s, step_waits h.phase_idle hp⟩
  | cons a rest =>
    rw [step_pending h.phase_idle hp]
    exact access_answers h ho hp

/-- Settles O4: after reset nothing is pending and no data operation is in progress. -/
theorem waitsForHost : Obligations.WaitsForHost := ⟨step_waits rfl rfl, fun _ => step_waits⟩

/-! The state after reset (R331). -/

@[simp] theorem State.reset_cur (c : Role) : State.reset.cur.get c = .reset := PerRole.all_get _ c
@[simp] theorem State.reset_hdr (t : Role) : State.reset.hdr.get t = .reset := PerRole.all_get _ t
@[simp] theorem State.reset_tree (t : Role) : State.reset.tree.get t = .reset := PerRole.all_get _ t

/-- R331: of the registers that are no read ports, `ID` and `FAULT` alone are not 0 after reset. -/
theorem regValue_reset {r : Reg} (h : r.isPort = false) (hid : r ≠ .id) (hfault : r ≠ .fault) :
    regValue r State.reset = 0 := by
  cases r with
  | id => exact absurd rfl hid
  | fault => exact absurd rfl hfault
  | rbufData | pixel | lutOut | lutRaw => cases h
  | curBase c | curLen c | curOff c | curEnd c => rw [regValue, State.reset_cur]; rfl
  | hdrShapeBase t | hdrShapeBits t | hdrPermBase t | hdrPermCount t | treeCfg t => rw [regValue, State.reset_hdr]; rfl
  | treeNodes t => rw [regValue, State.reset_tree]; rfl
  | _ => rfl

/-- R331: no read port can be read after reset, and the index each of them would record is 0. -/
theorem readGuard_reset {r : Reg} (h : r.isPort = true) : readGuard r State.reset = some (0 : Word).toNat := by
  cases r with
  | rbufData | pixel | lutOut | lutRaw => rfl
  | _ => cases h

/-- Settles O1: each register is a port, whose guard fails, or shows what reset left in it. -/
theorem resetLeavesRegisters : Obligations.ResetLeavesRegisters := by
  refine ⟨fun r hr => ?_, fun r hr => regRead_guarded_none rfl (readGuard_reset hr), fun t => ?_,
    rfl, rfl, rfl, rfl, rfl, rfl⟩
  · rw [regRead_not_port hr]
    split
    · rfl
    · rfl
    · next hid hfault => rw [regValue_reset hr hid hfault]
  · rw [State.reset_tree, State.reset_hdr]
    exact ⟨rfl, rfl⟩

/-! A reset from every state (R330, R332). -/

/-- What a reset does not touch, no register shows. -/
theorem regValue_toReset (r : Reg) (s : State) : regValue r s.toReset = regValue r State.reset := by
  cases r <;> rfl

/-- Settles O2: both events are `State.toReset`, and reads of it return what they return after reset. -/
theorem resetEventsAgree : Obligations.ResetEventsAgree := by
  refine fun s => ⟨s.toReset, rfl, rfl, fun r hr => ?_, fun c => ?_, rfl, rfl, rfl, rfl, rfl, rfl, rfl⟩
  · rw [regRead_not_port hr, regRead_not_port hr, regValue_toReset]
  · exact congrArg TreeMem.valid (State.reset_tree c)

end Sys2Proof.Machine
end

section
/-! SUPPORT. `BUILD` and the code trees of headers (R160, R163): the tree it stores, and the headers it accepts. -/

namespace Sys2Proof.Machine

section
variable {s u : State} {t : Role} {tr : CodeTree} {k : Cause}

/-- R163: a tree that a header describes is small enough for `TREE_NODES` to count its nodes. -/
theorem HeaderHolds.count_toNat (h : HeaderHolds s t tr) : (BitVec.ofNat 10 tr.size).toNat = tr.size := by
  obtain ⟨-, -, -, -, hsz, -⟩ := h
  have hmax := nodeMax_le (s.hdr.get t).domain
  exact Nat.mod_eq_of_lt (by omega)

/-- R291, R292: the codes of the faults of a header. -/
theorem buildFault.codes (h : buildFault k) :
    (k.kind = 1 ∧ 1 ≤ k.sub.toNat ∧ k.sub.toNat ≤ 6) ∨ (k.kind = 4 ∧ k.sub = 2) := by
  rcases h with rfl | rfl | rfl | rfl | rfl | rfl | rfl
  case inr.inr.inr.inr.inr.inr => exact .inr (by decide)
  all_goals exact .inl (by decide)

/-- A build from the cleared tree that faults has changed tree memory `t`'s nodes and the fault record. -/
theorem BuildHalts.eq_faultedWith (hk : s.fault.kind = 0) (h : BuildHalts (clearTree t s) t u) :
    ∃ k m a, buildFault k ∧
      u = (s.setTree t { nodes := m, count := 0, valid := false }).faultedWith k.kind k.sub (headerUnit t) a := by
  obtain ⟨k, m, o, hb, -, rfl⟩ := h
  have hw : (clearTree t s).withNodes t m = s.setTree t { nodes := m, count := 0, valid := false } := by
    simp [clearTree, State.withNodes, State.setTree_setTree]
  exact ⟨k, m, _, hb, by rw [hw]; exact raise_eq_faultedWith hk⟩

/-- R163: no build of a header that describes a tree of at least two leaves faults. -/
theorem HeaderHolds.not_halt (h : HeaderHolds s t tr) (h1 : 1 < tr.size) : buildTree t s ≠ .halt u := by
  rw [buildTree_ok h h1]
  exact fun he => nomatch he

end

/-- Settles O24: the build of the header is the tree's preorder layout, in tree memory `t` alone. -/
theorem buildStoresHeaderTree : Obligations.BuildStoresHeaderTree :=
  fun _ _ tr hk hr hh h1 => ⟨_, hh.exec_build h1 hk hr, rfl, hh.count_toNat, tr.laidAt_store 0 []⟩

/-- Settles O25: a build ends with a tree of the header stored, or with a fault of the header, which excludes that the
header describes a tree. -/
theorem buildAcceptsExactly : Obligations.BuildAcceptsExactly := by
  intro s t hk hr
  obtain ⟨u, hu, ⟨_, -, tr, hh, h1, rfl⟩ | ⟨hrun, hhalt⟩⟩ := (buildTree_cases t s).outcome
  · have hgood : (s.built t tr).fault.kind = 0 := hk
    exact ⟨_, hh.exec_build h1 hk hr, iff_of_true hgood ⟨tr, hh, h1⟩, fun hbad => absurd hgood hbad⟩
  · obtain ⟨k, m, a, hb, rfl⟩ := hhalt.eq_faultedWith hk
    have hrejected : ¬ ∃ tr, HeaderHolds s t tr ∧ 1 < tr.size := fun ⟨_, hh, h1⟩ => hh.not_halt h1 hrun
    refine ⟨_, (exec_build_of_not_run hk hr).trans hu, iff_of_false k.kind_ne_zero hrejected, fun _ => ?_⟩
    have hget := PerRole.get_set_self s.tree t { nodes := m, count := 0, valid := false }
    refine ⟨congrArg TreeMem.valid hget, congrArg TreeMem.count hget, rfl, hb.codes, ?_⟩
    exact (congrArg (fun x => (s.setTree t x).faultedWith k.kind k.sub (headerUnit t) a) hget).symm

end Sys2Proof.Machine
end

section
/-! SUPPORT. The decoder and the encoder are inverse to each other (R100): format by format, the fields of an encoded
word and the word of the fields decoded. -/

namespace Sys2Proof

/-! Packed palette words (R115). -/

/-- A packed word: the opaque flag, then three channels, the highest first. -/
def packedWord (o : Bool) (x y z : BitVec 5) : Word := (0 : Half) ++ BitVec.ofBool o ++ x ++ y ++ z

section
variable {w : Word} (o : Bool) (x y z : BitVec 5)

theorem packedWord_lo : (packedWord o x y z).extractLsb' 0 5 = z := BitVec.extractLsb'_append_eq_right

theorem packedWord_mid : (packedWord o x y z).extractLsb' 5 5 = y :=
  (BitVec.extractLsb'_append_eq_of_le (by decide)).trans BitVec.extractLsb'_append_eq_right

theorem packedWord_hi : (packedWord o x y z).extractLsb' 10 5 = x :=
  (BitVec.extractLsb'_append_eq_of_le (by decide)).trans
    ((BitVec.extractLsb'_append_eq_of_le (by decide)).trans BitVec.extractLsb'_append_eq_right)

theorem packedWord_flag : (packedWord o x y z).getLsbD 15 = o := by
  simp only [packedWord, BitVec.getLsbD_append]
  simp

theorem packedWord_upper : (packedWord o x y z).extractLsb' 16 16 = 0 := by
  apply BitVec.eq_of_getLsbD_eq
  intro i hi
  simp only [packedWord, BitVec.getLsbD_extractLsb', BitVec.getLsbD_append]
  simp [show ¬ 16 + i < 5 by omega, show ¬ 16 + i - 5 < 5 by omega, show ¬ 16 + i - 5 - 5 < 5 by omega,
    show 16 + i - 5 - 5 - 5 ≠ 0 by omega]

/-- A word whose bits [31:16] are 0 is the packed word of its four fields. -/
theorem packedWord_fields (h : w.extractLsb' 16 16 = 0) :
    packedWord (w.getLsbD 15) (w.extractLsb' 10 5) (w.extractLsb' 5 5) (w.extractLsb' 0 5) = w := by
  have hflag : BitVec.ofBool (w.getLsbD 15) = w.extractLsb' 15 1 := by
    apply BitVec.eq_of_getLsbD_eq
    intro i hi
    obtain rfl : i = 0 := by omega
    simp
  have join : ∀ {i j m n : Nat}, j = i + m → w.extractLsb' j n ++ w.extractLsb' i m = w.extractLsb' i (n + m) :=
    BitVec.extractLsb'_append_extractLsb'_eq_extractLsb'
  rw [packedWord, hflag, ← h, join (j := 16) (m := 1) rfl, join (j := 15) (m := 5) rfl,
    join (j := 10) (m := 5) rfl, join (j := 5) (m := 5) rfl]
  exact BitVec.extractLsb'_eq_self

end

/-! From an instruction to its word and back. -/

section
variable (c : Ctx)

/-- R115, U11: the channels of a packed word in either order. -/
theorem decodePalword_packedWord (order : PackedOrder) (o : Bool) (x y z : BitVec 5) :
    decodePalword order (packedWord o x y z) =
      .ok (match order with | .rgbHigh => .palword o x y z | .bgrHigh => .palword o z y x) := by
  simp only [decodePalword, packedWord_upper, packedWord_hi, packedWord_mid, packedWord_lo, packedWord_flag, ne_eq,
    not_true, if_false]
  cases order <;> rfl

theorem decodePalword_encode (o : Bool) (r g b : BitVec 5) :
    decodePalword c.order (encode c (.palword o r g b)) = .ok (.palword o r g b) := by
  obtain ⟨width, order⟩ := c
  cases order with
  | rgbHigh => exact decodePalword_packedWord .rgbHigh o r g b
  | bgrHigh => exact decodePalword_packedWord .bgrHigh o b g r

/-- R113: a DELTA tuple is read by its three low bytes. -/
theorem decodeDelta_tupleWord (delta n v : Byte) : decodeDelta (tupleWord 0 delta n v) =
    .ok (if delta = 0 then if n = 0 then .litDelta v else .fillDelta n v else .copyDelta delta n v) := by
  simp only [decodeDelta, tupleWord_dy, tupleWord_dx, tupleWord_runlen, tupleWord_value, ne_eq, not_true, if_false]
  split_ifs <;> rfl

/-- R113: a QUAD tuple is read by its four bytes and the WIDTH. -/
theorem decodeQuad_tupleWord (width : BitVec 16) (dy dx n v : Byte) : decodeQuad width (tupleWord dy dx n v) =
    .ok (if quadOffsetZero width dy dx then if n = 0 then .litQuad dy dx v else .fillQuad dy dx n v
      else .copyQuad dy dx n v) := by
  simp only [decodeQuad, tupleWord_dy, tupleWord_dx, tupleWord_runlen, tupleWord_value]
  split_ifs <;> rfl

/-- R116: a triple of colour symbols of at most 31 is read back. -/
theorem decodeColour_tupleWord {r g b : Byte} (h : (Instr.colourTriple r g b).wellFormed = true) :
    decodeColour (tupleWord 0 r g b) = .ok (.colourTriple r g b) := by
  simp only [decodeColour, tupleWord_dy, tupleWord_dx, tupleWord_runlen, tupleWord_value, ne_eq, not_true, if_false]
  exact if_pos h

end

/-- Settles O58: each format's decoder finds the operands where the encoder has put them. -/
theorem decodeEncode : Obligations.DecodeEncode := by
  intro c i hw hc
  cases i with
  | nop | build | decode | rdbit | rstart | rstep | rrun | paldec | sreset => exact decodeCmd_encode c rfl
  | node | leaf | left | right => rfl
  | litDelta v => exact decodeDelta_tupleWord 0 0 v
  | fillDelta n v =>
    have hn : n ≠ 0 := bne_iff_ne.1 hw
    exact (decodeDelta_tupleWord 0 n v).trans (by rw [if_pos rfl, if_neg hn])
  | copyDelta d n v =>
    have hd : d ≠ 0 := bne_iff_ne.1 hw
    exact (decodeDelta_tupleWord d n v).trans (by rw [if_neg hd])
  | litQuad dy dx v =>
    have hz : quadOffsetZero c.width dy dx = true := hc
    exact (decodeQuad_tupleWord c.width dy dx 0 v).trans (by rw [if_pos hz, if_pos rfl])
  | fillQuad dy dx n v =>
    have hz : quadOffsetZero c.width dy dx = true := hc
    have hn : n ≠ 0 := bne_iff_ne.1 hw
    exact (decodeQuad_tupleWord c.width dy dx n v).trans (by rw [if_pos hz, if_neg hn])
  | copyQuad dy dx n v =>
    have hz : ¬ quadOffsetZero c.width dy dx = true := by simpa [Instr.classHolds] using hc
    exact (decodeQuad_tupleWord c.width dy dx n v).trans (by rw [if_neg hz])
  | palword o r g b => exact decodePalword_encode c o r g b
  | colourTriple r g b => exact decodeColour_tupleWord hw

/-! From a word to its instruction and back. -/

/-- A selector above 4, which the decoder keeps and the command refuses (R103). -/
def SelectorAbove (i : Instr) : Prop :=
  ∃ sel : BitVec 4, 4 < sel.toNat ∧ (i = .build sel ∨ i = .decode sel ∨ i = .rdbit sel)

/-- The instruction is of the format, its class is that of the WIDTH, and `w` is its word. -/
def ReadBack (c : Ctx) (f : Format) (w : Word) (i : Instr) : Prop :=
  encode c i = w ∧ i.format = f ∧ i.classHolds c.width = true ∧ (i.wellFormed = true ∨ SelectorAbove i)

section
variable {c : Ctx} {w : Word} {i : Instr}

/-- R113: only a QUAD token's class depends on the WIDTH. -/
theorem command_classHolds (hi : i.format = .cmd) (width : BitVec 16) : i.classHolds width = true := by
  cases i with
  | nop | build | decode | rdbit | rstart | rstep | rrun | paldec | sreset => rfl
  | _ => cases hi

/-- R102: a command is well-formed but for its selector. -/
theorem command_wellFormed_or (hi : i.format = .cmd) : i.wellFormed = true ∨ SelectorAbove i := by
  have bySelector : ∀ {sel : BitVec 4}, (i = .build sel ∨ i = .decode sel ∨ i = .rdbit sel) →
      selectorOk sel = true ∨ SelectorAbove i := by
    intro sel hs
    by_cases hle : sel.toNat ≤ 4
    · exact .inl (decide_eq_true hle)
    · exact .inr ⟨sel, Nat.not_le.1 hle, hs⟩
  cases i with
  | build sel => exact bySelector (.inl rfl)
  | decode sel => exact bySelector (.inr (.inl rfl))
  | rdbit sel => exact bySelector (.inr (.inr rfl))
  | nop | rstart | rstep | rrun | paldec | sreset => exact .inl rfl
  | _ => cases hi

theorem readBack_of_decodeCmd (h : decodeCmd w = .ok i) : ReadBack c .cmd w i :=
  have hi := Machine.decodeCmd_format h
  ⟨encode_of_decodeCmd h c, hi, command_classHolds hi _, command_wellFormed_or hi⟩

/-- R105, R107: a word of one bit, for the two instructions of its format. -/
theorem readBack_of_oneBit {f : Format} {a b : Instr} (ha : ReadBack c f 0 a) (hb : ReadBack c f 1 b)
    (h : (if w = 0 then .ok a else if w = 1 then .ok b else .error .notOneBit : Except Reject Instr) = .ok i) :
    ReadBack c f w i := by
  split at h
  · next hw => cases h; exact hw ▸ ha
  · split at h
    · next hw => cases h; exact hw ▸ hb
    · cases h

theorem readBack_of_decodeShape (h : decodeShape w = .ok i) : ReadBack c .shape w i :=
  readBack_of_oneBit (a := .node) (b := .leaf) ⟨rfl, rfl, rfl, .inl rfl⟩ ⟨rfl, rfl, rfl, .inl rfl⟩ h

theorem readBack_of_decodePath (h : decodePath w = .ok i) : ReadBack c .path w i :=
  readBack_of_oneBit (a := .left) (b := .right) ⟨rfl, rfl, rfl, .inl rfl⟩ ⟨rfl, rfl, rfl, .inl rfl⟩ h

/-- A word is the tuple of its bytes, also where one of them is known. -/
theorem tupleWord_eq_of_bytes {dy dx n v : Byte} (hdy : w.extractLsb' 24 8 = dy) (hdx : w.extractLsb' 16 8 = dx)
    (hn : w.extractLsb' 8 8 = n) (hv : w.extractLsb' 0 8 = v) : tupleWord dy dx n v = w := by
  rw [← hdy, ← hdx, ← hn, ← hv, tupleWord_bytes]

theorem readBack_of_decodeQuad (h : decodeQuad c.width w = .ok i) : ReadBack c .tokenQuad w i := by
  unfold decodeQuad at h
  simp only at h
  split at h
  · rename_i hz
    split at h
    · rename_i hn
      cases h
      exact ⟨tupleWord_eq_of_bytes rfl rfl hn rfl, rfl, hz, .inl rfl⟩
    · rename_i hn
      cases h
      exact ⟨tupleWord_bytes w, rfl, hz, .inl (bne_iff_ne.2 hn)⟩
  · rename_i hz
    cases h
    exact ⟨tupleWord_bytes w, rfl, by simpa [Instr.classHolds] using hz, .inl rfl⟩

theorem readBack_of_decodeDelta (h : decodeDelta w = .ok i) : ReadBack c .tokenDelta w i := by
  unfold decodeDelta at h
  simp only at h
  split at h
  · cases h
  · rename_i hu
    have hu := not_not.1 hu
    split at h
    · rename_i hd
      split at h
      · rename_i hn
        cases h
        exact ⟨tupleWord_eq_of_bytes hu hd hn rfl, rfl, rfl, .inl rfl⟩
      · rename_i hn
        cases h
        exact ⟨tupleWord_eq_of_bytes hu hd rfl rfl, rfl, rfl, .inl (bne_iff_ne.2 hn)⟩
    · rename_i hd
      cases h
      exact ⟨tupleWord_eq_of_bytes hu rfl rfl rfl, rfl, rfl, .inl (bne_iff_ne.2 hd)⟩

theorem readBack_of_decodePalword (h : decodePalword c.order w = .ok i) : ReadBack c .palword w i := by
  unfold decodePalword at h
  simp only at h
  split at h
  · cases h
  · rename_i hu
    have hw := packedWord_fields (not_not.1 hu)
    obtain ⟨width, order⟩ := c
    cases order with
    | rgbHigh => cases h; exact ⟨hw, rfl, rfl, .inl rfl⟩
    | bgrHigh => cases h; exact ⟨hw, rfl, rfl, .inl rfl⟩

theorem readBack_of_decodeColour (h : decodeColour w = .ok i) : ReadBack c .colour w i := by
  unfold decodeColour at h
  simp only at h
  split at h
  · cases h
  · rename_i hu
    split at h
    · rename_i hw
      cases h
      exact ⟨tupleWord_eq_of_bytes (not_not.1 hu) rfl rfl rfl, rfl, rfl, .inl hw⟩
    · cases h

end

/-- Settles O59: in each format the fields a word is decoded to are those it is put together from. -/
theorem encodeDecode : Obligations.EncodeDecode := by
  intro c f w i h
  cases f with
  | cmd => exact readBack_of_decodeCmd h
  | shape => exact readBack_of_decodeShape h
  | path => exact readBack_of_decodePath h
  | tokenQuad => exact readBack_of_decodeQuad h
  | tokenDelta => exact readBack_of_decodeDelta h
  | palword => exact readBack_of_decodePalword h
  | colour => exact readBack_of_decodeColour h

/-- Settles O60: each word is decoded as it stands. -/
theorem writtenWordsDecode : Obligations.WrittenWordsDecode := by
  unfold Obligations.WrittenWordsDecode
  decide

end Sys2Proof
end

section
/-! SUPPORT. The working values held for the data operations (log 8): the parts of a command neither look at them nor
change them. -/

namespace Sys2Proof.Machine

/-- The working values replaced. -/
def State.withWork (s : State) (w : Work) : State := { s with work := w }

theorem raise_withWork (c : Cause) (u : BitVec 4) (a : Nat) (s : State) (w : Work) :
    raise c u a (s.withWork w) = (raise c u a s).withWork w := by
  by_cases hk : s.fault.kind = 0
  · rw [raise_of_none hk, raise_of_none (s := s.withWork w) hk]
    rfl
  · rw [raise_of_recorded hk, raise_of_recorded (s := s.withWork w) hk]

section
variable {α β : Type}

/-- A command in progress with its working values replaced. -/
def Run.withWork (w : Work) : Run α → Run α
  | .ok a s => .ok a (s.withWork w)
  | .halt s => .halt (s.withWork w)
  | .stop e => .stop e

/-- A part of a command for which the working values make no difference, and which leaves them as they are. -/
def IgnoresWork (f : State → Run α) : Prop := ∀ (s : State) (w : Work), f (s.withWork w) = (f s).withWork w

theorem IgnoresWork.raise (c : Cause) (u : BitVec 4) (a : State → Nat) (ha : ∀ s w, a (s.withWork w) = a s) :
    IgnoresWork (fun s => (Run.raise c u (a s) s : Run α)) := fun s w =>
  congrArg Run.halt ((raise_withWork c u _ s w).trans (by rw [ha]))

theorem IgnoresWork.bind {f : State → Run α} {g : α → State → Run β} (hf : IgnoresWork f)
    (hg : ∀ a, IgnoresWork (g a)) : IgnoresWork (fun s => (f s).bind g) := by
  intro s w
  show (f (s.withWork w)).bind g = ((f s).bind g).withWork w
  rw [hf]
  cases f s with
  | ok a u => exact hg a u w
  | halt u => rfl
  | stop e => rfl

/-- A choice by something that is no working value. -/
theorem IgnoresWork.ite {p : State → Prop} [DecidablePred p] {f g : State → Run α} (hp : ∀ s w, p (s.withWork w) ↔ p s)
    (hf : IgnoresWork f) (hg : IgnoresWork g) : IgnoresWork (fun s => if p s then f s else g s) := by
  intro s w
  by_cases h : p s
  · simp only [if_pos h, if_pos ((hp s w).2 h), hf s w]
  · simp only [if_neg h, if_neg (mt (hp s w).1 h), hg s w]

end

theorem memRead_ignoresWork (a : Nat) (u : BitVec 4) (addr : Nat) : IgnoresWork (memRead a u addr) :=
  .ite (fun _ _ => Iff.rfl) (.raise _ _ _ fun _ _ => rfl) fun _ _ => rfl

/-! The parts of `BUILD`. -/

theorem allocNode_ignoresWork (t : Role) (b : BuildWork) : IgnoresWork (allocNode t b) :=
  .ite (fun _ _ => Iff.rfl) (.raise _ _ _ fun _ _ => rfl) fun _ _ => rfl

theorem hdrBit_ignoresWork (t : Role) (b : BuildWork) : IgnoresWork (hdrBit t b) := by
  refine .ite (fun _ _ => Iff.rfl) (.raise _ _ _ fun _ _ => rfl) fun s w => ?_
  refine IgnoresWork.bind (memRead_ignoresWork _ _ _) (fun v => ?_) s w
  exact fun _ _ => rfl

theorem beginNode_ignoresWork (t : Role) (b : BuildWork) : IgnoresWork (beginNode t b) :=
  (allocNode_ignoresWork t b).bind fun x => (hdrBit_ignoresWork t x.2).bind fun _ _ _ => rfl

theorem permNext_ignoresWork (t : Role) (b : BuildWork) : IgnoresWork (permNext t b) := by
  refine .ite (fun _ _ => Iff.rfl) (.raise _ _ _ fun _ _ => rfl) fun s w => ?_
  refine IgnoresWork.bind (memRead_ignoresWork _ _ _) (fun v => ?_) s w
  exact .ite (fun _ _ => Iff.rfl) (.raise _ _ _ fun _ _ => rfl) fun _ _ => rfl

theorem closeLeaf_ignoresWork (t : Role) (i : Nat) (b : BuildWork) : IgnoresWork (closeLeaf t i b) := by
  refine (permNext_ignoresWork t b).bind fun x s w => ?_
  cases x.2.owed with
  | nil => rfl
  | cons p rest => rfl

theorem buildStep_ignoresWork (t : Role) (b : BuildWork) : IgnoresWork (buildStep t b) := by
  refine (beginNode_ignoresWork t b).bind fun x => ?_
  cases x.2.1 with
  | true => exact closeLeaf_ignoresWork t x.1 x.2.2
  | false => exact fun _ _ => rfl

/-! The bit that `DECODE` reads. -/

theorem readBit_ignoresWork (c : Role) : IgnoresWork (readBit c) :=
  .ite (fun _ _ => Iff.rfl) (.raise _ _ _ fun _ _ => rfl) <|
    .ite (fun _ _ => Iff.rfl) (.raise _ _ _ fun _ _ => rfl) <|
      .ite (fun _ _ => Iff.rfl) (.raise _ _ _ fun _ _ => rfl) fun _ _ => rfl

end Sys2Proof.Machine
end

section
/-! SUPPORT. `NODE` and `LEAF` (R170): what each does where no check fails, and which check ends it where one does
(R160 to R162). -/

namespace Sys2Proof.Machine

section
variable {s : State} {t : Role} {b c : BuildWork} {i : Nat} {v : Byte}

/-! The beginning of a node (R160, R161). -/

theorem beginNode_of_bit (hn : b.nodes ≠ nodeMax (s.hdr.get t).domain) (hb : b.hoff < (s.hdr.get t).shapeBits.toNat)
    (hm : (s.hdr.get t).shapeBase.toNat + b.hoff / 8 < s.cfg.pmemBytes) :
    beginNode t b s = .ok (b.nodes, pmemBit s.pmem (s.hdr.get t).shapeBase.toNat b.hoff,
      { b with hoff := b.hoff + 1, nodes := b.nodes + 1 }) s :=
  beginNode_ok hn (ShapeFrom.cons_iff.2 ⟨⟨hb, hm, rfl⟩, .nil _ _ _⟩)

theorem beginNode_of_full (hn : b.nodes = nodeMax (s.hdr.get t).domain) :
    beginNode t b s = Run.raise .treeTooLarge (headerUnit t) b.hoff s := by
  rw [beginNode, allocNode, if_pos hn, Run.bind_raise]

theorem memRead_of_le {a o : Nat} {u : BitVec 4} (h : s.cfg.pmemBytes ≤ a) :
    memRead a u o s = Run.raise .pmemAddress u o s := if_pos h

theorem memRead_of_lt {a o : Nat} {u : BitVec 4} (h : a < s.cfg.pmemBytes) :
    memRead a u o s = .ok (Memory.read s.pmem a) s := if_neg (Nat.not_le.2 h)

theorem beginNode_of_outside (hn : b.nodes ≠ nodeMax (s.hdr.get t).domain)
    (hb : b.hoff < (s.hdr.get t).shapeBits.toNat)
    (hm : s.cfg.pmemBytes ≤ (s.hdr.get t).shapeBase.toNat + b.hoff / 8) :
    beginNode t b s = Run.raise .pmemAddress (headerUnit t) b.hoff s := by
  rw [beginNode, allocNode, if_neg hn, Run.bind_ok, hdrBit, if_neg (Nat.not_le.2 hb), memRead_of_le hm]
  rfl

/-! The permutation entry of a leaf (R162). -/

theorem permNext_of_none_left (hu : b.used = (s.hdr.get t).permCount.toNat) :
    permNext t b s = Run.raise .permExhausted (headerUnit t) b.hoff s := if_pos hu

theorem permNext_of_outside (hu : b.used ≠ (s.hdr.get t).permCount.toNat)
    (hm : s.cfg.pmemBytes ≤ (s.hdr.get t).permBase.toNat + b.used) :
    permNext t b s = Run.raise .pmemAddress (headerUnit t) b.hoff s := by
  rw [permNext, if_neg hu, memRead_of_le hm, Run.bind_raise]

theorem permNext_of_leafRange (hu : b.used ≠ (s.hdr.get t).permCount.toNat)
    (hm : (s.hdr.get t).permBase.toNat + b.used < s.cfg.pmemBytes) (hd : (s.hdr.get t).domain = .nibble)
    (hv : 16 ≤ (Memory.read s.pmem ((s.hdr.get t).permBase.toNat + b.used)).toNat) :
    permNext t b s = Run.raise .leafRange (headerUnit t) b.hoff s := by
  rw [permNext, if_neg hu, memRead_of_lt hm, Run.bind_ok, if_pos ⟨hd, hv⟩]

theorem permNext_of_entry (hu : b.used ≠ (s.hdr.get t).permCount.toNat)
    (hm : (s.hdr.get t).permBase.toNat + b.used < s.cfg.pmemBytes)
    (hv : Memory.read s.pmem ((s.hdr.get t).permBase.toNat + b.used) = v)
    (hd : (s.hdr.get t).domain = .nibble → v.toNat < 16) :
    permNext t b s = .ok (v, { b with used := b.used + 1 }) s := by
  rw [permNext, if_neg hu, memRead_of_lt hm, Run.bind_ok, hv, if_neg]
  exact fun ⟨hn, h16⟩ => Nat.not_le.2 (hd hn) h16

/-! The end of a leaf (R277). -/

/-- No node owes a right child: the tree closes. -/
theorem closeLeaf_of_root (hp : permNext t b s = .ok (v, c) s) (ho : c.owed = []) :
    closeLeaf t i b s = .ok { c with closed := true }
      (s.withNodes t (cellsPut (s.tree.get t).nodes i (.leaf v))) := by
  rw [closeLeaf, hp, Run.bind_ok]
  simp only [ho, putNode_eq]

/-- The nearest node that owes a right child gets the next index and is linked. -/
theorem closeLeaf_of_owed {p : Nat} {rest : List Nat} (hp : permNext t b s = .ok (v, c) s) (ho : c.owed = p :: rest) :
    closeLeaf t i b s = .ok { c with owed := rest } (s.withNodes t
      (cellsPut (cellsPut (s.tree.get t).nodes i (.leaf v)) p (.inner (p + 1) c.nodes))) := by
  rw [closeLeaf, hp, Run.bind_ok]
  simp only [ho, putNode_eq, State.withNodes_get, State.withNodes_withNodes]

/-! The operations. -/

theorem exec_node_of_none (hk : s.fault.kind = 0) : exec .node s =
    ((beginNode s.work.tree s.work.build s).bind fun x u => (openNode x.1 x.2.2 u).bind keepBuild).outcome := by
  rw [exec, execNode, dataOp_of_none hk]

theorem exec_leaf_of_none (hk : s.fault.kind = 0) : exec .leaf s =
    ((beginNode s.work.tree s.work.build s).bind fun x u =>
      (closeLeaf u.work.tree x.1 x.2.2 u).bind keepBuild).outcome := by
  rw [exec, execLeaf, dataOp_of_none hk]

/-- A check of the beginning that fails ends both operations. -/
theorem exec_shape_of_beginNode_raise {j : Instr} {k : Cause} {u : BitVec 4} {a : Nat} (hk : s.fault.kind = 0)
    (hj : j = .node ∨ j = .leaf) (h : beginNode s.work.tree s.work.build s = Run.raise k u a s) :
    exec j s = .next (s.faultedWith k.kind k.sub u (BitVec.ofNat 32 a)) := by
  rw [← raise_eq_faultedWith hk]
  rcases hj with rfl | rfl
  · rw [exec_node_of_none hk, h, Run.bind_raise, Run.outcome_raise]
  · rw [exec_leaf_of_none hk, h, Run.bind_raise, Run.outcome_raise]

/-- A check of the permutation entry that fails ends a leaf. -/
theorem exec_leaf_of_permNext_raise {bit : Bool} {k : Cause} {u : BitVec 4} {a : Nat} (hk : s.fault.kind = 0)
    (hb : beginNode s.work.tree s.work.build s = .ok (i, bit, b) s)
    (hp : permNext s.work.tree b s = Run.raise k u a s) :
    exec .leaf s = .next (s.faultedWith k.kind k.sub u (BitVec.ofNat 32 a)) := by
  rw [← raise_eq_faultedWith hk, exec_leaf_of_none hk, hb, Run.bind_ok, closeLeaf, hp, Run.bind_raise, Run.bind_raise,
    Run.outcome_raise]

/-- A leaf whose entry is read: what its end leaves, with the build's values kept. -/
theorem exec_leaf_of_closeLeaf {bit : Bool} {u : State} (hk : s.fault.kind = 0)
    (hb : beginNode s.work.tree s.work.build s = .ok (i, bit, b) s)
    (hc : closeLeaf s.work.tree i b s = .ok c u) :
    exec .leaf s = .next { u with work := { u.work with build := c } } := by
  rw [exec_leaf_of_none hk, hb, Run.bind_ok, hc, Run.bind_ok]
  rfl

end

/-- Settles O28: the bit and the entry are read, and the list of the owed right children decides the leaf's end. -/
theorem shapeOperations : Obligations.ShapeOperations := by
  rintro s _ _ hk rfl rfl hn hb hm
  have hbegin := beginNode_of_bit hn hb hm
  refine ⟨?_, fun v hu hpm hv hd => ?_⟩
  · rw [exec_node_of_none hk, hbegin]
    rfl
  · have hperm := permNext_of_entry
      (b := { s.work.build with hoff := s.work.build.hoff + 1, nodes := s.work.build.nodes + 1 }) hu hpm hv hd
    refine ⟨fun ho => ?_, fun p rest ho => ?_⟩
    · rw [exec_leaf_of_closeLeaf hk hbegin (closeLeaf_of_root hperm ho)]
      simp only [ho]
      rfl
    · exact exec_leaf_of_closeLeaf hk hbegin (closeLeaf_of_owed hperm ho)

/-- Settles O29: each clause is the first check that fails, in the beginning of the node or in the entry of the leaf. -/
theorem shapeOperationFaults : Obligations.ShapeOperationFaults := by
  rintro s _ _ i hk rfl rfl hi
  refine ⟨fun hn => exec_shape_of_beginNode_raise hk hi (beginNode_of_full hn), fun hn => ⟨fun hb => ?_,
    fun hb => ⟨fun hm => ?_, ?_⟩⟩⟩
  · exact exec_shape_of_beginNode_raise hk hi (beginNode_of_no_bit hn hb)
  · exact exec_shape_of_beginNode_raise hk hi (beginNode_of_outside hn hb hm)
  · rintro hm rfl
    have hbegin := beginNode_of_bit hn hb hm
    refine ⟨fun hu => ?_, fun hu => ⟨fun hpm => ?_, fun hpm hd hv => ?_⟩⟩
    · exact exec_leaf_of_permNext_raise hk hbegin (permNext_of_none_left hu)
    · exact exec_leaf_of_permNext_raise hk hbegin (permNext_of_outside hu hpm)
    · exact exec_leaf_of_permNext_raise hk hbegin (permNext_of_leafRange hu hpm hd hv)

end Sys2Proof.Machine
end

section
/-! SUPPORT. `BUILD` is its shape bits taken one by one (R160, R170, R277). -/

namespace Sys2Proof.Machine

section
variable {s u : State} {t : Role} {b : BuildWork}

/-! One shape bit. -/

/-- The operation that the next shape bit selects is one iteration of the build, its values kept. -/
theorem exec_nextShape (hk : s.fault.kind = 0) (ht : s.work.tree = t) :
    exec (if pmemBit s.pmem (s.hdr.get t).shapeBase.toNat s.work.build.hoff then .leaf else .node) s =
      ((buildStep t s.work.build s).bind keepBuild).outcome := by
  subst ht
  have hcases := beginNode_cases s.work.tree s.work.build s
  have hnode := exec_node_of_none hk
  have hleaf := exec_leaf_of_none hk
  rw [buildStep, Run.bind_assoc]
  generalize beginNode s.work.tree s.work.build s = r at hcases hnode hleaf ⊢
  cases r with
  | ok x u =>
    obtain ⟨-, hbit, -, -, rfl⟩ := hcases
    obtain ⟨⟨-, -, hbit⟩, -⟩ := ShapeFrom.cons_iff.1 hbit
    rw [← hbit, Run.bind_ok]
    cases hx : x.2.1 with
    | true => exact hleaf
    | false => exact hnode
  | halt u => split <;> assumption
  | stop e => exact hcases.elim

/-- A permutation entry read adds no node and changes no state; else a fault is recorded. -/
theorem permNext_progress (t : Role) (b : BuildWork) (s : State) :
    (permNext t b s).Meets (fun x u => x.2.nodes = b.nodes ∧ u = s) (fun u => u.fault.kind ≠ 0) (fun _ => False) := by
  by_cases hu : b.used = (s.hdr.get t).permCount.toNat
  · rw [permNext_of_none_left hu]
    exact raise_kind_ne_zero _ _ _ _
  by_cases hm : s.cfg.pmemBytes ≤ (s.hdr.get t).permBase.toNat + b.used
  · rw [permNext_of_outside hu hm]
    exact raise_kind_ne_zero _ _ _ _
  by_cases hd : (s.hdr.get t).domain = .nibble ∧
      16 ≤ (Memory.read s.pmem ((s.hdr.get t).permBase.toNat + b.used)).toNat
  · rw [permNext_of_leafRange hu (Nat.not_le.1 hm) hd.1 hd.2]
    exact raise_kind_ne_zero _ _ _ _
  · rw [permNext_of_entry hu (Nat.not_le.1 hm) rfl fun hn => Nat.not_le.1 fun h16 => hd ⟨hn, h16⟩]
    exact ⟨rfl, rfl⟩

/-- What an iteration of the build leaves: one node more, within `NODE_MAX`, and of the state tree memory `t`'s nodes
alone; or a fault recorded. -/
theorem buildStep_progress (t : Role) (b : BuildWork) (s : State) :
    (buildStep t b s).Meets
      (fun c u => b.nodes ≠ nodeMax (s.hdr.get t).domain ∧ c.nodes = b.nodes + 1 ∧ ∃ m, u = s.withNodes t m)
      (fun u => u.fault.kind ≠ 0) (fun _ => False) := by
  refine Run.Meets.bind ((beginNode_cases t b s).mono ?_ ?_ (fun _ h => h))
  · rintro ⟨i, bit, c⟩ u ⟨hn, -, -, hc, rfl⟩
    dsimp only at hc
    subst hc
    cases bit with
    | false => exact ⟨hn, rfl, _, (State.withNodes_self u t).symm⟩
    | true =>
      refine Run.Meets.bind ((permNext_progress t _ u).mono ?_ (fun _ h => h) (fun _ h => h))
      rintro ⟨v, c⟩ w ⟨hc, rfl⟩
      dsimp only at hc ⊢
      split
      · exact ⟨hn, hc, _, putNode_eq _ _ _ _⟩
      · simp only [putNode_eq, State.withNodes_withNodes]
        exact ⟨hn, hc, _, rfl⟩
  · rintro u ⟨k, -, rfl⟩
    exact raise_kind_ne_zero _ _ _ _

/-! The loop. -/

theorem buildLoop_succ (t : Role) (n : Nat) (b : BuildWork) (s : State) : buildLoop t (n + 1) b s =
    (buildStep t b s).bind fun b s => if b.closed then .ok b s else buildLoop t n b s := rfl

/-- No shape bit is taken after a fault or once the tree has closed. -/
theorem ShapeTimes.eq_of_ended {k : Nat} (h : ShapeTimes t k s u)
    (he : s.fault.kind ≠ 0 ∨ s.work.build.closed = true) : u = s := by
  cases k with
  | zero => exact h
  | succ k =>
    obtain ⟨hk, hopen, -⟩ := h
    exact (he.elim (fun hf => hf hk) (fun hc => Bool.false_ne_true (hopen.symm.trans hc))).elim

/-- How the loop of a build ends where its shape bits taken one by one end in `u`: with the fault recorded there, or
with the tree closed; `w` stands for working values that are not the loop's. -/
def LoopEndsAs (r : Run BuildWork) (w : Work) (u : State) : Prop :=
  (u.fault.kind ≠ 0 → r = .halt (u.withWork w)) ∧
  (u.fault.kind = 0 → u.work.build.closed = true → r = .ok u.work.build (u.withWork w))

/-- R160, R167: the loop ends as its shape bits taken one by one do, and its bound is never met since each bit adds a
node. -/
theorem ShapeTimes.loopEndsAs {k n : Nat} (w : Work) (hk : s.fault.kind = 0) (ht : s.work.tree = t)
    (hc : s.work.build.closed = false) (hb : s.work.build.nodes ≤ nodeMax (s.hdr.get t).domain)
    (hn : nodeMax (s.hdr.get t).domain + 1 ≤ n + s.work.build.nodes) (h : ShapeTimes t k s u) :
    LoopEndsAs (buildLoop t n s.work.build (s.withWork w)) w u := by
  induction k generalizing n s with
  | zero =>
    obtain rfl : u = s := h
    exact ⟨fun hf => absurd hk hf, fun _ hclosed => absurd hclosed (by simp [hc])⟩
  | succ k ih =>
    obtain ⟨-, -, m, hm, hrest⟩ := h
    obtain ⟨n, rfl⟩ : ∃ j, n = j + 1 := ⟨n - 1, by omega⟩
    have hprog := buildStep_progress t s.work.build s
    rw [exec_nextShape hk ht] at hm
    rw [buildLoop_succ, buildStep_ignoresWork]
    generalize buildStep t s.work.build s = r at hm hprog ⊢
    cases r with
    | stop e => exact hprog.elim
    | halt x =>
      cases hm
      obtain rfl := hrest.eq_of_ended (.inl hprog)
      exact ⟨fun _ => rfl, fun hf => absurd hf hprog⟩
    | ok c x =>
      obtain ⟨hne, hnodes, m', rfl⟩ := hprog
      cases hm
      show LoopEndsAs (if c.closed then _ else _) w u
      cases hclosed : c.closed with
      | true =>
        obtain rfl := hrest.eq_of_ended (.inr hclosed)
        exact ⟨fun hf => absurd hk hf, fun _ _ => rfl⟩
      | false =>
        refine ih (s := (s.withNodes t m').withWork { s.work with build := c }) hk ht hclosed ?_ ?_ hrest
        · show c.nodes ≤ nodeMax (s.hdr.get t).domain; omega
        · show nodeMax (s.hdr.get t).domain + 1 ≤ n + c.nodes; omega

/-! The end of the build. -/

/-- R160: leftovers, a single leaf, else the tree is valid and its nodes are counted. -/
theorem finishBuild_outcome (hk : s.fault.kind = 0) : (finishBuild t b s).outcome =
    .next (if b.hoff ≠ (s.hdr.get t).shapeBits.toNat ∨ b.used ≠ (s.hdr.get t).permCount.toNat then
        s.faultedWith 1 4 (headerUnit t) (BitVec.ofNat 32 b.hoff)
      else if b.nodes = 1 then s.faultedWith 1 5 (headerUnit t) (BitVec.ofNat 32 b.hoff)
      else s.setTree t { s.tree.get t with count := BitVec.ofNat 10 b.nodes, valid := true }) := by
  rw [finishBuild]
  split_ifs
  · rw [Run.outcome_raise, raise_eq_faultedWith hk]; rfl
  · rw [Run.outcome_raise, raise_eq_faultedWith hk]; rfl
  · rfl

/-- The loop of a build does not touch headers. -/
theorem buildLoop_hdr {n : Nat} {c : BuildWork} (h : buildLoop t n b s = .ok c u) : u.hdr = s.hdr := by
  have hframe := buildLoop_frames t n b s
  rw [h] at hframe
  exact congrArg HostPart.hdr hframe.host

end

/-- Settles O27: the loop of the build ends as its shape bits taken one by one do, and the checks of its end follow. -/
theorem buildIsRepeatedShapes : Obligations.BuildIsRepeatedShapes := by
  intro s u t k hk hr h
  have hloop : LoopEndsAs (buildLoop t (nodeMax (s.hdr.get t).domain + 1) .start (clearTree t s)) s.work u :=
    ShapeTimes.loopEndsAs (s := { s with
      tree := s.tree.set t { nodes := [], count := 0, valid := false }
      work := { s.work with tree := t, build := .start } }) s.work hk rfl rfl (Nat.zero_le _) (Nat.le_refl _) h
  obtain ⟨hfault, hclose⟩ := hloop
  refine ⟨fun hf => ?_, fun hf hc => ?_⟩
  · rw [exec_build_of_not_run hk hr, buildTree, hfault hf]
    rfl
  · have hhdr : (u.withWork s.work).hdr = s.hdr :=
      buildLoop_hdr (s := clearTree t s) (hclose hf hc)
    rw [exec_build_of_not_run hk hr, buildTree, hclose hf hc, Run.bind_ok, finishBuild_outcome (s := u.withWork s.work) hf,
      hhdr]
    rfl

end Sys2Proof.Machine
end

section
/-! SUPPORT. `LEFT` and `RIGHT` (R171): one bit read, then the child it selects. -/

namespace Sys2Proof.Machine

section
variable {s u : State} {t : Role} {p : Bool} {i l r : Nat}

/-! The branch (R165). -/

theorem takeBranch_of_inner (h : nodeAt t i s = some (.inner l r)) : takeBranch t i p s =
    .ok (if p then r else l, leafValue (nodeAt t (if p then r else l) s)) s := by
  rw [takeBranch, h]
  rfl

theorem takeBranch_of_not_inner (h : ∀ l r, nodeAt t i s ≠ some (.inner l r)) :
    takeBranch t i p s = .stop .nodeNotInternal := by
  rw [takeBranch]
  cases hn : nodeAt t i s with
  | none => rfl
  | some n =>
    cases n with
    | leaf v => rfl
    | inner l r => exact absurd hn (h l r)

/-! The operations. -/

/-- The end of a path operation: the child and its symbol kept for the next one (log 8). -/
def keepPath (x : Nat × Option Byte) (s : State) : Run Unit :=
  .ok () { s with work := { s.work with node := x.1, sym := x.2 } }

/-- `LEFT` takes the branch of bit 0, `RIGHT` that of bit 1. -/
theorem exec_path (hk : s.fault.kind = 0) : exec (if p then .right else .left) s = (pathOp p s).outcome := by
  cases p with
  | true => exact dataOp_of_none hk
  | false => exact dataOp_of_none hk

theorem pathOp_of_bitFault {k v : BitVec 4} (hk : s.fault.kind = 0)
    (h : bitFault s s.work.tree (s.cur.get s.work.tree).off.toNat = some (k, v)) :
    pathOp p s = .halt (s.faultedWith k v (streamUnit s.work.tree) (s.cur.get s.work.tree).off) := by
  rw [pathOp, readBit_of_bitFault hk h, Run.bind_halt]

theorem pathOp_of_no_bitFault (h : bitFault s s.work.tree (s.cur.get s.work.tree).off.toNat = none) :
    pathOp p s =
      (takeBranch s.work.tree s.work.node p (s.skipBits s.work.tree 1)).bind keepPath := by
  rw [pathOp, readBit_of_no_bitFault h, Run.bind_ok]
  rfl

/-- A bit that cannot be read ends both operations. -/
theorem exec_path_of_bitFault {k v : BitVec 4} (hk : s.fault.kind = 0)
    (h : bitFault s s.work.tree (s.cur.get s.work.tree).off.toNat = some (k, v)) (p : Bool) :
    exec (if p then .right else .left) s =
      .next (s.faultedWith k v (streamUnit s.work.tree) (s.cur.get s.work.tree).off) := by
  rw [exec_path hk, pathOp_of_bitFault hk h, Run.outcome_halt]

/-- From an internal node both operations go to the child. -/
theorem exec_path_of_inner (hk : s.fault.kind = 0)
    (h : bitFault s s.work.tree (s.cur.get s.work.tree).off.toNat = none)
    (hn : nodeAt s.work.tree s.work.node s = some (.inner l r)) (p : Bool) :
    exec (if p then .right else .left) s = .next { s.skipBits s.work.tree 1 with
      work := { s.work with
        node := if p then r else l, sym := leafValue (nodeAt s.work.tree (if p then r else l) s) } } := by
  rw [exec_path hk, pathOp_of_no_bitFault h, takeBranch_of_inner (s := s.skipBits s.work.tree 1) hn]
  rfl

/-- Log 13: at a node that is not internal both operations stop. -/
theorem exec_path_of_not_inner (hk : s.fault.kind = 0)
    (h : bitFault s s.work.tree (s.cur.get s.work.tree).off.toNat = none)
    (hn : ∀ l r, nodeAt s.work.tree s.work.node s ≠ some (.inner l r)) (p : Bool) :
    exec (if p then .right else .left) s = .fault .nodeNotInternal := by
  rw [exec_path hk, pathOp_of_no_bitFault h, takeBranch_of_not_inner (s := s.skipBits s.work.tree 1) hn]
  rfl

end

/-- Settles O30: the bit and then the node decide which of the three it is, for both operations alike. -/
theorem pathOperations : Obligations.PathOperations := by
  rintro s _ hk rfl
  refine ⟨fun k u h => ?_, fun h => ⟨fun l r hn => ?_, fun hn => ?_⟩⟩
  · have hexec := exec_path_of_bitFault hk h
    exact ⟨hexec false, hexec true⟩
  · have hexec := exec_path_of_inner hk h hn
    rw [State.skipBits_one] at hexec
    exact ⟨hexec false, hexec true⟩
  · have hexec := exec_path_of_not_inner hk h hn
    exact ⟨hexec false, hexec true⟩

end Sys2Proof.Machine
end

section
/-! SUPPORT. `DECODE` bit by bit: it is its path bits taken one by one (R165, R171), and it ends at the first bit that
cannot be read (R165). -/

namespace Sys2Proof.Machine

theorem traverse_succ (t : Role) (n i : Nat) (s : State) : traverse t (n + 1) i s =
    (readBit t s).bind fun p s => (takeBranch t i p s).bind fun x s =>
      match x.2 with
      | some v => .ok v s
      | none => traverse t n x.1 s := rfl

/-- The symbol a node completes, if it is a leaf. -/
def CodeTree.symbol : CodeTree → Option Byte
  | .leaf v => some v
  | .node _ _ => none

/-- A subtree is smaller by its sibling and the node above. -/
theorem CodeTree.child_size_le (l r : CodeTree) (p : Bool) :
    (CodeTree.child l r p).size + 2 ≤ (CodeTree.node l r).size := by
  have hl := l.size_pos
  have hr := r.size_pos
  cases p with
  | false => show l.size + 2 ≤ l.size + r.size + 1; omega
  | true => show r.size + 2 ≤ l.size + r.size + 1; omega

section
variable {s u : State} {t : Role} {p : Bool} {i n : Nat} {l r : CodeTree}

/-- R165: one round of the traversal of a laid-out tree, whose bit can be read. -/
theorem traverse_of_bit (hl : (CodeTree.node l r).laidAt i (s.tree.get t).nodes) (hb : readBit t s = .ok p u)
    (hu : u.tree = s.tree) : traverse t (n + 1) i s =
      match (CodeTree.child l r p).symbol with
      | some v => .ok v u
      | none => traverse t n (childIndex i l p) u := by
  rw [traverse_succ, hb, Run.bind_ok, takeBranch_laid (s := u) (hu ▸ hl)]
  rfl

end

/-! The path bits one by one. -/

section
variable {s u : State} {t : Role} {n : Nat} {l r : CodeTree}

/-- The operation that the next path bit selects is one round of the traversal, its node kept. -/
theorem exec_nextPath (hk : s.fault.kind = 0) (ht : s.work.tree = t) :
    exec (if pmemBit s.pmem (s.cur.get t).base.toNat (s.cur.get t).off.toNat then .right else .left) s =
      ((readBit t s).bind fun p v => (takeBranch t s.work.node p v).bind keepPath).outcome := by
  subst ht
  have hcases := readBit_cases s.work.tree s
  rw [exec_path hk, pathOp]
  generalize readBit s.work.tree s = x at hcases ⊢
  cases x with
  | ok p u =>
    obtain ⟨-, -, -, rfl, rfl⟩ := hcases
    rfl
  | halt u => rfl
  | stop e => rfl

/-- No path bit is taken after a fault or a symbol. -/
theorem PathTimes.eq_of_ended {k : Nat} (h : PathTimes t k s u) (he : s.fault.kind ≠ 0 ∨ s.work.sym ≠ none) : u = s := by
  cases k with
  | zero => exact h
  | succ k =>
    obtain ⟨hk, hsym, -⟩ := h
    exact (he.elim (fun hf => hf hk) (fun hv => hv hsym)).elim

/-- How a traversal ends where its path bits taken one by one end in `u`: with the fault recorded there, or with the
symbol complete; `w` stands for working values that are not the traversal's. -/
def TraverseEndsAs (x : Run Byte) (w : Work) (u : State) : Prop :=
  (u.fault.kind ≠ 0 → x = .halt (u.withWork w)) ∧
  ∀ v, u.fault.kind = 0 → u.work.sym = some v → x = .ok v (u.withWork w)

/-- R165: the traversal of a laid-out tree ends as its path bits taken one by one do, and its bound is never met since
each bit goes to a smaller subtree. -/
theorem PathTimes.traverseEndsAs {k : Nat} (w : Work) (hk : s.fault.kind = 0) (ht : s.work.tree = t)
    (hsym : s.work.sym = none) (hl : (CodeTree.node l r).laidAt s.work.node (s.tree.get t).nodes)
    (hn : (CodeTree.node l r).size ≤ 2 * n + 1) (h : PathTimes t k s u) :
    TraverseEndsAs (traverse t n s.work.node (s.withWork w)) w u := by
  induction k generalizing n l r s with
  | zero =>
    obtain rfl : u = s := h
    exact ⟨fun hf => absurd hk hf, fun v _ hv => by rw [hsym] at hv; cases hv⟩
  | succ k ih =>
    obtain ⟨-, -, m, hm, hrest⟩ := h
    have hsize := CodeTree.child_size_le l r true
    obtain ⟨n, rfl⟩ : ∃ j, n = j + 1 := ⟨n - 1, by have := (CodeTree.child l r true).size_pos; omega⟩
    have hcases := readBit_cases t s
    have hignore := readBit_ignoresWork t s w
    rw [exec_nextPath hk ht] at hm
    generalize readBit t s = x at hm hcases hignore
    cases x with
    | stop e => exact hcases.elim
    | halt x =>
      obtain ⟨c, -, rfl⟩ := hcases
      have hrecorded := raise_kind_ne_zero c (streamUnit t) (s.cur.get t).off.toNat s
      cases hm
      obtain rfl := hrest.eq_of_ended (.inl hrecorded)
      refine ⟨fun _ => ?_, fun v hf => absurd hf hrecorded⟩
      rw [traverse_succ, hignore]
      rfl
    | ok p x =>
      obtain ⟨-, -, -, -, rfl⟩ := hcases
      have hround := traverse_of_bit (s := s.withWork w) (n := n) hl hignore rfl
      have hchild := CodeTree.laidAt_child hl p
      rw [Run.bind_ok, takeBranch_laid (s := s.skipBits t 1) hl] at hm
      rw [hround]
      cases hm
      cases hc : CodeTree.child l r p with
      | leaf v =>
        rw [hc] at hrest
        obtain rfl := hrest.eq_of_ended (.inr (Option.some_ne_none v))
        exact ⟨fun hf => absurd hk hf, fun _ _ hv => by cases hv; rfl⟩
      | node a b =>
        rw [hc] at hrest hchild
        have hsmaller : (CodeTree.node a b).size + 2 ≤ (CodeTree.node l r).size := hc ▸ CodeTree.child_size_le l r p
        exact ih (s := (s.skipBits t 1).withWork { s.work with node := childIndex s.work.node l p, sym := none })
          hk ht rfl hchild (by omega) hrest

end

/-- Settles O31: the traversal from the root ends as its path bits taken one by one do. -/
theorem decodeIsRepeatedPaths : Obligations.DecodeIsRepeatedPaths := by
  intro s u t k hk hr hv ht h
  obtain ⟨l, r, hsize, -, hl⟩ := ht.valid hv
  have hends : TraverseEndsAs (decodeSymbol t s) s.work u :=
    PathTimes.traverseEndsAs (s := { s with work := { s.work with tree := t, node := 0, sym := none } }) s.work hk rfl
      rfl hl (by simp only [nodeMax]; omega) h
  obtain ⟨hfault, hsymbol⟩ := hends
  refine ⟨fun hf => ?_, fun v hf hsym => ?_⟩
  · rw [exec_decode_of_valid hk hr hv, decodeBody, hfault hf]
    rfl
  · rw [exec_decode_of_valid hk hr hv, decodeBody, hsymbol v hf hsym]
    rfl

/-! A code word that breaks off. -/

/-- A proper beginning of a code word ends inside the tree. -/
theorem CodeTree.inside_of_follow {tr : CodeTree} {p q : List Bool} {v : Byte} (h : tr.follow (p ++ q) = some v)
    (hq : q ≠ []) : tr.inside p := by
  induction p generalizing tr with
  | nil =>
    cases tr with
    | leaf w =>
      obtain ⟨b, q, rfl⟩ := List.exists_cons_of_ne_nil hq
      cases h
    | node l r => trivial
  | cons b p ih =>
    cases tr with
    | leaf w => cases h
    | node l r =>
      rw [List.cons_append, CodeTree.follow_cons] at h
      exact CodeTree.inside_cons.2 (ih h)

section
variable {s : State} {t : Role} {k w : BitVec 4}

/-- R141: the checks of a bit do not depend on how far the cursor has moved. -/
theorem bitFault_skipBits (m o : Nat) : bitFault (s.skipBits t m) t o = bitFault s t o := by
  rw [bitFault, bitFault, State.skipBits_get_self, State.skipBits_cfg]

/-- R165: a traversal whose next bits are a path inside the tree ends at the bit after them, where that cannot be
read. -/
theorem traverse_breaksOff {p : List Bool} {l r : CodeTree} {i n : Nat} (hk : s.fault.kind = 0)
    (hl : (CodeTree.node l r).laidAt i (s.tree.get t).nodes) (hin : (CodeTree.node l r).inside p)
    (hs : StreamHolds s t p) (hf : bitFault s t ((s.cur.get t).off.toNat + p.length) = some (k, w))
    (hn : p.length < n) : traverse t n i s = .halt ((s.skipBits t p.length).faultedWith k w (streamUnit t)
      (BitVec.ofNat 32 ((s.cur.get t).off.toNat + p.length))) := by
  obtain ⟨n, rfl⟩ : ∃ j, n = j + 1 := ⟨n - 1, by omega⟩
  induction p generalizing l r i n s with
  | nil =>
    simp only [List.length_nil, Nat.add_zero] at hf ⊢
    rw [traverse_succ, readBit_of_bitFault hk hf, State.skipBits_zero, BitVec.ofNat_toNat, BitVec.setWidth_eq]
    rfl
  | cons b p ih =>
    have hoff := hs.off_lt
    obtain ⟨hread, hs⟩ := hs.read
    have hchild := CodeTree.laidAt_child hl b
    rw [CodeTree.inside_cons] at hin
    rw [traverse_of_bit hl hread rfl]
    simp only [List.length_cons] at hf hn hoff ⊢
    have hnext : ((s.skipBits t 1).cur.get t).off.toNat + p.length = (s.cur.get t).off.toNat + (p.length + 1) := by
      rw [State.skipBits_get_self]
      simp only [BitVec.toNat_ofNat]
      omega
    obtain ⟨n, rfl⟩ : ∃ j, n = j + 1 := ⟨n - 1, by omega⟩
    cases hc : CodeTree.child l r b with
    | leaf v => rw [hc] at hin; exact hin.elim
    | node x y =>
      rw [hc] at hin hchild
      have hrest := ih (s := s.skipBits t 1) hk hchild hin hs (by rw [hnext, bitFault_skipBits]; exact hf) n (by omega)
      rw [hnext, State.skipBits_skipBits _ _ (by omega), Nat.add_comm 1] at hrest
      exact hrest

end

/-- Settles O33: the bits before the unreadable one lead inside the tree, and `DECODE` ends there. -/
theorem decodeBreaksOff : Obligations.DecodeBreaksOff := by
  intro s t tr p q v k u hk hr ht hf hq hs hbit
  have hin := CodeTree.inside_of_follow hf hq
  have hlen := CodeTree.inside_length hin
  obtain ⟨hvalid, hroot, hsize, hl⟩ := ht
  obtain ⟨l, r, rfl⟩ := CodeTree.exists_node hroot
  have hdecode : decodeSymbol t s = _ :=
    traverse_breaksOff hk hl hin hs hbit (by simp only [nodeMax]; omega)
  rw [exec_decode_of_valid hk hr hvalid, decodeBody, hdecode]
  rfl

end Sys2Proof.Machine
end

section
/-! SUPPORT. `PALDEC` in the packed modes where every word exists (R243, R244). -/

namespace Sys2Proof.Machine

section
variable {s : State}

/-- As many words as entries: entry `i + k` is word `k` demultiplexed, and those below entry `i` are as before. -/
theorem rawEntries_ok {n i a : Nat} (hlow : a + n ≤ s.cfg.palromWords) (hi : 1 ≤ i) (hn : i + n ≤ 16) :
    ∃ q, rawEntries n (BitVec.ofNat 4 i) a s = .ok () (s.withPal q) ∧
      (∀ j : Fin 16, j.val < i → q[j] = s.pal[j]) ∧
      ∀ (j : Fin 16) (k : Nat), j.val = i + k → k < n →
        q[j] = demux s.cfg.packedOrder (Memory.read s.palrom (a + k)) := by
  induction n generalizing i a s with
  | zero => exact ⟨s.pal, rfl, fun _ _ => rfl, fun _ _ _ hk => absurd hk (Nat.not_lt_zero _)⟩
  | succ n ih =>
    have hidx : (BitVec.ofNat 4 i).toNat = i := Nat.mod_eq_of_lt (by omega)
    have hne : BitVec.ofNat 4 i ≠ 0 := fun h0 => Nat.ne_of_gt hi (hidx.symm.trans (congrArg BitVec.toNat h0))
    have hnext : BitVec.ofNat 4 i + 1 = BitVec.ofNat 4 (i + 1) := (BitVec.ofNat_add i 1).symm
    obtain ⟨q, hrun, hbelow, hentry⟩ := ih (i := i + 1) (a := a + 1)
      (s := s.setPal (BitVec.ofNat 4 i) (demux s.cfg.packedOrder (Memory.read s.palrom a)))
      (by simp only [State.setPal_cfg]; omega) (by omega) (by omega)
    refine ⟨q, ?_, fun j hj => ?_, fun j k hj hk => ?_⟩
    · rw [rawEntries_succ_of_lt (by omega), storeEntry_of_ne hne, hnext, hrun]
      rfl
    · rw [hbelow j (by omega), setPal_pal_getElem, if_neg (by omega)]
    · cases k with
      | zero => rw [hbelow j (by omega), setPal_pal_getElem, if_pos (by omega), Nat.add_zero]
      | succ k =>
        rw [hentry j k (by omega) (by omega), show a + 1 + k = a + (k + 1) by omega]
        rfl

/-- R244: word 0 of a 16-word palette is read and discarded. -/
theorem rawEntries_zero_of_lt {n a : Nat} (h : a < s.cfg.palromWords) :
    rawEntries (n + 1) 0 a s = rawEntries n 1 (a + 1) s := rawEntries_succ_of_lt h

/-- R241: 15 words from `a` on into entries 1 to 15 of the cleared table. -/
theorem rawEntries_clearPalette {a : Nat} (h : a + 15 ≤ s.cfg.palromWords) :
    ∃ q : Vector PalEntry 16, rawEntries 15 1 a (clearPalette s) = .ok () ((clearPalette s).withPal q) ∧
      q[0] = { opaq := false, r := 0, g := 0, b := 0 } ∧
      ∀ i : Fin 16, 1 ≤ i.val → q[i] = demux s.cfg.packedOrder (Memory.read s.palrom (a + (i.val - 1))) := by
  obtain ⟨q, hrun, hbelow, hentry⟩ := rawEntries_ok (s := clearPalette s) (n := 15) (i := 1) h (le_refl 1) (le_refl 16)
  refine ⟨q, hrun, ?_, fun i hi => hentry i (i.val - 1) (by omega) (by omega)⟩
  exact (hbelow 0 (by decide)).trans (setPal_pal_getElem s 0 .clear 0)

/-- R241: what `PALDEC` leaves in a packed mode whose part replaces the table. -/
theorem exec_paldec_of_table {q : Vector PalEntry 16} (hk : s.fault.kind = 0) (hr : s.rstate ≠ .run)
    (hm : s.ctrl.palMode ≠ .huff) (h : paldecMode (clearPalette s) = .ok () ((clearPalette s).withPal q)) :
    exec .paldec s = .next { s with pal := q, palValid := true, palShiny := s.ctrl.palSel } := by
  rw [exec_paldec_of_packed hk hr hm, paldecBody, h]
  rfl

end

/-- Settles O47: in both modes entries 1 to 15 come from 15 words, in RAW16 mode after word 0 is discarded. -/
theorem paldecPacked : Obligations.PaldecPacked := by
  rintro s _ hk hr rfl
  refine ⟨fun hm hwords => ?_, fun hm hwords => ?_⟩
  · obtain ⟨q, hrun, hzero, hentry⟩ := rawEntries_clearPalette hwords
    refine ⟨q, exec_paldec_of_table hk hr (by simp [hm]) ?_, hzero, hentry⟩
    rw [paldecMode_raw15 (s := clearPalette s) hm]
    exact hrun
  · change s.palBase.toNat + 16 ≤ s.cfg.palromWords at hwords
    have hfirst : s.palBase.toNat < (clearPalette s).cfg.palromWords := by show _ < s.cfg.palromWords; omega
    obtain ⟨q, hrun, hzero, hentry⟩ := rawEntries_clearPalette (a := s.palBase.toNat + 1) (by omega)
    refine ⟨q, exec_paldec_of_table hk hr (by simp [hm]) ?_, hzero, fun i hi => ?_⟩
    · rw [paldecMode_raw16 (s := clearPalette s) hm]
      exact (rawEntries_zero_of_lt hfirst).trans hrun
    · rw [hentry i hi, show s.palBase.toNat + 1 + (i.val - 1) = s.palBase.toNat + i.val by omega]
      rfl

end Sys2Proof.Machine
end

section
/-! SUPPORT. A step before a data operation (log 8): where its data lie (R105, R107, R110, R111, R115, R116). -/

namespace Sys2Proof.Machine

section
variable {s : State} {i : Instr} {w : Word} {u : State}

/-- R105: a shape bit as a word. -/
theorem decodeShape_bitWord (b : Bool) : decodeShape (bitWord b) = .ok (if b then .leaf else .node) := by
  cases b <;> rfl

/-- R107: a path bit as a word. -/
theorem decodePath_bitWord (b : Bool) : decodePath (bitWord b) = .ok (if b then .right else .left) := by
  cases b <;> rfl

/-- R243: the word at the next address, and the address after it. -/
theorem fetchData_palword (hn : s.work.palNext < s.cfg.palromWords) : fetchData .palword s =
    .ok ((Memory.read s.palrom s.work.palNext).setWidth 32)
      { s with work := { s.work with palNext := s.work.palNext + 1 } } := by
  rw [fetchData, palRead_of_lt hn, Run.bind_ok]

/-- R242: the carrier of three symbols that pass the check. -/
theorem fetchData_colour (hr : s.work.red.toNat ≤ 31) (hg : s.work.green.toNat ≤ 31) (hb : s.work.blue.toNat ≤ 31) :
    fetchData .colour s = .ok (tupleWord 0 s.work.red s.work.green s.work.blue) s := by
  rw [fetchData, checkColour_of_le hr, Run.bind_ok, checkColour_of_le hg, Run.bind_ok, checkColour_of_le hb, Run.bind_ok]

/-- With no fault recorded a step before a data operation executes what the fetched word decodes to. -/
theorem step_of_fetchData (hk : s.fault.kind = 0) (hp : s.work.phase ≠ .idle)
    (hf : fetchData s.work.phase s.leavePhase = .ok w u)
    (hd : decode u.ctx (phaseFormat s.work.phase s) w = .ok i) : step s = exec i u := by
  have hstep : step s = dataStep s := if_neg hp
  rw [hstep, dataStep, if_neg (by simp [(State.not_faulted_iff s).2 hk]), hf, runFetched]
  simp only [hd]

end

/-- Settles O6: in each phase the word lies where R100 says, and the step executes what it decodes to. -/
theorem stepRunsDataOperation : Obligations.StepRunsDataOperation := by
  intro s hk
  refine ⟨?shape, ?path, ?quad, ?delta, ?palword, ?colour⟩
  case shape =>
    intro hp
    refine step_of_fetchData hk (by simp [hp]) (by rw [hp]; rfl) ?_
    rw [hp]
    exact decodeShape_bitWord _
  case path =>
    intro hp
    refine step_of_fetchData hk (by simp [hp]) (by rw [hp]; rfl) ?_
    rw [hp]
    exact decodePath_bitWord _
  case quad =>
    intro i hp hl hd
    refine step_of_fetchData (u := s.leavePhase) hk (by simp [hp]) ?_ (by rw [hp, phaseFormat, hl]; exact hd)
    rw [hp, fetchData, State.leavePhase_ctrl, hl]
    rfl
  case delta =>
    intro i hp hl hd
    refine step_of_fetchData (u := s.leavePhase) hk (by simp [hp]) ?_ (by rw [hp, phaseFormat, hl]; exact hd)
    rw [hp, fetchData, State.leavePhase_ctrl, hl]
    rfl
  case palword =>
    intro i hp hn hd
    refine step_of_fetchData hk (by simp [hp]) ?_ (by rw [hp]; exact hd)
    rw [hp]
    exact fetchData_palword (s := s.leavePhase) hn
  case colour =>
    intro hp hr hg hb
    have hw : (Instr.colourTriple s.work.red s.work.green s.work.blue).wellFormed = true := by
      simp [Instr.wellFormed, colourSymbolOk, hr, hg, hb]
    refine step_of_fetchData hk (by simp [hp]) ?_ (by rw [hp]; exact decodeEncode _ _ hw rfl)
    rw [hp]
    exact fetchData_colour (s := s.leavePhase) hr hg hb

end Sys2Proof.Machine
end

section
/-! SUPPORT. The register map (R21): which indices it leaves out. -/

namespace Sys2Proof

theorem roleOfIndex_eq_none_iff {n : Nat} : roleOfIndex n = none ↔ 5 ≤ n := by
  match n with
  | 0 | 1 | 2 | 3 | 4 => simp [roleOfIndex]
  | n + 5 => simp [roleOfIndex]

theorem lt_of_roleOfIndex {n : Nat} {c : Role} (h : roleOfIndex n = some c) : n < 5 := by
  by_contra hle
  rw [roleOfIndex_eq_none_iff.2 (Nat.not_lt.1 hle)] at h
  cases h

theorem plainReg_eq_none_iff : ∀ n < 0x20, plainReg n = none ↔ 0x17 ≤ n := by decide

/-- Every place of a cursor's group of four is a register. -/
theorem curReg_ne_none (c : Role) {n : Nat} (h : n < 4) : curReg c n ≠ none := by
  have hn : n = 0 ∨ n = 1 ∨ n = 2 ∨ n = 3 := by omega
  rcases hn with rfl | rfl | rfl | rfl <;> exact Option.some_ne_none _

theorem treeReg_eq_none_iff (t : Role) {n : Nat} : treeReg t n = none ↔ 6 ≤ n := by
  match n with
  | 0 | 1 | 2 | 3 | 4 | 5 => simp [treeReg]
  | n + 6 => simp [treeReg]

/-- The unmapped indices: above the plain registers, above the cursors, places 6 and 7 of each tree, above the trees. -/
theorem Reg.ofIndex_eq_none_iff {i : BitVec 8} : Reg.ofIndex i = none ↔
    (0x17 ≤ i.toNat ∧ i.toNat < 0x20) ∨ (0x34 ≤ i.toNat ∧ i.toNat < 0x40) ∨
      (0x40 ≤ i.toNat ∧ 6 ≤ (i.toNat - 0x40) % 8) ∨ 0x68 ≤ i.toNat := by
  unfold Reg.ofIndex
  simp only
  split_ifs with hplain hcur
  · rw [plainReg_eq_none_iff _ hplain]
    omega
  · have hplace : ∀ c, curReg c ((i.toNat - 0x20) % 4) ≠ none := fun c => curReg_ne_none c (Nat.mod_lt _ (by decide))
    cases hc : roleOfIndex ((i.toNat - 0x20) / 4) with
    | none => have := roleOfIndex_eq_none_iff.1 hc; simp only [Option.bind_none, true_iff]; omega
    | some c =>
      have := lt_of_roleOfIndex hc
      simp only [Option.bind_some, hplace c, false_iff]; omega
  · cases ht : roleOfIndex ((i.toNat - 0x40) / 8) with
    | none => have := roleOfIndex_eq_none_iff.1 ht; simp only [Option.bind_none, true_iff]; omega
    | some t =>
      have := lt_of_roleOfIndex ht
      rw [Option.bind_some, treeReg_eq_none_iff]; omega

/-- Settles O13: the index of a register leads back to it, and the unmapped indices are the gaps of the map. -/
theorem registerMap : Obligations.RegisterMap := by
  refine ⟨Reg.ofIndex_index, rfl, rfl, fun i => ?_, fun c => ?_⟩
  · rw [Reg.ofIndex_eq_none_iff]
    bv_omega
  · exact ⟨Reg.ofIndex_index (.curBase c), Reg.ofIndex_index (.curLen c), Reg.ofIndex_index (.curOff c),
      Reg.ofIndex_index (.curEnd c), Reg.ofIndex_index (.hdrShapeBase c), Reg.ofIndex_index (.hdrShapeBits c),
      Reg.ofIndex_index (.hdrPermBase c), Reg.ofIndex_index (.hdrPermCount c), Reg.ofIndex_index (.treeCfg c),
      Reg.ofIndex_index (.treeNodes c)⟩

end Sys2Proof
end

section
/-! SUPPORT. Fault entry as the host reads it (R293), and the state after reset (R48). -/

namespace Sys2Proof.Machine

/-! The fault record. -/

/-- R32: `FAULT` as a number. -/
theorem FaultReg.word_toNat (f : FaultReg) : f.word.toNat = 256 * f.unit.toNat + 16 * f.sub.toNat + f.kind.toNat := by
  simp only [FaultReg.word, append_toNat, BitVec.ofNat_eq_ofNat, BitVec.toNat_ofNat]
  omega

/-- What the host reads of a fault recorded: `FAULT`, `FADDR` and `STATUS.FAULT`. -/
theorem raise_as_read {c : Cause} {unit : BitVec 4} {addr : Nat} {s : State} (hk : s.fault.kind = 0) :
    (regRead 0x03 (raise c unit addr s)).1.toNat = 256 * unit.toNat + 16 * c.sub.toNat + c.kind.toNat ∧
    (regRead 0x04 (raise c unit addr s)).1.toNat = addr % 2 ^ 32 ∧
    (regRead 0x02 (raise c unit addr s)).1.getLsbD 8 = true := by
  have hread : ∀ (r : Reg) (u : State), r.isPort = false → (regRead r.index u).1 = regValue r u :=
    fun r u hr => congrArg Prod.fst (regRead_not_port hr)
  refine ⟨?_, ?_, ?_⟩
  · rw [raise_eq_faultedWith hk]
    exact (congrArg BitVec.toNat (hread .fault _ rfl)).trans (FaultReg.word_toNat _)
  · rw [raise_eq_faultedWith hk]
    exact (congrArg BitVec.toNat (hread .faddr _ rfl)).trans (BitVec.toNat_ofNat addr 32)
  · have hfaulted := (State.faulted_iff _).2 (raise_kind_ne_zero c unit addr s)
    exact (congrArg (BitVec.getLsbD · 8) (hread .status _ rfl)).trans ((State.statusWord_getLsbD _ 8).trans hfaulted)

/-- Settles O12: the first fault is recorded in full, a later one not at all, and the codes are those of R290, R291. -/
theorem faultEntry : Obligations.FaultEntry :=
  ⟨fun _ _ _ _ => ⟨fun hk => ⟨raise_eq_faultedWith hk, raise_as_read hk⟩, raise_of_recorded⟩, by decide, by decide,
    by decide⟩

/-! The state after reset. -/

/-- Settles O54: after reset the memories are empty, no flag is set, and nothing is in progress. -/
theorem resetInv : Obligations.ResetInv where
  cfg := by show Config.default.wf; decide
  pmem := Memory.wf_nil
  pmemBound _ h := nomatch h
  palrom := Memory.wf_nil
  palromBound _ h := nomatch h
  rbuf := Memory.wf_nil
  rbufBound _ h := nomatch h
  rbufValue _ h := nomatch h
  pos := Nat.le_refl 0
  capacity := Nat.zero_le _
  running h := nomatch h
  done h := nomatch h
  session h := nomatch h
  tree t := by rw [State.reset_tree]; exact TreeMem.reset_ok
  entryZero h := nomatch h
  fault := ⟨fun _ => ⟨rfl, rfl⟩, fun h => absurd rfl h⟩
  work := rfl

end Sys2Proof.Machine
end
